-- ==== Sys2Proof/Word.lean ====
section
/-! DEFINITION. The word types of CORE (spec/00_scope.md R9, R10, R16): every integer is unsigned
and every real value is a binary32, held as its 32-bit pattern. -/

namespace Sys2Proof

/-- One byte of a host bus that serialises command words (20_memory.md R63). -/
abbrev Byte := BitVec 8

/-- A `u32`: command words, registers, counters, durations (00_scope.md R9). -/
abbrev Word := BitVec 32

/-- A `u64`: the argument `arg0`, the seed, the response data (30_encoding.md R80). -/
abbrev DWord := BitVec 64

/-- A word address of the state-register space (10_state.md R45). -/
abbrev Addr := BitVec 16

/-- A binary32, as its bit pattern: `fbits` and `fval` of 00_scope.md R17 are the identity here. -/
abbrev F32 := BitVec 32

end Sys2Proof
end

