-- ==== Sys2Proof/Config.lean ====
section
/-! DEFINITION. What the spec fixes for the hardware, and what it leaves to the implementation:
the configuration record CFG (spec/00_scope.md R11), the generator RNG (R12), the numeric functions
NUM (R13). The three parameters are opaque constants: nothing can be proved of their values. -/

namespace Sys2Proof

/-- The waveform kinds, a closed set (10_state.md R42; 41_signal.md R113). -/
inductive WaveKind
  | sine
  | square
  | saw
deriving DecidableEq, Repr, Inhabited

/-- One entry of the weighted operator pool, `CFG.POOL[k]` (00_scope.md R11). -/
structure PoolEntry where
  weight : Word
  wave : WaveKind
  ratioLo : F32
  ratioHi : F32
deriving DecidableEq, Repr, Inhabited

/-- The configuration record `CFG` (00_scope.md R11), a read-only store (10_state.md R50). The three
counts are bounded by the sizes of their tables (00_scope.md R8, 20_memory.md R62). -/
structure Cfg where
  tempoLo : F32
  tempoHi : F32
  seqMutLo : Word
  seqMutHi : Word
  synMutLo : Word
  synMutHi : Word
  attLo : F32
  attHi : F32
  decLo : F32
  decHi : F32
  susLo : F32
  susHi : F32
  relLo : F32
  relHi : F32
  cutoffLo : F32
  cutoffHi : F32
  qLo : F32
  qHi : F32
  pool : Vector PoolEntry 5
  scales : Vector (Vector F32 8) 21
  nScales : Fin 22
  nMetres : Fin 6
  nPool : Fin 6
deriving DecidableEq, Repr, Inhabited

/-- `CFG.METRES`, the metre set, a constant of the hardware (00_scope.md R8). -/
def Config.metres : Vector (BitVec 4) 5 := #v[3, 4, 5, 7, 8]

/-- The state of the pseudo-random generator: a parameter type of the spec (00_scope.md R12), here
any natural number code. Nothing but the functions of `Rng` reads it (10_state.md R49). -/
structure RngState where
  code : Nat
deriving DecidableEq, Repr, Inhabited

/-- The generator `RNG` (00_scope.md R12). The four draw functions are raw: `Machine/Ops.lean` admits
an answer only if it lies in the draw's range, so every generator that meets R12 is one of these and
no other fact about a draw can be proved. -/
structure Rng where
  seed : DWord → RngState
  index : RngState → Nat → Nat × RngState
  weighted : RngState → List Word → Nat × RngState
  u32 : RngState → Word → Word → Word × RngState
  f32 : RngState → F32 → F32 → F32 × RngState
deriving Inhabited

/-- The binary32 operations of 00_scope.md R17 that can give a NaN. -/
inductive FloatOp
  | add
  | sub
  | mul
  | div
deriving DecidableEq, Repr

/-- The numeric functions `NUM` (00_scope.md R13) and the sign and payload of a NaN result (R17,
93_implementation_defined.md U9). All are raw: `Machine/Float.lean` imposes the anchor facts of R13
and that a NaN result is a NaN. -/
structure Numerics where
  sin : F32 → F32
  tan : F32 → F32
  atan : F32 → F32
  tanh : F32 → F32
  nan : FloatOp → F32 → F32 → F32
deriving Inhabited

/-- The functions a run is given: `RNG` and `NUM`. -/
structure Env where
  rng : Rng
  num : Numerics
deriving Inhabited

/-- The generator and the numerics of this build (00_scope.md R12, R13): open parameters. -/
opaque Config.env : Env

/-- The configuration of this build (00_scope.md R11): an open parameter. -/
opaque Config.cfg : Cfg

end Sys2Proof
end

