-- ==== Sys2Proof/Machine/Float.lean ====
section
/-! DEFINITION. IEEE 754 binary32 with round-to-nearest-even (spec/00_scope.md R10, R14, R17), and the
numeric parameters NUM with the facts R13 states of them.

A finite binary32 is a whole number of `units` of 2^-149. Every operation computes the exact result as
a quotient of natural numbers, in units, and rounds it once (`roundUnits`). -/

namespace Sys2Proof.Machine

/-- The pattern without its sign bit. -/
def magBits (x : F32) : Nat := x.toNat % 2 ^ 31

/-- The sign bit, bit 31. -/
def signBit (x : F32) : Bool := x.msb

/-- An exponent field of all ones and a fraction that is not 0. -/
def isNaN (x : F32) : Bool := 0x7F800000 < magBits x

/-- An exponent field of all ones and a fraction of 0. -/
def isInf (x : F32) : Bool := magBits x == 0x7F800000

/-- Neither a NaN nor an infinity. -/
def isFinite (x : F32) : Bool := magBits x < 0x7F800000

/-- `+0` or `-0`. -/
def isZero (x : F32) : Bool := magBits x == 0

/-- The magnitude of a finite value, in units of 2^-149 (subnormals are those with exponent field 0). -/
def units (x : F32) : Nat :=
  if magBits x / 2 ^ 23 = 0 then magBits x
  else (2 ^ 23 + magBits x % 2 ^ 23) * 2 ^ (magBits x / 2 ^ 23 - 1)

/-- A finite value, signed, in units of 2^-149. -/
def signedUnits (x : F32) : Int := if signBit x then -(units x : Int) else units x

/-- A pattern from a sign and a magnitude pattern. -/
def withSign (neg : Bool) (mag : Nat) : F32 :=
  BitVec.ofNat 32 (if neg then 2 ^ 31 + mag else mag)

/-- Half-way or above, with ties to the even neighbour: the quotient `n / d` rounded to a whole number. -/
def roundDiv (n d : Nat) : Nat :=
  if 2 * (n % d) < d then n / d
  else if d < 2 * (n % d) then n / d + 1
  else if n / d % 2 = 0 then n / d
  else n / d + 1

/-- The magnitude pattern nearest `n / d` units, ties to even, overflow to infinity. The quotient is
rounded to a multiple of `2^e` units, where `e` keeps 24 significant bits; a pattern with the multiple
`q` is then `e * 2^23 + q`, the carry into the exponent field included. -/
def roundUnits (n d : Nat) : Nat :=
  let e := Nat.log2 (n / d) - 23
  min (e * 2 ^ 23 + roundDiv n (d * 2 ^ e)) 0x7F800000

/-- `+0.0` -/
def fZero : F32 := 0x00000000
/-- `-0.0` -/
def fNegZero : F32 := 0x80000000
/-- `+inf` -/
def fInf : F32 := 0x7F800000
/-- 1.0 -/
def fOne : F32 := 0x3F800000
/-- -1.0 -/
def fNegOne : F32 := 0xBF800000
/-- 2.0 -/
def fTwo : F32 := 0x40000000
/-- 6.0 (00_scope.md R14) -/
def fSix : F32 := 0x40C00000
/-- 12.0 (00_scope.md R14) -/
def fTwelve : F32 := 0x41400000
/-- 60.0 (00_scope.md R14) -/
def fSixty : F32 := 0x42700000
/-- 0.8 (00_scope.md R14) -/
def fPointEight : F32 := 0x3F4CCCCD
/-- 1.8 (00_scope.md R14) -/
def fOnePointEight : F32 := 0x3FE66666
/-- 1.386249 (00_scope.md R14) -/
def fT1Scale : F32 := 0x3FB1709B
/-- `PI` (00_scope.md R14) -/
def fPi : F32 := 0x40490FDB
/-- `TAU` (00_scope.md R14) -/
def fTau : F32 := 0x40C90FDB
/-- `HALF_PI` (00_scope.md R14) -/
def fHalfPi : F32 := 0x3FC90FDB

/-- The NaN that an operation answers: its sign and payload are open, a function of the operation and
its operands (93_implementation_defined.md U9); only that it is a NaN is fixed. -/
def nanOf (N : Numerics) (op : FloatOp) (a b : F32) : F32 :=
  if isNaN (N.nan op a b) then N.nan op a b else 0x7FC00000

/-- The exact sum `sum` units rounded; a zero sum is `-0` only if both addends are negative. -/
def roundSum (bothNeg : Bool) (sum : Int) : F32 :=
  if sum = 0 then (if bothNeg then fNegZero else fZero)
  else withSign (decide (sum < 0)) (roundUnits sum.natAbs 1)

/-- `fadd(a,b)` for operands that are no NaN, without the NaN of opposite infinities. -/
def addNumbers (a b : F32) : F32 :=
  if isInf a then a
  else if isInf b then b
  else roundSum (signBit a && signBit b) (signedUnits a + signedUnits b)

/-- The operand with its sign bit inverted. -/
def fneg (x : F32) : F32 := x ^^^ 0x80000000

/-- `fadd(a,b)` (00_scope.md R17). -/
def fadd (N : Numerics) (a b : F32) : F32 :=
  if isNaN a || isNaN b || (isInf a && isInf b && signBit a != signBit b) then nanOf N .add a b
  else addNumbers a b

/-- `fsub(a,b)` (00_scope.md R17). -/
def fsub (N : Numerics) (a b : F32) : F32 :=
  if isNaN a || isNaN b || (isInf a && isInf b && signBit a == signBit b) then nanOf N .sub a b
  else addNumbers a (fneg b)

/-- `fmul(a,b)` (00_scope.md R17). -/
def fmul (N : Numerics) (a b : F32) : F32 :=
  if isNaN a || isNaN b || (isInf a && isZero b) || (isZero a && isInf b) then nanOf N .mul a b
  else if isInf a || isInf b then withSign (signBit a != signBit b) 0x7F800000
  else withSign (signBit a != signBit b) (roundUnits (units a * units b) (2 ^ 149))

/-- `fdiv(a,b)` (00_scope.md R17): a finite value over an infinity is a zero, a value that is not zero
over a zero an infinity. -/
def fdiv (N : Numerics) (a b : F32) : F32 :=
  if isNaN a || isNaN b || (isInf a && isInf b) || (isZero a && isZero b) then nanOf N .div a b
  else if isInf a || isZero b then withSign (signBit a != signBit b) 0x7F800000
  else if isInf b then withSign (signBit a != signBit b) 0
  else withSign (signBit a != signBit b) (roundUnits (units a * 2 ^ 149) (units b))

/-- `u2f(n)` (00_scope.md R17). -/
def u2f (n : Word) : F32 := withSign false (roundUnits (n.toNat * 2 ^ 149) 1)

/-- `f2u(x)` (00_scope.md R17): truncation toward zero, saturating; NaN gives 0. -/
def f2u (x : F32) : Word :=
  if isNaN x || signBit x then 0
  else if isInf x then 0xFFFFFFFF
  else BitVec.ofNat 32 (min (units x / 2 ^ 149) 0xFFFFFFFF)

/-- `a < b` for finite values, the comparison of the ranges of 00_scope.md R12. -/
def flt (a b : F32) : Bool := isFinite a && isFinite b && decide (signedUnits a < signedUnits b)

/-- `a <= b` for finite values. -/
def fle (a b : F32) : Bool := isFinite a && isFinite b && decide (signedUnits a ≤ signedUnits b)

/-- `NUM.sin`, with the anchor `NUM.sin(+0) = +0` (00_scope.md R13). -/
def numSin (N : Numerics) (x : F32) : F32 := if x = fZero then fZero else N.sin x

/-- `NUM.tan`, with the anchor `NUM.tan(+0) = +0` (00_scope.md R13). -/
def numTan (N : Numerics) (x : F32) : F32 := if x = fZero then fZero else N.tan x

/-- `NUM.atan`, with the anchor `NUM.atan(+inf) = HALF_PI` (00_scope.md R13). -/
def numAtan (N : Numerics) (x : F32) : F32 := if x = fInf then fHalfPi else N.atan x

/-- `NUM.tanh`, with the anchors at `+0` and `-0` and, for an `x` that is no NaN, the bound
`|NUM.tanh(x)| <= 1` (00_scope.md R13). -/
def numTanh (N : Numerics) (x : F32) : F32 :=
  if x = fZero || x = fNegZero then x
  else if isNaN x || magBits (N.tanh x) ≤ 0x3F800000 then N.tanh x
  else fZero

end Sys2Proof.Machine
end

