-- ==== Sys2Proof/Syntax.lean ====
section
/-! DEFINITION. The 31 operations of CORE (spec/30_encoding.md R83), one constructor per row of
spec/opcode_table.json. An operand is a field of the command word: `inst` (bits 23:16) or `addr`
(bits 15:0). The arguments `arg0` and `arg1` are on the command port, not in the word (R80, R85). -/

namespace Sys2Proof

/-- An operation with the operand fields of its word. -/
inductive Instr
  /-- ENG.NEW, 47_engine.md R175 -/
  | engNew
  /-- ENG.NEXT, 47_engine.md R176 -/
  | engNext
  /-- CLK.DEADLINE, 40_clock.md R100 -/
  | clkDeadline (inst : Byte)
  /-- CLK.DEFAULT, 40_clock.md R101 -/
  | clkDefault (inst : Byte)
  /-- CLK.TICK, 40_clock.md R102 -/
  | clkTick (inst : Byte)
  /-- CLK.READY, 40_clock.md R103 -/
  | clkReady (inst : Byte)
  /-- CLK.RESET, 40_clock.md R104 -/
  | clkReset (inst : Byte)
  /-- SIG.SINE, 41_signal.md R110 -/
  | sigSine
  /-- SIG.SQUARE, 41_signal.md R111 -/
  | sigSquare
  /-- SIG.SAW, 41_signal.md R112 -/
  | sigSaw
  /-- OP.NEW, 42_operator.md R120 -/
  | opNew (inst : Byte)
  /-- OP.RANDOM, 42_operator.md R121 -/
  | opRandom (inst : Byte)
  /-- OP.SETF, 42_operator.md R122 -/
  | opSetf (inst : Byte)
  /-- OP.NEXT, 42_operator.md R123 -/
  | opNext (inst : Byte)
  /-- ADSR.NEW, 43_adsr.md R130 -/
  | adsrNew
  /-- ADSR.START, 43_adsr.md R131 -/
  | adsrStart
  /-- ADSR.NEXT, 43_adsr.md R132 -/
  | adsrNext
  /-- FLT.NEW, 44_filter.md R140 -/
  | fltNew
  /-- FLT.GEN, 44_filter.md R141 -/
  | fltGen
  /-- NOTE.NEW, 45_note_sequence.md R150 -/
  | noteNew (inst : Byte)
  /-- NOTE.DEFAULT, 45_note_sequence.md R151 -/
  | noteDefault (inst : Byte)
  /-- SEQ.NEW, 45_note_sequence.md R152 -/
  | seqNew
  /-- SEQ.NEXT, 45_note_sequence.md R153 -/
  | seqNext
  /-- SEQ.MUTATE, 45_note_sequence.md R154 -/
  | seqMutate
  /-- SYN.NEW, 46_synth.md R165 -/
  | synNew
  /-- SYN.PLAY, 46_synth.md R166 -/
  | synPlay
  /-- SYN.NEXT, 46_synth.md R167 -/
  | synNext
  /-- SYN.MUTATE, 46_synth.md R168 -/
  | synMutate
  /-- RNG.SEED, 48_system.md R185 -/
  | rngSeed
  /-- RDREG, 48_system.md R186 -/
  | rdreg (addr : Addr)
  /-- WRREG, 48_system.md R187 -/
  | wrreg (addr : Addr)
deriving DecidableEq, Repr, Inhabited

/-- The lowest access level at which an operation is legal (30_encoding.md R83; 60_exceptions.md R210). -/
inductive Level
  | host
  | test
deriving DecidableEq, Repr

/-- The "level" column of 30_encoding.md R83. -/
def Instr.level : Instr → Level
  | .engNew | .engNext => .host
  | .clkDeadline _ | .clkDefault _ | .clkTick _ | .clkReady _ | .clkReset _ => .test
  | .sigSine | .sigSquare | .sigSaw => .test
  | .opNew _ | .opRandom _ | .opSetf _ | .opNext _ => .test
  | .adsrNew | .adsrStart | .adsrNext => .test
  | .fltNew | .fltGen => .test
  | .noteNew _ | .noteDefault _ | .seqNew | .seqNext | .seqMutate => .test
  | .synNew | .synPlay | .synNext | .synMutate => .test
  | .rngSeed | .rdreg _ | .wrreg _ => .test

end Sys2Proof
end

