-- ==== Sys2Proof/WellFormed.lean ====
section
/-! DEFINITION. Which terms of `Instr` are operations: the `inst` ranges of spec/30_encoding.md R83
and R86 (Clock 0..3, Operator 0..2, Note slot 0..7). -/

namespace Sys2Proof

/-- How many instances there are of the unit the operation's `inst` field selects; `none` for an
operation with no `inst` field (10_state.md R20, 30_encoding.md R83). -/
def Instr.instances : Instr → Option Nat
  | .clkDeadline _ | .clkDefault _ | .clkTick _ | .clkReady _ | .clkReset _ => some 4
  | .opNew _ | .opRandom _ | .opSetf _ | .opNext _ => some 3
  | .noteNew _ | .noteDefault _ => some 8
  | .engNew | .engNext | .sigSine | .sigSquare | .sigSaw => none
  | .adsrNew | .adsrStart | .adsrNext | .fltNew | .fltGen => none
  | .seqNew | .seqNext | .seqMutate => none
  | .synNew | .synPlay | .synNext | .synMutate => none
  | .rngSeed | .rdreg _ | .wrreg _ => none

/-- The `inst` field of an operation; 0 where its format has none (30_encoding.md R81). -/
def Instr.inst : Instr → Byte
  | .clkDeadline k | .clkDefault k | .clkTick k | .clkReady k | .clkReset k => k
  | .opNew k | .opRandom k | .opSetf k | .opNext k => k
  | .noteNew k | .noteDefault k => k
  | .engNew | .engNext | .sigSine | .sigSquare | .sigSaw => 0
  | .adsrNew | .adsrStart | .adsrNext | .fltNew | .fltGen => 0
  | .seqNew | .seqNext | .seqMutate => 0
  | .synNew | .synPlay | .synNext | .synMutate => 0
  | .rngSeed | .rdreg _ | .wrreg _ => 0

/-- The `addr` field of an operation; 0 where its format has none (30_encoding.md R81). -/
def Instr.addr : Instr → Addr
  | .rdreg a | .wrreg a => a
  | .engNew | .engNext | .sigSine | .sigSquare | .sigSaw => 0
  | .clkDeadline _ | .clkDefault _ | .clkTick _ | .clkReady _ | .clkReset _ => 0
  | .opNew _ | .opRandom _ | .opSetf _ | .opNext _ => 0
  | .adsrNew | .adsrStart | .adsrNext | .fltNew | .fltGen => 0
  | .noteNew _ | .noteDefault _ | .seqNew | .seqNext | .seqMutate => 0
  | .synNew | .synPlay | .synNext | .synMutate => 0
  | .rngSeed => 0

/-- 30_encoding.md R86: the `inst` field names an instance that exists. Every `addr` is well-formed
(R84: an unmapped address is a value error of the operation, not of the encoding). -/
def Instr.wellFormed (i : Instr) : Bool :=
  match i.instances with
  | some n => i.inst.toNat < n
  | none => true

end Sys2Proof
end

