-- ==== Sys2Proof/Decode.lean ====
section
/-! DEFINITION. Decoding and encoding of command words (spec/30_encoding.md R81, R83, R84, R86, R87),
total on any word and on any bytes, refusing by name. -/

namespace Sys2Proof

/-- Why a word selects no operation (30_encoding.md R87). The command port answers ERR_ILLEGAL for
each of the first four; `truncated` is only for a byte string shorter than a word. -/
inductive DecodeError
  /-- the opcode has no row in the table of R83 -/
  | noOperation
  /-- a format N or A word whose `inst` field is not 0 -/
  | instNotZero
  /-- a format N or I word whose `addr` field is not 0 -/
  | addrNotZero
  /-- a format I word whose `inst` is outside the row's range (R86) -/
  | instRange
  /-- fewer than four bytes -/
  | truncated
deriving DecidableEq, Repr

/-- The opcode of an operation (30_encoding.md R83). -/
def Instr.opcode : Instr → Byte
  | .engNew => 0x01
  | .engNext => 0x02
  | .clkDeadline _ => 0x10
  | .clkDefault _ => 0x11
  | .clkTick _ => 0x12
  | .clkReady _ => 0x13
  | .clkReset _ => 0x14
  | .sigSine => 0x20
  | .sigSquare => 0x21
  | .sigSaw => 0x22
  | .opNew _ => 0x30
  | .opRandom _ => 0x31
  | .opSetf _ => 0x32
  | .opNext _ => 0x33
  | .adsrNew => 0x40
  | .adsrStart => 0x41
  | .adsrNext => 0x42
  | .fltNew => 0x50
  | .fltGen => 0x51
  | .noteNew _ => 0x60
  | .noteDefault _ => 0x61
  | .seqNew => 0x62
  | .seqNext => 0x63
  | .seqMutate => 0x64
  | .synNew => 0x70
  | .synPlay => 0x71
  | .synNext => 0x72
  | .synMutate => 0x73
  | .rngSeed => 0x80
  | .rdreg _ => 0xF0
  | .wrreg _ => 0xF1

/-- Field `opcode`, bits 31:24 (30_encoding.md R81). -/
def opcodeField (w : Word) : Byte := w.extractLsb' 24 8

/-- Field `inst`, bits 23:16 (30_encoding.md R81). -/
def instField (w : Word) : Byte := w.extractLsb' 16 8

/-- Field `addr`, bits 15:0 (30_encoding.md R81). -/
def addrField (w : Word) : Addr := w.extractLsb' 0 16

/-- Format N: `inst` and `addr` must be 0 (30_encoding.md R81, R84). -/
def formatN (w : Word) (i : Instr) : Except DecodeError Instr :=
  if instField w ≠ 0 then .error .instNotZero
  else if addrField w ≠ 0 then .error .addrNotZero
  else .ok i

/-- Format I: `addr` must be 0 and `inst` below the number of instances (30_encoding.md R84, R86). -/
def formatI (w : Word) (mk : Byte → Instr) : Except DecodeError Instr :=
  if addrField w ≠ 0 then .error .addrNotZero
  else if (mk (instField w)).wellFormed then .ok (mk (instField w))
  else .error .instRange

/-- Format A: `inst` must be 0; every `addr` decodes (30_encoding.md R84). -/
def formatA (w : Word) (mk : Addr → Instr) : Except DecodeError Instr :=
  if instField w ≠ 0 then .error .instNotZero
  else .ok (mk (addrField w))

/-- The decoder: the opcode alone selects the row and the format (30_encoding.md R81, R83, R84). -/
def decode (w : Word) : Except DecodeError Instr :=
  match (opcodeField w).toNat with
  | 0x01 => formatN w .engNew
  | 0x02 => formatN w .engNext
  | 0x10 => formatI w .clkDeadline
  | 0x11 => formatI w .clkDefault
  | 0x12 => formatI w .clkTick
  | 0x13 => formatI w .clkReady
  | 0x14 => formatI w .clkReset
  | 0x20 => formatN w .sigSine
  | 0x21 => formatN w .sigSquare
  | 0x22 => formatN w .sigSaw
  | 0x30 => formatI w .opNew
  | 0x31 => formatI w .opRandom
  | 0x32 => formatI w .opSetf
  | 0x33 => formatI w .opNext
  | 0x40 => formatN w .adsrNew
  | 0x41 => formatN w .adsrStart
  | 0x42 => formatN w .adsrNext
  | 0x50 => formatN w .fltNew
  | 0x51 => formatN w .fltGen
  | 0x60 => formatI w .noteNew
  | 0x61 => formatI w .noteDefault
  | 0x62 => formatN w .seqNew
  | 0x63 => formatN w .seqNext
  | 0x64 => formatN w .seqMutate
  | 0x70 => formatN w .synNew
  | 0x71 => formatN w .synPlay
  | 0x72 => formatN w .synNext
  | 0x73 => formatN w .synMutate
  | 0x80 => formatN w .rngSeed
  | 0xF0 => formatA w .rdreg
  | 0xF1 => formatA w .wrreg
  | _ => .error .noOperation

/-- The encoder: the three fields side by side, `opcode` highest (30_encoding.md R81). -/
def encode (i : Instr) : Word :=
  i.opcode ++ i.inst ++ i.addr

/-- A command word as a host bus lays it out: little-endian, byte 0 is bits 7:0 (20_memory.md R63). -/
def wordBytes (w : Word) : List Byte :=
  [w.extractLsb' 0 8, w.extractLsb' 8 8, w.extractLsb' 16 8, w.extractLsb' 24 8]

/-- Decoding from a host bus's bytes: one word of four bytes, lowest first (20_memory.md R63,
30_encoding.md R89), with the rest of the bytes. -/
def decodeBytes : List Byte → Except DecodeError (Instr × List Byte)
  | b0 :: b1 :: b2 :: b3 :: rest =>
    match decode (b3 ++ b2 ++ b1 ++ b0) with
    | .ok i => .ok (i, rest)
    | .error e => .error e
  | _ => .error .truncated

/-- The command word with the low `nbits` bits of `w`, every bit above them 0. -/
def tableWord (nbits w : Nat) : Word := BitVec.ofNat 32 (w % 2 ^ nbits)

/-- The operation the decoder reads from a row of spec/opcode_table.json whose bits are `w`. -/
def decodeTableWord (nbits w : Nat) : Option Instr :=
  match decodeBytes (wordBytes (tableWord nbits w)) with
  | .ok (i, _) => some i
  | .error _ => none

end Sys2Proof
end

