-- ==== Sys2Proof/Machine/State.lean ====
section
/-! DEFINITION. The state of CORE (spec/10_state.md R20 to R29), the command port (30_encoding.md R80,
R82), the reasons a step can stop, and the machine after hardware reset (R53, R230). -/

namespace Sys2Proof.Machine

/-- Why a step stops with the model's outcome "unspecified behaviour reached" (60_exceptions.md R207),
which is no response of the hardware. Every one is SAFE: the spec gives no effect there, and the model
goes no further. -/
inductive Fault
  /-- Raised by SIG.SQUARE, and by OP.NEXT, SYN.NEXT and ENG.NEXT of a Square Operator, when the sample
  rate or the truncated frequency is 0 (41_signal.md R111, R245, U2). Safe. -/
  | squareZeroDivisor
  /-- Raised by OP.NEXT, SYN.NEXT and ENG.NEXT when an Operator's `wave` is 3 (42_operator.md R123, U8).
  Safe. -/
  | reservedWave
  /-- Raised by ADSR.NEXT, SYN.NEXT and ENG.NEXT when the phase Clock fires and `state` is 5, 6 or 7
  (43_adsr.md R132, U8). Safe. -/
  | reservedAdsrState
  /-- Raised by any operation that draws, when the draw's range is empty or not finite (00_scope.md R12,
  U4). Safe. -/
  | drawDomain
  /-- Raised by NOTE.NEW, SEQ.MUTATE, SEQ.NEXT and ENG.NEXT when `seq.scale` is above 20, so that the
  scale tables hold no such entry; no operation and no WRREG writes such a value (10_state.md R46, R53;
  20_memory.md R62). Safe. -/
  | illegalScale
  /-- Raised by SEQ.NEXT, SEQ.MUTATE and ENG.NEXT when `seq.length` is 0 (a zero divisor, 40_clock.md
  R105) or so far above 8 that a slot outside the note array is picked; no operation and no WRREG writes
  such a value (10_state.md R46, R53). Safe. -/
  | illegalLength
deriving DecidableEq, Repr

/-- Why the model gives no outcome at all. Closed. -/
inductive Refusal
  /-- Raised by an arm of `exec` for an operation that has no meaning yet. Safe: the run ends. -/
  | notModelled (mnemonic : String)
deriving DecidableEq, Repr

/-- A Clock (10_state.md R21). -/
structure Clock where
  tick : Word
  deadline : Word
deriving DecidableEq, Repr, Inhabited

/-- A Note (10_state.md R22). -/
structure Note where
  dur : BitVec 4
  freq : F32
deriving DecidableEq, Repr, Inhabited

/-- An Operator (10_state.md R25); `wave` is a 2-bit register, 3 reserved (R42). -/
structure Oper where
  sr : Word
  freq : F32
  ratio : F32
  wave : BitVec 2
  phase : Word
deriving DecidableEq, Repr, Inhabited

/-- The ADSR (10_state.md R26) but for its phase Clock `clk[2]`; `state` is a 3-bit register, 5 to 7
reserved (R43). -/
structure Adsr where
  attack : F32
  decay : F32
  sustain : F32
  release : F32
  value : F32
  length : Word
  delta : F32
  state : BitVec 3
deriving DecidableEq, Repr, Inhabited

/-- The Filter (10_state.md R27). -/
structure Filter where
  cutoff : F32
  q : F32
  res : F32
  p : F32
  k : F32
  px : F32
  s : Vector F32 4
  ps : Vector F32 3
deriving DecidableEq, Repr, Inhabited

/-- The Sequence (10_state.md R24) but for its Clocks `clk[0]`, `clk[1]`. -/
structure Seq where
  tempo : Word
  scale : BitVec 5
  length : BitVec 4
  cursor : BitVec 3
  note : Vector Note 8
deriving DecidableEq, Repr, Inhabited

/-- The Synth (10_state.md R28) but for its mutation Clock `clk[3]`. -/
structure Synth where
  sr : Word
  op : Vector Oper 3
  adsr : Adsr
  flt : Filter
deriving DecidableEq, Repr, Inhabited

/-- The status of a response (30_encoding.md R82). -/
inductive Status
  | ok
  | errSelect
  | errState
  | errIllegal
  | errValue
deriving DecidableEq, Repr, Inhabited

/-- A command as the host presents it (30_encoding.md R80). -/
structure Command where
  word : Word
  arg0 : DWord
  arg1 : Word
deriving DecidableEq, Repr, Inhabited

/-- A response (30_encoding.md R80). -/
structure Response where
  status : Status
  flag : Bool
  data : DWord
deriving DecidableEq, Repr, Inhabited

/-- What the host can do to CORE: issue a command (60_exceptions.md R214), or reset it with a value of
the strap `TEST_EN` (70_reset_and_hazards.md R230). -/
inductive HostEvent
  | command (c : Command)
  | reset (strap : Bool)
deriving DecidableEq, Repr, Inhabited

/-- The state of the machine: the record of 10_state.md R20; the strap and the configuration store,
fixed between two resets (00_scope.md R15, 10_state.md R50); the command port (30_encoding.md R80). -/
structure State where
  /-- `eng.ready` (10_state.md R41) -/
  ready : Bool
  /-- `eng.rng` (10_state.md R49) -/
  rng : RngState
  /-- `seq` (10_state.md R24) -/
  seq : Seq
  /-- `clk[0..3]` (10_state.md R21) -/
  clk : Vector Clock 4
  /-- `syn` (10_state.md R28) -/
  syn : Synth
  /-- `TEST_EN`, the access level since the last reset (60_exceptions.md R210) -/
  testEn : Bool
  /-- `CFG` (00_scope.md R11, 20_memory.md R60) -/
  cfg : Cfg
  /-- what the host will do, in order: the host's plan, not CORE's state (10_state.md R40) -/
  pending : List HostEvent
  /-- `arg0` of the command being performed (30_encoding.md R80) -/
  arg0 : DWord
  /-- `arg1` of the command being performed (30_encoding.md R80) -/
  arg1 : Word
  /-- the last response; none since reset until a command is answered -/
  resp : Option Response
deriving DecidableEq, Repr, Inhabited

/-- The machine right after hardware reset with strap value `strap` and configuration `cfg`
(70_reset_and_hazards.md R230): `eng.ready` is 0, no command is in progress, no response is pending.
DESIGN CHOICE (log 7, unsafe): the elements the spec leaves unspecified are 0, but for `seq.length`,
whose legal values exclude 0 and which is 3, the first metre. -/
def State.resetWith (strap : Bool) (cfg : Cfg) : State where
  ready := false
  rng := ⟨0⟩
  seq :=
    { tempo := 0, scale := 0, length := 3, cursor := 0, note := Vector.replicate 8 ⟨0, 0⟩ }
  clk := Vector.replicate 4 ⟨0, 0⟩
  syn :=
    { sr := 0
      op := Vector.replicate 3 ⟨0, 0, 0, 0, 0⟩
      adsr := ⟨0, 0, 0, 0, 0, 0, 0, 0⟩
      flt := ⟨0, 0, 0, 0, 0, 0, Vector.replicate 4 0, Vector.replicate 3 0⟩ }
  testEn := strap
  cfg := cfg
  pending := []
  arg0 := 0
  arg1 := 0
  resp := none

/-- The machine right after hardware reset, as the host's `Core` names it. DESIGN CHOICE (log 2): the
strap is 1, TEST level, at which all 31 operations are legal; the configuration is the open parameter
(log 3). -/
def State.reset : State := State.resetWith true Config.cfg

end Sys2Proof.Machine
end

