-- ==== Sys2Proof/Machine/Flags.lean ====
section
/-! DEFINITION. The conditions operations compute and the encodings of the enumerations: a Clock's
ready condition (spec/10_state.md R21), WaveKind (R42), AdsrState (R43), the status codes
(30_encoding.md R82) and the flag `eng.ready` as a register (R41, R46). -/

namespace Sys2Proof.Machine

/-- "`ready` iff tick ≥ deadline", unsigned (10_state.md R21). -/
def Clock.isReady (c : Clock) : Bool := decide (c.deadline ≤ c.tick)

/-- The Clock after one tick, modulo 2^32 (40_clock.md R102). -/
def Clock.ticked (c : Clock) : Clock := ⟨c.tick + 1, c.deadline⟩

/-- Whether the Clock fires on its next tick: the condition on the tick after the advance
(40_clock.md R102). -/
def Clock.fires (c : Clock) : Bool := c.ticked.isReady

/-- A Clock armed to fire after `d` ticks (40_clock.md R100, R104). -/
def Clock.armed (d : Word) : Clock := ⟨0, d⟩

/-- The 2-bit encoding of a waveform kind (10_state.md R42). -/
def waveCode : WaveKind → BitVec 2
  | .sine => 0
  | .square => 1
  | .saw => 2

/-- The waveform kind of a 2-bit register; 3 is reserved (10_state.md R42). -/
def waveOf (w : BitVec 2) : Option WaveKind :=
  if w = 0 then some .sine
  else if w = 1 then some .square
  else if w = 2 then some .saw
  else none

/-- The states of the ADSR (10_state.md R43). -/
inductive AdsrState
  | off
  | attack
  | decay
  | sustain
  | release
deriving DecidableEq, Repr

/-- The 3-bit encoding of an ADSR state (10_state.md R43). -/
def AdsrState.code : AdsrState → BitVec 3
  | .off => 0
  | .attack => 1
  | .decay => 2
  | .sustain => 3
  | .release => 4

/-- The ADSR state of a 3-bit register; 5, 6 and 7 are reserved (10_state.md R43). -/
def adsrStateOf (x : BitVec 3) : Option AdsrState :=
  if x = 0 then some .off
  else if x = 1 then some .attack
  else if x = 2 then some .decay
  else if x = 3 then some .sustain
  else if x = 4 then some .release
  else none

/-- The 4-bit code of a status (30_encoding.md R82); 5 to 15 are never produced. -/
def Status.code : Status → BitVec 4
  | .ok => 0
  | .errSelect => 1
  | .errState => 2
  | .errIllegal => 3
  | .errValue => 4

/-- ENG_STATUS as it reads: bit 0 `eng.ready`, bit 1 `TEST_EN`, bits 31:2 zero (10_state.md R46). -/
def engStatus (ready testEn : Bool) : Word :=
  (if ready then 1 else 0) + (if testEn then 2 else 0)

end Sys2Proof.Machine
end

