-- ==== Sys2Proof/Machine/Operands.lean ====
section
/-! DEFINITION. How the arguments of a command become operands and how a result is packed into the
response data (spec/30_encoding.md R85). Argument bits an operation does not name are ignored. -/

namespace Sys2Proof.Machine

/-- `arg0[31:0]`: a binary32 operand, or the value of WRREG. -/
def State.argLow (s : State) : Word := s.arg0.extractLsb' 0 32

/-- `arg0[63:32]`: the sample index, the duration; must be 0 for WRREG. -/
def State.argHigh (s : State) : Word := s.arg0.extractLsb' 32 32

/-- `arg0[33:32]`: the `wave` operand of OP.NEW. -/
def State.argWave (s : State) : BitVec 2 := s.arg0.extractLsb' 32 2

/-- The fields of a response with status OK: `flag` and `data`. -/
structure Answer where
  flag : Bool
  data : DWord
deriving DecidableEq, Repr

/-- No result: `flag = 0`, `data = 0`. -/
def Answer.none : Answer := ⟨false, 0⟩

/-- A result in the flag: CLK.TICK, CLK.READY. -/
def Answer.ofFlag (b : Bool) : Answer := ⟨b, 0⟩

/-- A 32-bit result in `data[31:0]`, zero-extended. -/
def Answer.ofWord (w : Word) : Answer := ⟨false, w.setWidth 64⟩

/-- The result of SEQ.NEXT: `flag = 1`, `data = (duration, frequency)`, or nothing. -/
def Answer.ofEvent : Option (Word × F32) → Answer
  | some (ds, f) => ⟨true, ds ++ f⟩
  | Option.none => Answer.none

end Sys2Proof.Machine
end

