-- ==== Sys2Proof/Machine/Ops.lean ====
section
/-! DEFINITION. The operations every meaning is built from: reading and writing state elements by path
(spec/00_scope.md R17), ending a command with an error (60_exceptions.md R200 to R205, the one shared
operation that stands where other hardware takes an exception; R211 and R212: nothing is saved and
there is no return), the draws (00_scope.md R12, R17), and answering a command. -/

namespace Sys2Proof.Machine

/-! ## State elements by path -/

/-- Write `eng.ready`. -/
def State.setReady (s : State) (b : Bool) : State := { s with ready := b }

/-- Write `eng.rng`. -/
def State.setRng (s : State) (r : RngState) : State := { s with rng := r }

/-- Read `clk[k]`. -/
def State.clock (s : State) (k : Fin 4) : Clock := s.clk[k]

/-- Write `clk[k]`. -/
def State.setClock (s : State) (k : Fin 4) (c : Clock) : State := { s with clk := s.clk.set k c }

/-- Write the Sequence's elements. -/
def State.setSeq (s : State) (q : Seq) : State := { s with seq := q }

/-- Read `seq.note[i]`. -/
def State.note (s : State) (i : Fin 8) : Note := s.seq.note[i]

/-- Write `seq.note[i]`. -/
def State.setNote (s : State) (i : Fin 8) (n : Note) : State :=
  { s with seq := { s.seq with note := s.seq.note.set i n } }

/-- Write `syn.sr`. -/
def State.setSynSr (s : State) (r : Word) : State := { s with syn := { s.syn with sr := r } }

/-- Read `syn.op[j]`. -/
def State.oper (s : State) (j : Fin 3) : Oper := s.syn.op[j]

/-- Write `syn.op[j]`. -/
def State.setOper (s : State) (j : Fin 3) (o : Oper) : State :=
  { s with syn := { s.syn with op := s.syn.op.set j o } }

/-- Write `syn.adsr`. -/
def State.setAdsr (s : State) (a : Adsr) : State := { s with syn := { s.syn with adsr := a } }

/-- Write `syn.flt`. -/
def State.setFlt (s : State) (f : Filter) : State := { s with syn := { s.syn with flt := f } }

/-- Put a response on the command port (30_encoding.md R80). -/
def State.answer (s : State) (r : Response) : State := { s with resp := some r }

/-- End a command with a status other than OK: `flag = 0`, `data = 0` (30_encoding.md R82,
60_exceptions.md R200). Nothing is saved, no mode changes and control goes nowhere (R211). -/
def State.answerError (s : State) (e : Status) : State := s.answer ⟨e, false, 0⟩

/-! ## Commands as actions on the state -/

/-- Why a command's statements stop before their end: an error answer (60_exceptions.md R200), or a
model-level fault (R207). -/
inductive Stop
  | raise (e : Status)
  | fault (f : Fault)
deriving DecidableEq, Repr

/-- An action: statements run top to bottom (00_scope.md R18). It ends with a value or with a `Stop`,
and either way with the state as the statements before left it (60_exceptions.md R205). -/
abbrev M (α : Type) := EStateM Stop State α

/-- The state as it is now. -/
def readState : M State := fun s => .ok s s

/-- Replace the state. -/
def updateState (f : State → State) : M Unit := fun s => .ok () (f s)

/-- `raise <Fault>` of the spec's pseudocode (00_scope.md R17). -/
def raise {α : Type} (e : Status) : M α := fun s => .error (.raise e) s

/-- `fault` of the spec's pseudocode (60_exceptions.md R207). -/
def stopWith {α : Type} (f : Fault) : M α := fun s => .error (.fault f) s

/-- `if b then a`. -/
def doWhen (b : Bool) (a : M Unit) : M Unit := if b then a else pure ()

/-- The response of a command whose statements ended so (30_encoding.md R80, R82; 60_exceptions.md
R200, R205). -/
def respond : EStateM.Result Stop State Answer → Host.Outcome State Fault Refusal
  | .ok a s => .next (s.answer ⟨.ok, a.flag, a.data⟩)
  | .error (.raise e) s => .next (s.answerError e)
  | .error (.fault f) _ => .fault f

/-- A command legal at both access levels (30_encoding.md R83, R88). -/
def hostCommand (act : M Answer) (s : State) : Host.Outcome State Fault Refusal := respond (act s)

/-- A command legal at TEST level only: at HOST level it answers ERR_ILLEGAL and changes no state
(30_encoding.md R88, 60_exceptions.md R203, R210). -/
def testCommand (act : M Answer) (s : State) : Host.Outcome State Fault Refusal :=
  if s.testEn then respond (act s) else .next (s.answerError .errIllegal)

/-- The instance an `inst` field names. A term of `Instr` whose `inst` is out of range is no operation
and answers ERR_ILLEGAL (30_encoding.md R86); the decoder yields none. -/
def selectInst (n : Nat) (inst : Byte) : M (Fin n) :=
  if h : inst.toNat < n then pure ⟨inst.toNat, h⟩ else raise .errIllegal

/-! ## Draws (00_scope.md R12, R17) -/

/-- `RNG.index(st, n)`: the raw answer if it is below `n`, so that `0 <= k < n` and nothing else is
known of it. -/
def indexAnswer (r : Rng) (st : RngState) (n : Nat) (h : 0 < n) : Fin n :=
  if hk : (r.index st n).1 < n then ⟨(r.index st n).1, hk⟩ else ⟨0, h⟩

/-- `RngIndex(n)`; `RngIndex(0)` does not draw and raises SelectFail (60_exceptions.md R201). -/
def rngIndex (E : Env) (n : Nat) : M (Fin n) := fun s =>
  if h : 0 < n then
    .ok (indexAnswer E.rng s.rng n h) (s.setRng (E.rng.index s.rng n).2)
  else .error (.raise .errSelect) s

/-- The first index whose weight is not 0. -/
def firstWeighted {n : Nat} (w : Fin n → Word) : Option (Fin n) :=
  (List.finRange n).find? fun k => w k != 0

/-- `RNG.weighted(st, w)`: the raw answer if it is an index with a weight that is not 0, else
`fallback`, which is one. -/
def weightedAnswer {n : Nat} (r : Rng) (st : RngState) (w : Fin n → Word) (fallback : Fin n) : Fin n :=
  if hk : (r.weighted st (List.ofFn w)).1 < n then
    if w ⟨(r.weighted st (List.ofFn w)).1, hk⟩ ≠ 0 then ⟨(r.weighted st (List.ofFn w)).1, hk⟩
    else fallback
  else fallback

/-- `RngWeighted(w)`; of an empty or all-zero weight list it does not draw and raises SelectFail
(60_exceptions.md R201). -/
def rngWeighted (E : Env) {n : Nat} (w : Fin n → Word) : M (Fin n) := fun s =>
  match firstWeighted w with
  | some k => .ok (weightedAnswer E.rng s.rng w k) (s.setRng (E.rng.weighted s.rng (List.ofFn w)).2)
  | none => .error (.raise .errSelect) s

/-- `RNG.u32(st, lo, hi)`: the raw answer if `lo <= v < hi`, else `lo`. -/
def u32Answer (r : Rng) (st : RngState) (lo hi : Word) : Word :=
  if lo ≤ (r.u32 st lo hi).1 ∧ (r.u32 st lo hi).1 < hi then (r.u32 st lo hi).1 else lo

/-- `RngU32(lo, hi)`, defined for `lo < hi`; elsewhere a model-level fault
(93_implementation_defined.md U4). -/
def rngU32 (E : Env) (lo hi : Word) : M Word := fun s =>
  if lo < hi then .ok (u32Answer E.rng s.rng lo hi) (s.setRng (E.rng.u32 s.rng lo hi).2)
  else .error (.fault .drawDomain) s

/-- `RNG.f32(st, lo, hi)`: the raw answer if `lo <= v < hi`, else `lo`. -/
def f32Answer (r : Rng) (st : RngState) (lo hi : F32) : F32 :=
  if fle lo (r.f32 st lo hi).1 && flt (r.f32 st lo hi).1 hi then (r.f32 st lo hi).1 else lo

/-- `RngF32(lo, hi)`, defined for finite `lo < hi`; elsewhere a model-level fault
(93_implementation_defined.md U4). -/
def rngF32 (E : Env) (lo hi : F32) : M F32 := fun s =>
  if flt lo hi then .ok (f32Answer E.rng s.rng lo hi) (s.setRng (E.rng.f32 s.rng lo hi).2)
  else .error (.fault .drawDomain) s

end Sys2Proof.Machine
end

