-- ==== Sys2Proof/Machine/Clock.lean ====
section
/-! DEFINITION. The Clock operations (spec/40_clock.md R100 to R104). -/

namespace Sys2Proof.Machine

/-! ## Steps -/

/-- CLK.DEADLINE, R100. -/
def clkDeadline (k : Fin 4) (d : Word) : M Unit := updateState (·.setClock k (Clock.armed d))

/-- CLK.DEFAULT, R101. -/
def clkDefault (k : Fin 4) : M Unit := updateState (·.setClock k (Clock.armed 0))

/-- CLK.TICK, R102: the condition is computed on the tick after the advance. -/
def clkTick (k : Fin 4) : M Bool := do
  let s ← readState
  updateState (·.setClock k (s.clock k).ticked)
  pure (s.clock k).ticked.isReady

/-- CLK.READY, R103: no state is written. -/
def clkReady (k : Fin 4) : M Bool := do
  let s ← readState
  pure (s.clock k).isReady

/-- CLK.RESET, R104. -/
def clkReset (k : Fin 4) (d : Word) : M Unit := updateState (·.setClock k (Clock.armed d))

/-! ## Commands (operands and results: 30_encoding.md R85) -/

namespace Cmd

/-- CLK.DEADLINE: `d = arg1`. -/
def clkDeadline (inst : Byte) : M Answer := do
  let k ← selectInst 4 inst
  let s ← readState
  Machine.clkDeadline k s.arg1
  pure Answer.none

/-- CLK.DEFAULT. -/
def clkDefault (inst : Byte) : M Answer := do
  let k ← selectInst 4 inst
  Machine.clkDefault k
  pure Answer.none

/-- CLK.TICK: `flag = fired`. -/
def clkTick (inst : Byte) : M Answer := do
  let k ← selectInst 4 inst
  let fired ← Machine.clkTick k
  pure (Answer.ofFlag fired)

/-- CLK.READY: `flag = ready`. -/
def clkReady (inst : Byte) : M Answer := do
  let k ← selectInst 4 inst
  let ready ← Machine.clkReady k
  pure (Answer.ofFlag ready)

/-- CLK.RESET: `d = arg1`. -/
def clkReset (inst : Byte) : M Answer := do
  let k ← selectInst 4 inst
  let s ← readState
  Machine.clkReset k s.arg1
  pure Answer.none

end Cmd

/-- CLK.DEADLINE, 40_clock.md R100. -/
def execClkDeadline (inst : Byte) (s : State) : Host.Outcome State Fault Refusal :=
  testCommand (Cmd.clkDeadline inst) s

/-- CLK.DEFAULT, 40_clock.md R101. -/
def execClkDefault (inst : Byte) (s : State) : Host.Outcome State Fault Refusal :=
  testCommand (Cmd.clkDefault inst) s

/-- CLK.TICK, 40_clock.md R102. -/
def execClkTick (inst : Byte) (s : State) : Host.Outcome State Fault Refusal :=
  testCommand (Cmd.clkTick inst) s

/-- CLK.READY, 40_clock.md R103. -/
def execClkReady (inst : Byte) (s : State) : Host.Outcome State Fault Refusal :=
  testCommand (Cmd.clkReady inst) s

/-- CLK.RESET, 40_clock.md R104. -/
def execClkReset (inst : Byte) (s : State) : Host.Outcome State Fault Refusal :=
  testCommand (Cmd.clkReset inst) s

end Sys2Proof.Machine
end

