-- ==== Sys2Proof/Machine/Adsr.lean ====
section
/-! DEFINITION. The ADSR operations (spec/43_adsr.md R130 to R134). The phase Clock is `clk[2]`. -/

namespace Sys2Proof.Machine

/-! ## Segments and the state order -/

/-- `seg(Attack)`, R134. -/
def segAttack (N : Numerics) (a : Adsr) : F32 := fmul N (u2f a.length) a.attack

/-- `seg(Decay)`, R134. -/
def segDecay (N : Numerics) (a : Adsr) : F32 := fmul N (u2f a.length) a.decay

/-- `seg(Sustain)`, R134: the remainder of the note, subtracted left to right. -/
def segSustain (N : Numerics) (a : Adsr) : F32 :=
  fmul N (u2f a.length) (fsub N (fsub N (fsub N fOne a.attack) a.decay) a.release)

/-- `seg(Release)`, R134. -/
def segRelease (N : Numerics) (a : Adsr) : F32 := fmul N (u2f a.length) a.release

/-- The successor function of R133. -/
def AdsrState.successor : AdsrState → AdsrState
  | .off => .off
  | .attack => .decay
  | .decay => .sustain
  | .sustain => .release
  | .release => .off

/-! ## Steps -/

/-- ADSR.NEW, R130: four draws, in the order attack, decay, sustain, release. -/
def adsrNew (E : Env) : M Unit := do
  let s ← readState
  let attack ← rngF32 E s.cfg.attLo s.cfg.attHi
  let decay ← rngF32 E s.cfg.decLo s.cfg.decHi
  let sustain ← rngF32 E s.cfg.susLo s.cfg.susHi
  let release ← rngF32 E s.cfg.relLo s.cfg.relHi
  updateState (·.setAdsr
    { attack := attack, decay := decay, sustain := sustain, release := release
      value := fZero, length := 0, delta := fZero, state := AdsrState.off.code })
  clkDefault 2

/-- The ADSR with its state, value and note length as ADSR.START writes them, before the delta. -/
def startedAdsr (a : Adsr) (length : Word) : Adsr :=
  { a with state := AdsrState.attack.code, value := fZero, length := length }

/-- ADSR.START, R131: the segment is computed with the new length. -/
def adsrStart (E : Env) (length : Word) : M Unit := do
  updateState fun s => s.setAdsr (startedAdsr s.syn.adsr length)
  updateState fun s =>
    s.setAdsr { s.syn.adsr with delta := fdiv E.num fOne (segAttack E.num s.syn.adsr) }
  let s ← readState
  clkReset 2 (f2u (segAttack E.num s.syn.adsr))

/-- A transition into a sounding state: the new state, the delta of its ramp, the phase Clock rearmed
with the segment (R132, R134). -/
def adsrEnter (st : AdsrState) (delta seg : F32) : M Unit := do
  updateState fun s => s.setAdsr { s.syn.adsr with state := st.code, delta := delta }
  clkReset 2 (f2u seg)

/-- Falling off Release, or staying Off, R132: the Clock is not rearmed. -/
def adsrOff : M Unit :=
  updateState fun s =>
    s.setAdsr { s.syn.adsr with state := AdsrState.off.code, delta := fZero, value := fZero }

/-- The transition ADSR.NEXT makes when the phase Clock fires, R132. -/
def adsrTransition (E : Env) : M Unit := do
  let s ← readState
  let a := s.syn.adsr
  match adsrStateOf a.state with
  | some .attack =>
    adsrEnter .decay (fdiv E.num (fsub E.num a.sustain a.value) (segDecay E.num a)) (segDecay E.num a)
  | some .decay => adsrEnter .sustain fZero (segSustain E.num a)
  | some .sustain =>
    adsrEnter .release (fdiv E.num (fsub E.num fZero a.value) (segRelease E.num a)) (segRelease E.num a)
  | some .release => adsrOff
  | some .off => adsrOff
  | none => stopWith .reservedAdsrState

/-- ADSR.NEXT, R132: the delta is added on every call, transition or not. -/
def adsrNext (E : Env) : M F32 := do
  let fired ← clkTick 2
  doWhen fired (adsrTransition E)
  updateState fun s =>
    s.setAdsr { s.syn.adsr with value := fadd E.num s.syn.adsr.value s.syn.adsr.delta }
  let s ← readState
  pure s.syn.adsr.value

/-! ## Commands (operands and results: 30_encoding.md R85) -/

namespace Cmd

/-- ADSR.NEW. -/
def adsrNew (E : Env) : M Answer := do
  Machine.adsrNew E
  pure Answer.none

/-- ADSR.START: `length = arg1`. -/
def adsrStart (E : Env) : M Answer := do
  let s ← readState
  Machine.adsrStart E s.arg1
  pure Answer.none

/-- ADSR.NEXT: `data[31:0] = value`. -/
def adsrNext (E : Env) : M Answer := do
  let v ← Machine.adsrNext E
  pure (Answer.ofWord v)

end Cmd

/-- ADSR.NEW, 43_adsr.md R130. -/
def execAdsrNew (s : State) : Host.Outcome State Fault Refusal :=
  testCommand (Cmd.adsrNew Config.env) s

/-- ADSR.START, 43_adsr.md R131. -/
def execAdsrStart (s : State) : Host.Outcome State Fault Refusal :=
  testCommand (Cmd.adsrStart Config.env) s

/-- ADSR.NEXT, 43_adsr.md R132. -/
def execAdsrNext (s : State) : Host.Outcome State Fault Refusal :=
  testCommand (Cmd.adsrNext Config.env) s

end Sys2Proof.Machine
end

