-- ==== Sys2Proof/Machine/Sequence.lean ====
section
/-! DEFINITION. The Note and Sequence operations (spec/45_note_sequence.md R150 to R154). The mutation
Clock is `clk[0]`, the step Clock `clk[1]`. -/

namespace Sys2Proof.Machine

/-! ## Steps -/

/-- `CFG.SCALES[scale][t]` (00_scope.md R11); `none` above 20, where the table has no entry. -/
def scaleTone (c : Cfg) (scale : BitVec 5) (t : Fin 8) : Option F32 :=
  if h : scale.toNat < 21 then some (c.scales[scale.toNat])[t] else none

/-- NOTE.NEW, R150: two draws, the duration, then the tone. -/
def noteNew (E : Env) (i : Fin 8) : M Unit := do
  let s ← readState
  let d ← rngU32 E 1 (s.seq.length.setWidth 32 + 1)
  let t ← rngIndex E 8
  match scaleTone s.cfg s.seq.scale t with
  | some f => updateState (·.setNote i ⟨d.setWidth 4, f⟩)
  | none => stopWith .illegalScale

/-- NOTE.DEFAULT, R151. -/
def noteDefault (i : Fin 8) : M Unit := updateState (·.setNote i ⟨0, fZero⟩)

/-- The loop of SEQ.NEW over the slots, R152: below the active length a drawn Note, else the default. -/
def fillNotes (E : Env) : List (Fin 8) → M Unit
  | [] => pure ()
  | i :: rest => do
    let s ← readState
    if i.val < s.seq.length.toNat then noteNew E i else noteDefault i
    fillNotes E rest

/-- `CFG.METRES[m]` (00_scope.md R8, R11) for an index below `CFG.N_METRES`. -/
def metreAt (c : Cfg) (m : Fin c.nMetres.val) : BitVec 4 :=
  Config.metres[m.val]'(by have := c.nMetres.isLt; have := m.isLt; omega)

/-- The tempo in samples per step of SEQ.NEW, R152. -/
def tempoSamples (N : Numerics) (bpm : F32) (sr : Word) : Word :=
  f2u (fmul N (fdiv N fSixty bpm) (u2f sr))

/-- SEQ.NEW, R152: `4 + 2 * length` draws, in the order tempo, scale, metre, Notes, deadline. -/
def seqNew (E : Env) (sr : Word) : M Unit := do
  let s ← readState
  let bpm ← rngF32 E s.cfg.tempoLo s.cfg.tempoHi
  updateState fun s => s.setSeq { s.seq with tempo := tempoSamples E.num bpm sr }
  let k ← rngIndex E s.cfg.nScales.val
  updateState fun s => s.setSeq { s.seq with scale := BitVec.ofNat 5 k.val }
  let m ← rngIndex E s.cfg.nMetres.val
  updateState fun t => t.setSeq { t.seq with length := metreAt s.cfg m }
  fillNotes E (List.finRange 8)
  let d ← rngU32 E s.cfg.seqMutLo s.cfg.seqMutHi
  clkDeadline 0 d
  clkDefault 1
  updateState fun s => s.setSeq { s.seq with cursor := (s.seq.length - 1).setWidth 3 }

/-- The slot SEQ.MUTATE picks from its draw `k`: the playing slot is skipped, R154. -/
def mutatedSlot (k : Nat) (cursor : BitVec 3) : Nat := if cursor.toNat ≤ k then k + 1 else k

/-- SEQ.MUTATE, R154: four draws, the slot, the Note's two, the deadline. A `seq.length` of 0, or a slot
outside the array, is reached from reset garbage only (log 12). -/
def seqMutate (E : Env) : M Unit := do
  let s ← readState
  if s.seq.length = 0 then stopWith .illegalLength
  else do
    let k ← rngIndex E (s.seq.length.toNat - 1)
    if h : mutatedSlot k.val s.seq.cursor < 8 then do
      noteNew E ⟨mutatedSlot k.val s.seq.cursor, h⟩
      let d ← rngU32 E s.cfg.seqMutLo s.cfg.seqMutHi
      clkReset 0 d
    else stopWith .illegalLength

/-- The cursor after a step boundary, R153: 4-bit arithmetic, the result kept in 3 bits. -/
def nextCursor (cursor : BitVec 3) (length : BitVec 4) : BitVec 3 :=
  ((cursor.setWidth 4 + 1) % length).setWidth 3

/-- The duration in samples of a Note, R153: modulo 2^32. -/
def noteSamples (n : Note) (tempo : Word) : Word := n.dur.setWidth 32 * tempo

/-- What SEQ.NEXT does when the step Clock fires, R153. -/
def seqStep : M (Word × F32) := do
  let s ← readState
  if s.seq.length = 0 then stopWith .illegalLength
  else do
    updateState fun s => s.setSeq { s.seq with cursor := nextCursor s.seq.cursor s.seq.length }
    let s ← readState
    let n := s.note ⟨s.seq.cursor.toNat, s.seq.cursor.isLt⟩
    clkReset 1 (noteSamples n s.seq.tempo)
    pure (noteSamples n s.seq.tempo, n.freq)

/-- SEQ.NEXT, R153: both Clocks are ticked on every call, the mutation Clock first. -/
def seqNext (E : Env) : M (Option (Word × F32)) := do
  let mutates ← clkTick 0
  doWhen mutates (seqMutate E)
  let fired ← clkTick 1
  if fired then do
    let ev ← seqStep
    pure (some ev)
  else pure none

/-! ## Commands (operands and results: 30_encoding.md R85) -/

namespace Cmd

/-- NOTE.NEW: the slot is `inst`. -/
def noteNew (E : Env) (inst : Byte) : M Answer := do
  let i ← selectInst 8 inst
  Machine.noteNew E i
  pure Answer.none

/-- NOTE.DEFAULT: the slot is `inst`. -/
def noteDefault (inst : Byte) : M Answer := do
  let i ← selectInst 8 inst
  Machine.noteDefault i
  pure Answer.none

/-- SEQ.NEW: `sample_rate = arg1`. -/
def seqNew (E : Env) : M Answer := do
  let s ← readState
  Machine.seqNew E s.arg1
  pure Answer.none

/-- SEQ.NEXT: the event in the flag and the data. -/
def seqNext (E : Env) : M Answer := do
  let ev ← Machine.seqNext E
  pure (Answer.ofEvent ev)

/-- SEQ.MUTATE. -/
def seqMutate (E : Env) : M Answer := do
  Machine.seqMutate E
  pure Answer.none

end Cmd

/-- NOTE.NEW, 45_note_sequence.md R150. -/
def execNoteNew (inst : Byte) (s : State) : Host.Outcome State Fault Refusal :=
  testCommand (Cmd.noteNew Config.env inst) s

/-- NOTE.DEFAULT, 45_note_sequence.md R151. -/
def execNoteDefault (inst : Byte) (s : State) : Host.Outcome State Fault Refusal :=
  testCommand (Cmd.noteDefault inst) s

/-- SEQ.NEW, 45_note_sequence.md R152. -/
def execSeqNew (s : State) : Host.Outcome State Fault Refusal :=
  testCommand (Cmd.seqNew Config.env) s

/-- SEQ.NEXT, 45_note_sequence.md R153. -/
def execSeqNext (s : State) : Host.Outcome State Fault Refusal :=
  testCommand (Cmd.seqNext Config.env) s

/-- SEQ.MUTATE, 45_note_sequence.md R154. -/
def execSeqMutate (s : State) : Host.Outcome State Fault Refusal :=
  testCommand (Cmd.seqMutate Config.env) s

end Sys2Proof.Machine
end

