-- ==== Sys2Proof/Machine/Registers.lean ====
section
/-! DEFINITION. The state-register space (spec/10_state.md R45 to R48): 32-bit words at 16-bit word
addresses, and the register map of R46. -/

namespace Sys2Proof.Machine

/-- The registers of the map, a constructor per row of 10_state.md R46. -/
inductive Reg
  | engStatus
  | seqTempo
  | seqScale
  | seqLength
  | seqCursor
  | clkTick (k : Fin 4)
  | clkDeadline (k : Fin 4)
  | noteDur (i : Fin 8)
  | noteFreq (i : Fin 8)
  | synSr
  | opSr (j : Fin 3)
  | opFreq (j : Fin 3)
  | opRatio (j : Fin 3)
  | opWave (j : Fin 3)
  | opPhase (j : Fin 3)
  | adsrAttack
  | adsrDecay
  | adsrSustain
  | adsrRelease
  | adsrValue
  | adsrLength
  | adsrDelta
  | adsrState
  | fltCutoff
  | fltQ
  | fltRes
  | fltP
  | fltK
  | fltPx
  | fltS (m : Fin 4)
  | fltPs (m : Fin 3)
deriving DecidableEq, Repr

/-- The address of `CLK<k>_TICK`; `CLK<k>_DEADLINE` is the next word (10_state.md R46). -/
def clkAddr : Fin 4 → Nat
  | 0 => 0x0104
  | 1 => 0x0106
  | 2 => 0x0247
  | 3 => 0x0201

/-- The "addr" column of 10_state.md R46. -/
def Reg.addrNat : Reg → Nat
  | .engStatus => 0x0000
  | .seqTempo => 0x0100
  | .seqScale => 0x0101
  | .seqLength => 0x0102
  | .seqCursor => 0x0103
  | .clkTick k => clkAddr k
  | .clkDeadline k => clkAddr k + 1
  | .noteDur i => 0x0110 + 2 * i.val
  | .noteFreq i => 0x0111 + 2 * i.val
  | .synSr => 0x0200
  | .opSr j => 0x0210 + 8 * j.val
  | .opFreq j => 0x0211 + 8 * j.val
  | .opRatio j => 0x0212 + 8 * j.val
  | .opWave j => 0x0213 + 8 * j.val
  | .opPhase j => 0x0214 + 8 * j.val
  | .adsrAttack => 0x0240
  | .adsrDecay => 0x0241
  | .adsrSustain => 0x0242
  | .adsrRelease => 0x0243
  | .adsrValue => 0x0244
  | .adsrLength => 0x0245
  | .adsrDelta => 0x0246
  | .adsrState => 0x0249
  | .fltCutoff => 0x0260
  | .fltQ => 0x0261
  | .fltRes => 0x0262
  | .fltP => 0x0263
  | .fltK => 0x0264
  | .fltPx => 0x0265
  | .fltS m => 0x0266 + m.val
  | .fltPs m => 0x026A + m.val

/-- The word address of a register. -/
def Reg.addr (r : Reg) : Addr := BitVec.ofNat 16 r.addrNat

/-- Every register of the map. -/
def allRegs : List Reg :=
  [.engStatus, .seqTempo, .seqScale, .seqLength, .seqCursor] ++
  ((List.finRange 4).map .clkTick ++ (List.finRange 4).map .clkDeadline) ++
  ((List.finRange 8).map .noteDur ++ (List.finRange 8).map .noteFreq) ++
  [.synSr] ++
  ((List.finRange 3).map .opSr ++ (List.finRange 3).map .opFreq ++ (List.finRange 3).map .opRatio ++
    (List.finRange 3).map .opWave ++ (List.finRange 3).map .opPhase) ++
  [.adsrAttack, .adsrDecay, .adsrSustain, .adsrRelease, .adsrValue, .adsrLength, .adsrDelta,
    .adsrState] ++
  [.fltCutoff, .fltQ, .fltRes, .fltP, .fltK, .fltPx] ++
  ((List.finRange 4).map .fltS ++ (List.finRange 3).map .fltPs)

/-- The register at an address; every other address is unmapped (10_state.md R47). -/
def regAt (a : Addr) : Option Reg := allRegs.find? fun r => r.addr == a

/-- The register as it reads: a narrow one in the low bits, its high bits 0 (10_state.md R45). -/
def Reg.read (r : Reg) (s : State) : Word :=
  match r with
  | .engStatus => Sys2Proof.Machine.engStatus s.ready s.testEn
  | .seqTempo => s.seq.tempo
  | .seqScale => s.seq.scale.setWidth 32
  | .seqLength => s.seq.length.setWidth 32
  | .seqCursor => s.seq.cursor.setWidth 32
  | .clkTick k => (s.clock k).tick
  | .clkDeadline k => (s.clock k).deadline
  | .noteDur i => (s.note i).dur.setWidth 32
  | .noteFreq i => (s.note i).freq
  | .synSr => s.syn.sr
  | .opSr j => (s.oper j).sr
  | .opFreq j => (s.oper j).freq
  | .opRatio j => (s.oper j).ratio
  | .opWave j => (s.oper j).wave.setWidth 32
  | .opPhase j => (s.oper j).phase
  | .adsrAttack => s.syn.adsr.attack
  | .adsrDecay => s.syn.adsr.decay
  | .adsrSustain => s.syn.adsr.sustain
  | .adsrRelease => s.syn.adsr.release
  | .adsrValue => s.syn.adsr.value
  | .adsrLength => s.syn.adsr.length
  | .adsrDelta => s.syn.adsr.delta
  | .adsrState => s.syn.adsr.state.setWidth 32
  | .fltCutoff => s.syn.flt.cutoff
  | .fltQ => s.syn.flt.q
  | .fltRes => s.syn.flt.res
  | .fltP => s.syn.flt.p
  | .fltK => s.syn.flt.k
  | .fltPx => s.syn.flt.px
  | .fltS m => s.syn.flt.s[m]
  | .fltPs m => s.syn.flt.ps[m]

/-- The "legal" column of 10_state.md R46: the values WRREG accepts. -/
def Reg.legal (r : Reg) (v : Word) : Bool :=
  match r with
  | .engStatus => v.toNat < 4
  | .seqScale => v.toNat ≤ 20
  | .seqLength => 1 ≤ v.toNat && v.toNat ≤ 8
  | .seqCursor => v.toNat ≤ 7
  | .noteDur _ => v.toNat ≤ 8
  | .opWave _ => v.toNat ≤ 2
  | .adsrState => v.toNat ≤ 4
  | .seqTempo | .clkTick _ | .clkDeadline _ | .noteFreq _ => true
  | .synSr | .opSr _ | .opFreq _ | .opRatio _ | .opPhase _ => true
  | .adsrAttack | .adsrDecay | .adsrSustain | .adsrRelease => true
  | .adsrValue | .adsrLength | .adsrDelta => true
  | .fltCutoff | .fltQ | .fltRes | .fltP | .fltK | .fltPx | .fltS _ | .fltPs _ => true

/-- Write a register, the low bits for a narrow one; ENG_STATUS bit 1 ignores the write (10_state.md
R46, 48_system.md R187). -/
def Reg.write (r : Reg) (v : Word) (s : State) : State :=
  match r with
  | .engStatus => s.setReady (v.getLsbD 0)
  | .seqTempo => s.setSeq { s.seq with tempo := v }
  | .seqScale => s.setSeq { s.seq with scale := v.setWidth 5 }
  | .seqLength => s.setSeq { s.seq with length := v.setWidth 4 }
  | .seqCursor => s.setSeq { s.seq with cursor := v.setWidth 3 }
  | .clkTick k => s.setClock k { s.clock k with tick := v }
  | .clkDeadline k => s.setClock k { s.clock k with deadline := v }
  | .noteDur i => s.setNote i { s.note i with dur := v.setWidth 4 }
  | .noteFreq i => s.setNote i { s.note i with freq := v }
  | .synSr => s.setSynSr v
  | .opSr j => s.setOper j { s.oper j with sr := v }
  | .opFreq j => s.setOper j { s.oper j with freq := v }
  | .opRatio j => s.setOper j { s.oper j with ratio := v }
  | .opWave j => s.setOper j { s.oper j with wave := v.setWidth 2 }
  | .opPhase j => s.setOper j { s.oper j with phase := v }
  | .adsrAttack => s.setAdsr { s.syn.adsr with attack := v }
  | .adsrDecay => s.setAdsr { s.syn.adsr with decay := v }
  | .adsrSustain => s.setAdsr { s.syn.adsr with sustain := v }
  | .adsrRelease => s.setAdsr { s.syn.adsr with release := v }
  | .adsrValue => s.setAdsr { s.syn.adsr with value := v }
  | .adsrLength => s.setAdsr { s.syn.adsr with length := v }
  | .adsrDelta => s.setAdsr { s.syn.adsr with delta := v }
  | .adsrState => s.setAdsr { s.syn.adsr with state := v.setWidth 3 }
  | .fltCutoff => s.setFlt { s.syn.flt with cutoff := v }
  | .fltQ => s.setFlt { s.syn.flt with q := v }
  | .fltRes => s.setFlt { s.syn.flt with res := v }
  | .fltP => s.setFlt { s.syn.flt with p := v }
  | .fltK => s.setFlt { s.syn.flt with k := v }
  | .fltPx => s.setFlt { s.syn.flt with px := v }
  | .fltS m => s.setFlt { s.syn.flt with s := s.syn.flt.s.set m v }
  | .fltPs m => s.setFlt { s.syn.flt with ps := s.syn.flt.ps.set m v }

end Sys2Proof.Machine
end

