-- ==== Sys2Proof/Machine/System.lean ====
section
/-! DEFINITION. The system operations RNG.SEED, RDREG and WRREG (spec/48_system.md R185 to R187). -/

namespace Sys2Proof.Machine

/-- RNG.SEED as a step, R185: the new state depends on the seed alone. -/
def rngSeed (E : Env) (seed : DWord) : M Unit := updateState (·.setRng (E.rng.seed seed))

namespace Cmd

/-- RNG.SEED: `seed = arg0[63:0]`. -/
def rngSeed (E : Env) : M Answer := do
  let s ← readState
  Machine.rngSeed E s.arg0
  pure Answer.none

/-- RDREG, R186: an unmapped address is a ValueError; no state is written. -/
def rdreg (a : Addr) : M Answer := do
  let s ← readState
  match regAt a with
  | some r => pure (Answer.ofWord (r.read s))
  | none => raise .errValue

/-- WRREG, R187: `value = arg0[31:0]`, `arg0[63:32]` must be 0; an unmapped address, a non-zero upper
half or a value outside the register's legal set is a ValueError, with no state written. -/
def wrreg (a : Addr) : M Answer := do
  let s ← readState
  match regAt a with
  | some r =>
    if s.argHigh = 0 ∧ r.legal s.argLow then do
      updateState (r.write s.argLow)
      pure Answer.none
    else raise .errValue
  | none => raise .errValue

end Cmd

/-- RNG.SEED, 48_system.md R185. -/
def execRngSeed (s : State) : Host.Outcome State Fault Refusal :=
  testCommand (Cmd.rngSeed Config.env) s

/-- RDREG, 48_system.md R186. -/
def execRdreg (a : Addr) (s : State) : Host.Outcome State Fault Refusal :=
  testCommand (Cmd.rdreg a) s

/-- WRREG, 48_system.md R187. -/
def execWrreg (a : Addr) (s : State) : Host.Outcome State Fault Refusal :=
  testCommand (Cmd.wrreg a) s

end Sys2Proof.Machine
end

