-- ==== Sys2Proof/Machine/Ladder.lean ====
section
/-! DEFINITION. The Filter operations (spec/44_filter.md R140, R141). The resonance polynomial [G1] and
the stage equations [G2] are the spec's own completions from general knowledge (log 14). -/

namespace Sys2Proof.Machine

/-! ## Coefficients -/

/-- `c`, the normalised cutoff, R140. -/
def filterC (N : Numerics) (cutoff : F32) (sr : Word) : F32 := fdiv N (fmul N fTwo cutoff) (u2f sr)

/-- `p`, R140. -/
def filterP (N : Numerics) (c : F32) : F32 := fmul N c (fsub N fOnePointEight (fmul N fPointEight c))

/-- `k`, R140. -/
def filterK (N : Numerics) (c : F32) : F32 :=
  fsub N (fmul N fTwo (numSin N (fdiv N (fmul N c fPi) fTwo))) fOne

/-- `t1`, R140. -/
def filterT1 (N : Numerics) (p : F32) : F32 := fmul N (fsub N fOne p) fT1Scale

/-- `t2`, R140 [G1]. -/
def filterT2 (N : Numerics) (t1 : F32) : F32 := fadd N fTwelve (fmul N t1 t1)

/-- `res`, R140 [G1]. -/
def filterRes (N : Numerics) (q t1 t2 : F32) : F32 :=
  fdiv N (fmul N q (fadd N t2 (fmul N fSix t1))) (fsub N t2 (fmul N fSix t1))

/-- The Filter FLT.NEW constructs, R140: the coefficients and a history of zeros. -/
def newFilter (N : Numerics) (cutoff q : F32) (sr : Word) : Filter :=
  let c := filterC N cutoff sr
  let p := filterP N c
  let t1 := filterT1 N p
  { cutoff := cutoff
    q := q
    res := filterRes N q t1 (filterT2 N t1)
    p := p
    k := filterK N c
    px := fZero
    s := #v[fZero, fZero, fZero, fZero]
    ps := #v[fZero, fZero, fZero] }

/-! ## Steps -/

/-- FLT.NEW, R140: two draws, cutoff, then Q. -/
def fltNew (E : Env) (sr : Word) : M Unit := do
  let s ← readState
  let cutoff ← rngF32 E s.cfg.cutoffLo s.cfg.cutoffHi
  let q ← rngF32 E s.cfg.qLo s.cfg.qHi
  updateState (·.setFlt (newFilter E.num cutoff q sr))

/-- One stage of the cascade, R141 [G2]: `(input + previous input) * p - k * own previous output`. -/
def filterStage (N : Numerics) (f : Filter) (input previousInput own : F32) : F32 :=
  fsub N (fadd N (fmul N input f.p) (fmul N previousInput f.p)) (fmul N f.k own)

/-- The feedback-corrected input `x`, R141. -/
def filterX (N : Numerics) (f : Filter) (input : F32) : F32 := fsub N input (fmul N f.res f.s[3])

/-- The Filter after one sample, R141: every right-hand side reads the history as it was before. The
sample it yields is `s[3]`. -/
def filterAfter (N : Numerics) (f : Filter) (input : F32) : Filter :=
  let x := filterX N f input
  let n0 := filterStage N f x f.px f.s[0]
  let n1 := filterStage N f n0 f.ps[0] f.s[1]
  let n2 := filterStage N f n1 f.ps[1] f.s[2]
  let n3 := numTanh N (filterStage N f n2 f.ps[2] f.s[3])
  { f with px := x, ps := #v[n0, n1, n2], s := #v[n0, n1, n2, n3] }

/-- FLT.GEN, R141. -/
def fltGen (E : Env) (input : F32) : M F32 := do
  updateState fun s => s.setFlt (filterAfter E.num s.syn.flt input)
  let s ← readState
  pure s.syn.flt.s[3]

/-! ## Commands (operands and results: 30_encoding.md R85) -/

namespace Cmd

/-- FLT.NEW: `sample_rate = arg1`. -/
def fltNew (E : Env) : M Answer := do
  let s ← readState
  Machine.fltNew E s.arg1
  pure Answer.none

/-- FLT.GEN: `input = arg0[31:0]`, `data[31:0] = output`. -/
def fltGen (E : Env) : M Answer := do
  let s ← readState
  let y ← Machine.fltGen E s.argLow
  pure (Answer.ofWord y)

end Cmd

/-- FLT.NEW, 44_filter.md R140. -/
def execFltNew (s : State) : Host.Outcome State Fault Refusal :=
  testCommand (Cmd.fltNew Config.env) s

/-- FLT.GEN, 44_filter.md R141. -/
def execFltGen (s : State) : Host.Outcome State Fault Refusal :=
  testCommand (Cmd.fltGen Config.env) s

end Sys2Proof.Machine
end

