-- ==== Sys2Proof/Machine/Signal.lean ====
section
/-! DEFINITION. The three waveform functions (spec/41_signal.md R110 to R114): pure functions of the
sample rate, the frequency, the sample index and NUM. -/

namespace Sys2Proof.Machine

/-! ## Steps -/

/-- SIG.SINE, R110. -/
def signalSine (N : Numerics) (sr : Word) (f : F32) (i : Word) : F32 :=
  numSin N (fdiv N (fmul N (fmul N fTau f) (u2f i)) (u2f sr))

/-- SIG.SQUARE, R111; `none` for a zero divisor (U2). -/
def signalSquare (sr : Word) (f : F32) (i : Word) : Option F32 :=
  if sr = 0 ∨ f2u f = 0 then none
  else if (i / sr) % f2u f = 0 then some fOne
  else some fNegOne

/-- SIG.SAW, R112. -/
def signalSaw (N : Numerics) (sr : Word) (f : F32) (i : Word) : F32 :=
  numAtan N (fdiv N fOne (numTan N
    (fdiv N (fmul N (fmul N (fmul N fHalfPi f) fPi) (u2f i)) (u2f sr))))

/-- SIG.SQUARE as a step: a zero divisor is the model-level fault of R111 (60_exceptions.md R207). -/
def sigSquare (sr : Word) (f : F32) (i : Word) : M F32 :=
  match signalSquare sr f i with
  | some y => pure y
  | none => stopWith .squareZeroDivisor

/-- `Signal(wave, sr, f, i)`: the variant `wave` selects (41_signal.md, 10_state.md R42). -/
def signal (E : Env) (wave : WaveKind) (sr : Word) (f : F32) (i : Word) : M F32 :=
  match wave with
  | .sine => pure (signalSine E.num sr f i)
  | .square => sigSquare sr f i
  | .saw => pure (signalSaw E.num sr f i)

/-! ## Commands (operands and results: 30_encoding.md R85) -/

namespace Cmd

/-- SIG.SINE: `frequency = arg0[31:0]`, `sample_index = arg0[63:32]`, `sample_rate = arg1`. -/
def sigSine (E : Env) : M Answer := do
  let s ← readState
  let y ← signal E .sine s.arg1 s.argLow s.argHigh
  pure (Answer.ofWord y)

/-- SIG.SQUARE: operands as SIG.SINE. -/
def sigSquare (E : Env) : M Answer := do
  let s ← readState
  let y ← signal E .square s.arg1 s.argLow s.argHigh
  pure (Answer.ofWord y)

/-- SIG.SAW: operands as SIG.SINE. -/
def sigSaw (E : Env) : M Answer := do
  let s ← readState
  let y ← signal E .saw s.arg1 s.argLow s.argHigh
  pure (Answer.ofWord y)

end Cmd

/-- SIG.SINE, 41_signal.md R110. -/
def execSigSine (s : State) : Host.Outcome State Fault Refusal :=
  testCommand (Cmd.sigSine Config.env) s

/-- SIG.SQUARE, 41_signal.md R111. -/
def execSigSquare (s : State) : Host.Outcome State Fault Refusal :=
  testCommand (Cmd.sigSquare Config.env) s

/-- SIG.SAW, 41_signal.md R112. -/
def execSigSaw (s : State) : Host.Outcome State Fault Refusal :=
  testCommand (Cmd.sigSaw Config.env) s

end Sys2Proof.Machine
end

