-- ==== Sys2Proof/Machine/Operator.lean ====
section
/-! DEFINITION. The Operator operations (spec/42_operator.md R120 to R124). -/

namespace Sys2Proof.Machine

/-! ## Steps -/

/-- The Operator OP.NEW constructs, R120. -/
def newOper (sr : Word) (ratio : F32) (wave : WaveKind) : Oper :=
  { sr := sr, freq := fZero, ratio := ratio, wave := waveCode wave, phase := 0 }

/-- OP.NEW as a step, R120. -/
def opNew (j : Fin 3) (ratio : F32) (wave : WaveKind) (sr : Word) : M Unit :=
  updateState (·.setOper j (newOper sr ratio wave))

/-- `CFG.POOL[k]` for an entry below `CFG.N_POOL` (00_scope.md R11). -/
def poolEntry (c : Cfg) (k : Fin c.nPool.val) : PoolEntry :=
  c.pool[k.val]'(by have := c.nPool.isLt; have := k.isLt; omega)

/-- OP.RANDOM, R121: two draws, the pool entry, then the ratio. -/
def opRandom (E : Env) (j : Fin 3) (sr : Word) : M Unit := do
  let s ← readState
  let k ← rngWeighted E (fun k => (poolEntry s.cfg k).weight)
  let ratio ← rngF32 E (poolEntry s.cfg k).ratioLo (poolEntry s.cfg k).ratioHi
  opNew j ratio (poolEntry s.cfg k).wave sr

/-- OP.SETF, R122: the frequency only (R124). -/
def opSetf (E : Env) (j : Fin 3) (base : F32) : M Unit :=
  updateState fun s => s.setOper j { s.oper j with freq := fmul E.num base (s.oper j).ratio }

/-- OP.NEXT, R123: the counter is advanced first and the advanced value is the sample index. -/
def opNext (E : Env) (j : Fin 3) : M F32 := do
  updateState fun s => s.setOper j { s.oper j with phase := (s.oper j).phase + 1 }
  let s ← readState
  match waveOf (s.oper j).wave with
  | some w => signal E w (s.oper j).sr (s.oper j).freq (s.oper j).phase
  | none => stopWith .reservedWave

/-! ## Commands (operands and results: 30_encoding.md R85) -/

namespace Cmd

/-- OP.NEW: `ratio = arg0[31:0]`, `wave = arg0[33:32]`, `sample_rate = arg1`; `wave = 3` is a
ValueError (60_exceptions.md R204). -/
def opNew (inst : Byte) : M Answer := do
  let j ← selectInst 3 inst
  let s ← readState
  match waveOf s.argWave with
  | some w => do
    Machine.opNew j s.argLow w s.arg1
    pure Answer.none
  | none => raise .errValue

/-- OP.RANDOM: `sample_rate = arg1`. -/
def opRandom (E : Env) (inst : Byte) : M Answer := do
  let j ← selectInst 3 inst
  let s ← readState
  Machine.opRandom E j s.arg1
  pure Answer.none

/-- OP.SETF: `base = arg0[31:0]`. -/
def opSetf (E : Env) (inst : Byte) : M Answer := do
  let j ← selectInst 3 inst
  let s ← readState
  Machine.opSetf E j s.argLow
  pure Answer.none

/-- OP.NEXT: `data[31:0] = amplitude`. -/
def opNext (E : Env) (inst : Byte) : M Answer := do
  let j ← selectInst 3 inst
  let y ← Machine.opNext E j
  pure (Answer.ofWord y)

end Cmd

/-- OP.NEW, 42_operator.md R120. -/
def execOpNew (inst : Byte) (s : State) : Host.Outcome State Fault Refusal :=
  testCommand (Cmd.opNew inst) s

/-- OP.RANDOM, 42_operator.md R121. -/
def execOpRandom (inst : Byte) (s : State) : Host.Outcome State Fault Refusal :=
  testCommand (Cmd.opRandom Config.env inst) s

/-- OP.SETF, 42_operator.md R122. -/
def execOpSetf (inst : Byte) (s : State) : Host.Outcome State Fault Refusal :=
  testCommand (Cmd.opSetf Config.env inst) s

/-- OP.NEXT, 42_operator.md R123. -/
def execOpNext (inst : Byte) (s : State) : Host.Outcome State Fault Refusal :=
  testCommand (Cmd.opNext Config.env inst) s

end Sys2Proof.Machine
end

