-- ==== Sys2Proof/Machine/Voice.lean ====
section
/-! DEFINITION. The Synth operations (spec/46_synth.md R165 to R169). The mutation Clock is `clk[3]`. -/

namespace Sys2Proof.Machine

/-! ## Steps -/

/-- SYN.NEW, R165: eleven draws, in the order of its statements. -/
def synNew (E : Env) (sr : Word) : M Unit := do
  let s ← readState
  updateState (·.setSynSr sr)
  opNew 0 fOne .sine sr
  opRandom E 1 sr
  opRandom E 2 sr
  adsrNew E
  fltNew E sr
  let d ← rngU32 E s.cfg.synMutLo s.cfg.synMutHi
  clkDeadline 3 d

/-- The modulator SYN.MUTATE replaces: `j = 1 + RngIndex(2)`, R168. -/
def modulator (k : Fin 2) : Fin 3 := k.succ

/-- SYN.MUTATE, R168: four draws, which modulator, the Operator's two, the deadline. -/
def synMutate (E : Env) : M Unit := do
  let s ← readState
  let k ← rngIndex E 2
  opRandom E (modulator k) s.syn.sr
  let d ← rngU32 E s.cfg.synMutLo s.cfg.synMutHi
  clkReset 3 d

/-- SYN.PLAY, R166: the mutation Clock is peeked at, not ticked. -/
def synPlay (E : Env) (frequency : F32) (duration : Word) : M Unit := do
  let due ← clkReady 3
  doWhen due (synMutate E)
  opSetf E 0 frequency
  opSetf E 1 frequency
  opSetf E 2 frequency
  adsrStart E duration

/-- The Filter input of SYN.NEXT, R167: `((o0 * o1) * o2) * e`. -/
def voiceInput (N : Numerics) (o0 o1 o2 e : F32) : F32 := fmul N (fmul N (fmul N o0 o1) o2) e

/-- SYN.NEXT, R167: the tick of the mutation Clock is not used. -/
def synNext (E : Env) : M F32 := do
  let _ ← clkTick 3
  let o0 ← opNext E 0
  let o1 ← opNext E 1
  let o2 ← opNext E 2
  let e ← adsrNext E
  fltGen E (voiceInput E.num o0 o1 o2 e)

/-! ## Commands (operands and results: 30_encoding.md R85) -/

namespace Cmd

/-- SYN.NEW: `sample_rate = arg1`. -/
def synNew (E : Env) : M Answer := do
  let s ← readState
  Machine.synNew E s.arg1
  pure Answer.none

/-- SYN.PLAY: `frequency = arg0[31:0]`, `duration = arg0[63:32]`. -/
def synPlay (E : Env) : M Answer := do
  let s ← readState
  Machine.synPlay E s.argLow s.argHigh
  pure Answer.none

/-- SYN.NEXT: `data[31:0] = sample`. -/
def synNext (E : Env) : M Answer := do
  let y ← Machine.synNext E
  pure (Answer.ofWord y)

/-- SYN.MUTATE. -/
def synMutate (E : Env) : M Answer := do
  Machine.synMutate E
  pure Answer.none

end Cmd

/-- SYN.NEW, 46_synth.md R165. -/
def execSynNew (s : State) : Host.Outcome State Fault Refusal :=
  testCommand (Cmd.synNew Config.env) s

/-- SYN.PLAY, 46_synth.md R166. -/
def execSynPlay (s : State) : Host.Outcome State Fault Refusal :=
  testCommand (Cmd.synPlay Config.env) s

/-- SYN.NEXT, 46_synth.md R167. -/
def execSynNext (s : State) : Host.Outcome State Fault Refusal :=
  testCommand (Cmd.synNext Config.env) s

/-- SYN.MUTATE, 46_synth.md R168. -/
def execSynMutate (s : State) : Host.Outcome State Fault Refusal :=
  testCommand (Cmd.synMutate Config.env) s

end Sys2Proof.Machine
end

