-- ==== Sys2Proof/Machine/Engine.lean ====
section
/-! DEFINITION. The Engine operations (spec/47_engine.md R175, R176), legal at both access levels. -/

namespace Sys2Proof.Machine

/-- ENG.NEW as a step, R175: `eng.ready` is cleared first and set last, so a construction that fails
leaves it 0 (60_exceptions.md R205). -/
def engNew (E : Env) (seed : DWord) (sr : Word) : M Unit := do
  updateState (·.setReady false)
  rngSeed E seed
  seqNew E sr
  synNew E sr
  updateState (·.setReady true)

/-- `if ev = Some(ds, f) then call SYN.PLAY(f, ds)`, R176. -/
def playEvent (E : Env) : Option (Word × F32) → M Unit
  | some (ds, f) => synPlay E f ds
  | none => pure ()

/-- ENG.NEXT as a step, R176: the state check, the Sequence, the note if one starts, the sample. -/
def engNext (E : Env) : M F32 := do
  let s ← readState
  if s.ready then do
    let ev ← seqNext E
    playEvent E ev
    synNext E
  else raise .errState

namespace Cmd

/-- ENG.NEW: `seed = arg0[63:0]`, `sample_rate = arg1` (30_encoding.md R85). -/
def engNew (E : Env) : M Answer := do
  let s ← readState
  Machine.engNew E s.arg0 s.arg1
  pure Answer.none

/-- ENG.NEXT: `data[31:0] = sample` (30_encoding.md R85). -/
def engNext (E : Env) : M Answer := do
  let y ← Machine.engNext E
  pure (Answer.ofWord y)

end Cmd

/-- ENG.NEW, 47_engine.md R175. -/
def execEngNew (s : State) : Host.Outcome State Fault Refusal :=
  hostCommand (Cmd.engNew Config.env) s

/-- ENG.NEXT, 47_engine.md R176. -/
def execEngNext (s : State) : Host.Outcome State Fault Refusal :=
  hostCommand (Cmd.engNext Config.env) s

end Sys2Proof.Machine
end

