-- ==== Sys2Proof/Machine/Dispatch.lean ====
section
/-! DEFINITION. The meaning of every operation, one arm per constructor of `Instr`. -/

namespace Sys2Proof.Machine

/-- Perform an operation whose arguments are on the command port (spec/30_encoding.md R80). -/
def exec (i : Instr) (s : State) : Host.Outcome State Fault Refusal :=
  match i with
  | .engNew => Sys2Proof.Machine.execEngNew s
  | .engNext => Sys2Proof.Machine.execEngNext s
  | .clkDeadline inst => Sys2Proof.Machine.execClkDeadline inst s
  | .clkDefault inst => Sys2Proof.Machine.execClkDefault inst s
  | .clkTick inst => Sys2Proof.Machine.execClkTick inst s
  | .clkReady inst => Sys2Proof.Machine.execClkReady inst s
  | .clkReset inst => Sys2Proof.Machine.execClkReset inst s
  | .sigSine => Sys2Proof.Machine.execSigSine s
  | .sigSquare => Sys2Proof.Machine.execSigSquare s
  | .sigSaw => Sys2Proof.Machine.execSigSaw s
  | .opNew inst => Sys2Proof.Machine.execOpNew inst s
  | .opRandom inst => Sys2Proof.Machine.execOpRandom inst s
  | .opSetf inst => Sys2Proof.Machine.execOpSetf inst s
  | .opNext inst => Sys2Proof.Machine.execOpNext inst s
  | .adsrNew => Sys2Proof.Machine.execAdsrNew s
  | .adsrStart => Sys2Proof.Machine.execAdsrStart s
  | .adsrNext => Sys2Proof.Machine.execAdsrNext s
  | .fltNew => Sys2Proof.Machine.execFltNew s
  | .fltGen => Sys2Proof.Machine.execFltGen s
  | .noteNew inst => Sys2Proof.Machine.execNoteNew inst s
  | .noteDefault inst => Sys2Proof.Machine.execNoteDefault inst s
  | .seqNew => Sys2Proof.Machine.execSeqNew s
  | .seqNext => Sys2Proof.Machine.execSeqNext s
  | .seqMutate => Sys2Proof.Machine.execSeqMutate s
  | .synNew => Sys2Proof.Machine.execSynNew s
  | .synPlay => Sys2Proof.Machine.execSynPlay s
  | .synNext => Sys2Proof.Machine.execSynNext s
  | .synMutate => Sys2Proof.Machine.execSynMutate s
  | .rngSeed => Sys2Proof.Machine.execRngSeed s
  | .rdreg a => Sys2Proof.Machine.execRdreg a s
  | .wrreg a => Sys2Proof.Machine.execWrreg a s

end Sys2Proof.Machine
end

