-- ==== Sys2Proof/Machine/Port.lean ====
section
/-! DEFINITION. The command port seen from the host's side (spec/30_encoding.md R80, 20_memory.md R67)
and hardware reset as an event (70_reset_and_hazards.md R230). -/

namespace Sys2Proof.Machine

/-- The next thing the host does; `none` when it does nothing, and CORE then holds its state
(60_exceptions.md R213). -/
def State.nextEvent (s : State) : Option HostEvent := s.pending.head?

/-- The host presents the command `c`: it is no longer pending and its arguments are on the port. -/
def State.present (s : State) (c : Command) : State :=
  { s with pending := s.pending.tail, arg0 := c.arg0, arg1 := c.arg1 }

/-- The host resets the machine with the strap at `strap` (R230). The configuration does not change
(60_exceptions.md R214), nor does what the host will do afterwards. -/
def State.hardReset (s : State) (strap : Bool) : State :=
  { State.resetWith strap s.cfg with pending := s.pending.tail }

/-- The host's next command is the word with the low `nbits` bits of `w`, its arguments 0. -/
def State.pushWord (s : State) (nbits w : Nat) : State :=
  { s with pending := .command ⟨tableWord nbits w, 0, 0⟩ :: s.pending }

end Sys2Proof.Machine
end

