-- ==== Sys2Proof/Machine/Step.lean ====
section
/-! DEFINITION. One step: one whole transaction of the command port, or one hardware reset, or, with
nothing pending, nothing (spec/30_encoding.md R80, 60_exceptions.md R203, R213, 70 R230; log 1). -/

namespace Sys2Proof.Machine

/-- One step. A word that selects no operation answers ERR_ILLEGAL and changes nothing else
(30_encoding.md R87). -/
def step (s : State) : Host.Outcome State Fault Refusal :=
  match s.nextEvent with
  | none => .next s
  | some (.reset strap) => .next (s.hardReset strap)
  | some (.command c) =>
    match decode c.word with
    | .ok i => exec i (s.present c)
    | .error _ => .next ((s.present c).answerError .errIllegal)

/-- `s` with the word of `nbits` bits `w` as the host's next command: there is no program counter and no
fetch (10_state.md R40), so this stands for the host presenting it (log 1). -/
def State.withFetchWord (s : State) (nbits w : Nat) : State := s.pushWord nbits w

end Sys2Proof.Machine
end

