-- ==== Sys2Proof/Safety.lean ====
section
/-! DEFINITION. What counts as a well-formed configuration (spec/70_reset_and_hazards.md R236), a legal
state (10_state.md R46), the invariants of an engine's life (10_state.md R31, 60_exceptions.md R206),
what each operation may write (10_state.md R46, R49), and the responses of a run (47_engine.md R179). -/

namespace Sys2Proof.Machine

/-! ## The opcode table -/

/-- The three formats of 30_encoding.md R81, format I with the size of its row's `inst` range. -/
inductive Format
  | n
  | i (instances : Nat)
  | a
deriving DecidableEq, Repr

/-- A row of 30_encoding.md R83: the opcode, the format, the operation of its fields. -/
structure TableRow where
  opcode : Nat
  format : Format
  operation : Byte → Addr → Instr

/-- The match and mask of a row, 30_encoding.md R84. -/
def TableRow.matches (r : TableRow) (w : Word) : Bool :=
  match r.format with
  | .n => w == BitVec.ofNat 32 (r.opcode * 2 ^ 24)
  | .i instances => (w &&& 0xFF00FFFF) == BitVec.ofNat 32 (r.opcode * 2 ^ 24) &&
      decide (w.toNat / 2 ^ 16 % 2 ^ 8 < instances)
  | .a => (w &&& 0xFFFF0000) == BitVec.ofNat 32 (r.opcode * 2 ^ 24)

/-- The rows of 30_encoding.md R83, in its order. -/
def opcodeTable : List TableRow :=
  [⟨0x01, .n, fun _ _ => .engNew⟩,
   ⟨0x02, .n, fun _ _ => .engNext⟩,
   ⟨0x10, .i 4, fun k _ => .clkDeadline k⟩,
   ⟨0x11, .i 4, fun k _ => .clkDefault k⟩,
   ⟨0x12, .i 4, fun k _ => .clkTick k⟩,
   ⟨0x13, .i 4, fun k _ => .clkReady k⟩,
   ⟨0x14, .i 4, fun k _ => .clkReset k⟩,
   ⟨0x20, .n, fun _ _ => .sigSine⟩,
   ⟨0x21, .n, fun _ _ => .sigSquare⟩,
   ⟨0x22, .n, fun _ _ => .sigSaw⟩,
   ⟨0x30, .i 3, fun k _ => .opNew k⟩,
   ⟨0x31, .i 3, fun k _ => .opRandom k⟩,
   ⟨0x32, .i 3, fun k _ => .opSetf k⟩,
   ⟨0x33, .i 3, fun k _ => .opNext k⟩,
   ⟨0x40, .n, fun _ _ => .adsrNew⟩,
   ⟨0x41, .n, fun _ _ => .adsrStart⟩,
   ⟨0x42, .n, fun _ _ => .adsrNext⟩,
   ⟨0x50, .n, fun _ _ => .fltNew⟩,
   ⟨0x51, .n, fun _ _ => .fltGen⟩,
   ⟨0x60, .i 8, fun k _ => .noteNew k⟩,
   ⟨0x61, .i 8, fun k _ => .noteDefault k⟩,
   ⟨0x62, .n, fun _ _ => .seqNew⟩,
   ⟨0x63, .n, fun _ _ => .seqNext⟩,
   ⟨0x64, .n, fun _ _ => .seqMutate⟩,
   ⟨0x70, .n, fun _ _ => .synNew⟩,
   ⟨0x71, .n, fun _ _ => .synPlay⟩,
   ⟨0x72, .n, fun _ _ => .synNext⟩,
   ⟨0x73, .n, fun _ _ => .synMutate⟩,
   ⟨0x80, .n, fun _ _ => .rngSeed⟩,
   ⟨0xF0, .a, fun _ a => .rdreg a⟩,
   ⟨0xF1, .a, fun _ a => .wrreg a⟩]

/-! ## Configurations -/

/-- A range the binary32 draw is defined on: both bounds finite and `lo < hi` (00_scope.md R12). -/
def floatRange (lo hi : F32) : Prop := flt lo hi = true

/-- `x >= 1.0`, `+inf` included. -/
def atLeastOne (x : F32) : Prop := x = fInf ∨ fle fOne x = true

/-- Finite and greater than 0. -/
def positive (x : F32) : Prop := flt fZero x = true

/-- Finite and at least 0. -/
def nonNegative (x : F32) : Prop := fle fZero x = true

/-- The binary32 `x` is a ratio that the pool entry can draw (42_operator.md R121). -/
def drawable (e : PoolEntry) (x : F32) : Prop := fle e.ratioLo x = true ∧ flt x e.ratioHi = true

/-- A ratio that keeps a Square Operator's divisor non-zero at every scale frequency (70 R236
condition 8, 41_signal.md R111). -/
def squareSafe (c : Cfg) (ratio : F32) : Prop :=
  ∀ (N : Numerics) (a : Fin 21) (b : Fin 8), atLeastOne (fmul N (c.scales[a][b]) ratio)

/-- A well-formed configuration: R236, conditions 1 to 9 (10 is informative; the metre table and the
waveform kinds of conditions 1 and 6 hold by the types of `Cfg`). The sum of condition 4 is exact, in
units of 2^-149. -/
structure CfgWellFormed (c : Cfg) : Prop where
  counts : c.nScales.val = 21 ∧ c.nMetres.val = 5 ∧ c.nPool.val = 5
  weight : ∃ k : Fin 5, (c.pool[k]).weight ≠ 0
  tempo : floatRange c.tempoLo c.tempoHi
  seqMut : c.seqMutLo < c.seqMutHi
  synMut : c.synMutLo < c.synMutHi
  att : floatRange c.attLo c.attHi
  dec : floatRange c.decLo c.decHi
  sus : floatRange c.susLo c.susHi
  rel : floatRange c.relLo c.relHi
  cutoff : floatRange c.cutoffLo c.cutoffHi
  q : floatRange c.qLo c.qHi
  ratios : ∀ k : Fin 5, floatRange (c.pool[k]).ratioLo (c.pool[k]).ratioHi
  tempoPositive : positive c.tempoLo
  fractions : nonNegative c.susLo ∧ fle c.susHi fOne = true ∧
    signedUnits c.attHi + signedUnits c.decHi + signedUnits c.relHi ≤ 2 ^ 149
  ramps : positive c.attLo ∧ positive c.decLo ∧ positive c.relLo
  ratioPositive : ∀ k : Fin 5, positive (c.pool[k]).ratioLo
  scalePositive : ∀ (a : Fin 21) (b : Fin 8), positive (c.scales[a][b])
  square : ∀ k : Fin 5, (c.pool[k]).wave = .square → ∀ x, drawable (c.pool[k]) x → squareSafe c x
  filter : nonNegative c.cutoffLo ∧ nonNegative c.qLo

/-! ## States -/

/-- Every register of the map reads as one of its legal values (10_state.md R46). -/
def RegistersLegal (s : State) : Prop := ∀ r : Reg, r.legal (r.read s) = true

/-- The Sequence's invariant (10_state.md R31). -/
def SequenceInv (s : State) : Prop :=
  s.seq.cursor.toNat < s.seq.length.toNat ∧
  s.seq.length.toNat ∈ [3, 4, 5, 7, 8] ∧
  ∀ i : Fin 8, i.val < s.seq.length.toNat →
    1 ≤ (s.note i).dur.toNat ∧ (s.note i).dur.toNat ≤ s.seq.length.toNat

/-- What SEQ.NEXT does from the tick of the step Clock on (45_note_sequence.md R153), from `u` to `t`:
no event, or the cursor at the next slot, the step Clock rearmed with the Note's samples, the event. -/
def StepClockHalf (u t : State) : Prop :=
  ((u.clock 1).tick + 1 < (u.clock 1).deadline ∧
    t = (u.setClock 1 ⟨(u.clock 1).tick + 1, (u.clock 1).deadline⟩).answer ⟨.ok, false, 0⟩) ∨
  ((u.clock 1).deadline ≤ (u.clock 1).tick + 1 ∧
    ∃ i : Fin 8, i.val = (u.seq.cursor.toNat + 1) % u.seq.length.toNat ∧
      t = ((u.setSeq { u.seq with cursor := BitVec.ofNat 3 i.val }).setClock 1
          ⟨0, (u.note i).dur.setWidth 32 * u.seq.tempo⟩).answer
        ⟨.ok, true, ((u.note i).dur.setWidth 32 * u.seq.tempo) ++ (u.note i).freq⟩)

/-- What SEQ.NEW does to the slots (45_note_sequence.md R152), from `s` to `t`: from slot 0 up, below the
active length as NOTE.NEW would do it, else as NOTE.DEFAULT. -/
def NotesFilled (s t : State) : Prop :=
  ∃ w : Fin 9 → State, w 0 = s ∧ w 8 = t ∧ ∀ i : Fin 8,
    exec (if i.val < s.seq.length.toNat then .noteNew (BitVec.ofNat 8 i.val) else .noteDefault (BitVec.ofNat 8 i.val))
      (w i.castSucc) = .next ((w i.succ).answer ⟨.ok, false, 0⟩)

/-- Every active Note's frequency is one of the 8 entries of the Sequence's scale (10_state.md R22). -/
def NotesInScale (s : State) : Prop :=
  ∀ i : Fin 8, i.val < s.seq.length.toNat → ∃ t : Fin 8, scaleTone s.cfg s.seq.scale t = some (s.note i).freq

/-- The last response has status OK (30_encoding.md R82). -/
def AnsweredOk (s : State) : Prop := ∃ flag data, s.resp = some ⟨.ok, flag, data⟩

/-- The last response is ERR_SELECT, with flag and data 0 (60_exceptions.md R200, R201). -/
def AnsweredSelectFail (s : State) : Prop := s.resp = some ⟨.errSelect, false, 0⟩

/-- Operator `j` can yield a sample: its waveform is legal, and a Square one has no zero divisor
(42_operator.md R123, 41_signal.md R111). -/
def OperatorRuns (s : State) (j : Fin 3) : Prop :=
  (s.oper j).wave ≠ 3 ∧ ((s.oper j).wave = 1 → (s.oper j).sr ≠ 0 ∧ f2u (s.oper j).freq ≠ 0)

/-- What holds of a constructed engine between two samples, under a well-formed configuration: the
grounds of 60_exceptions.md R206. Before the first sample an Operator's frequency is `+0.0`, but then
the step Clock fires on the next call (47_engine.md R177). -/
structure EngineInv (s : State) : Prop where
  ready : s.ready = true
  cfg : CfgWellFormed s.cfg
  sequence : SequenceInv s
  scale : s.seq.scale.toNat ≤ 20
  notes : NotesInScale s
  sr : s.syn.sr ≠ 0
  adsr : s.syn.adsr.state.toNat ≤ 4
  oper : ∀ j, (s.oper j).wave ≠ 3 ∧ (s.oper j).sr ≠ 0 ∧
    ((s.oper j).wave = 1 → squareSafe s.cfg (s.oper j).ratio)
  running : (s.clock 1).fires = true ∨ ∀ j, OperatorRuns s j

/-! ## What an operation may write -/

/-- The registers of the Sequence that SEQ.NEW writes (45_note_sequence.md R152). -/
def writesSequence : Reg → Bool
  | .seqTempo | .seqScale | .seqLength | .seqCursor => true
  | .noteDur _ | .noteFreq _ => true
  | .clkTick k | .clkDeadline k => k = 0 || k = 1
  | _ => false

/-- The registers SEQ.MUTATE writes (45_note_sequence.md R154). -/
def writesMutation : Reg → Bool
  | .noteDur _ | .noteFreq _ => true
  | .clkTick k | .clkDeadline k => k = 0
  | _ => false

/-- The registers SEQ.NEXT writes, itself or through SEQ.MUTATE (45_note_sequence.md R153). -/
def writesSequenceStep : Reg → Bool
  | .seqCursor => true
  | .noteDur _ | .noteFreq _ => true
  | .clkTick k | .clkDeadline k => k = 0 || k = 1
  | _ => false

/-- The registers of Operator `j`. -/
def ofOperator (j : Fin 3) : Reg → Bool
  | .opSr k | .opFreq k | .opRatio k | .opWave k | .opPhase k => k = j
  | _ => false

/-- The registers ADSR.NEW writes (43_adsr.md R130). -/
def writesAdsr : Reg → Bool
  | .adsrAttack | .adsrDecay | .adsrSustain | .adsrRelease => true
  | .adsrValue | .adsrLength | .adsrDelta | .adsrState => true
  | .clkTick k | .clkDeadline k => k = 2
  | _ => false

/-- The registers ADSR.START writes (43_adsr.md R131). -/
def writesAdsrStart : Reg → Bool
  | .adsrValue | .adsrLength | .adsrDelta | .adsrState => true
  | .clkTick k | .clkDeadline k => k = 2
  | _ => false

/-- The registers ADSR.NEXT writes (43_adsr.md R132). -/
def writesAdsrStep : Reg → Bool
  | .adsrValue | .adsrDelta | .adsrState => true
  | .clkTick k | .clkDeadline k => k = 2
  | _ => false

/-- The registers FLT.NEW writes (44_filter.md R140). -/
def writesFilter : Reg → Bool
  | .fltCutoff | .fltQ | .fltRes | .fltP | .fltK | .fltPx | .fltS _ | .fltPs _ => true
  | _ => false

/-- The registers FLT.GEN writes (44_filter.md R141). -/
def writesFilterHistory : Reg → Bool
  | .fltPx | .fltS _ | .fltPs _ => true
  | _ => false

/-- The registers SYN.MUTATE writes (46_synth.md R168): a modulator's and the mutation Clock's. -/
def writesVoiceMutation : Reg → Bool
  | .opSr j | .opFreq j | .opRatio j | .opWave j | .opPhase j => j != 0
  | .clkTick k | .clkDeadline k => k = 3
  | _ => false

/-- The registers SYN.NEW writes (46_synth.md R165). -/
def writesVoice (r : Reg) : Bool :=
  r = .synSr || ofOperator 0 r || ofOperator 1 r || ofOperator 2 r || writesAdsr r || writesFilter r ||
    r = .clkTick 3 || r = .clkDeadline 3

/-- The registers SYN.PLAY writes, itself or through SYN.MUTATE (46_synth.md R166). -/
def writesPlay (r : Reg) : Bool :=
  writesVoiceMutation r || r = .opFreq 0 || writesAdsrStart r

/-- The registers SYN.NEXT writes (46_synth.md R167). -/
def writesVoiceStep (r : Reg) : Bool :=
  r = .clkTick 3 || r = .opPhase 0 || r = .opPhase 1 || r = .opPhase 2 || writesAdsrStep r ||
    writesFilterHistory r

/-- Whether `inst` names the instance `k`. -/
def names {n : Nat} (inst : Byte) (k : Fin n) : Bool := inst.toNat = k.val

/-- The registers an operation may write, itself or through the operations it calls: the "written by"
column of 10_state.md R46 read by operation, and the pseudocode of files 40 to 48. -/
def mayWrite (i : Instr) (r : Reg) : Bool :=
  match i with
  | .engNew => r = .engStatus || writesSequence r || writesVoice r
  | .engNext => writesSequenceStep r || writesPlay r || writesVoiceStep r
  | .clkDeadline inst | .clkDefault inst | .clkReset inst =>
    match r with
    | .clkTick k | .clkDeadline k => names inst k
    | _ => false
  | .clkTick inst =>
    match r with
    | .clkTick k => names inst k
    | _ => false
  | .clkReady _ => false
  | .sigSine | .sigSquare | .sigSaw => false
  | .opNew inst | .opRandom inst =>
    match r with
    | .opSr j | .opFreq j | .opRatio j | .opWave j | .opPhase j => names inst j
    | _ => false
  | .opSetf inst =>
    match r with
    | .opFreq j => names inst j
    | _ => false
  | .opNext inst =>
    match r with
    | .opPhase j => names inst j
    | _ => false
  | .adsrNew => writesAdsr r
  | .adsrStart => writesAdsrStart r
  | .adsrNext => writesAdsrStep r
  | .fltNew => writesFilter r
  | .fltGen => writesFilterHistory r
  | .noteNew inst | .noteDefault inst =>
    match r with
    | .noteDur i | .noteFreq i => names inst i
    | _ => false
  | .seqNew => writesSequence r
  | .seqNext => writesSequenceStep r
  | .seqMutate => writesMutation r
  | .synNew => writesVoice r
  | .synPlay => writesPlay r
  | .synNext => writesVoiceStep r
  | .synMutate => writesVoiceMutation r
  | .rngSeed => false
  | .rdreg _ => false
  | .wrreg a => r.addr = a

/-- The operations that may write `eng.rng` (10_state.md R49): RNG.SEED, ENG.NEW and every operation
that draws (70_reset_and_hazards.md R233). -/
def mayDraw : Instr → Bool
  | .engNew | .engNext => true
  | .clkDeadline _ | .clkDefault _ | .clkTick _ | .clkReady _ | .clkReset _ => false
  | .sigSine | .sigSquare | .sigSaw => false
  | .opRandom _ => true
  | .opNew _ | .opSetf _ | .opNext _ => false
  | .adsrNew => true
  | .adsrStart | .adsrNext => false
  | .fltNew => true
  | .fltGen => false
  | .noteNew _ => true
  | .noteDefault _ => false
  | .seqNew | .seqNext | .seqMutate => true
  | .synNew | .synPlay | .synMutate => true
  | .synNext => false
  | .rngSeed => true
  | .rdreg _ | .wrreg _ => false

/-- What an operation leaves unchanged: every register it may not write, the generator unless it may
write it, the access level, the configuration, what the host will do, the arguments on the port. -/
structure Unchanged (i : Instr) (s t : State) : Prop where
  regs : ∀ r : Reg, mayWrite i r = false → r.read t = r.read s
  rng : mayDraw i = false → t.rng = s.rng
  testEn : t.testEn = s.testEn
  cfg : t.cfg = s.cfg
  pending : t.pending = s.pending
  arg0 : t.arg0 = s.arg0
  arg1 : t.arg1 = s.arg1

/-! ## Runs -/

/-- The responses of `n` steps, up to the first stop. -/
def responses : Nat → State → List (Option Response)
  | 0, _ => []
  | n + 1, s =>
    match step s with
    | .next t => t.resp :: responses n t
    | .fault _ => []
    | .refused _ => []

/-- The flags of `n` CLK.TICK of one Clock, one after the other, up to the first that does not answer OK
(40_clock.md R102). -/
def tickFlags (inst : Byte) : Nat → State → List Bool
  | 0, _ => []
  | n + 1, s =>
    match exec (.clkTick inst) s with
    | .next t =>
      match t.resp with
      | some ⟨.ok, flag, _⟩ => flag :: tickFlags inst n t
      | _ => []
    | _ => []

/-- An engine's life as the host drives it (10_state.md R35): ENG.NEW, then `n` times ENG.NEXT. -/
def engineLife (seed : DWord) (sr : Word) (n : Nat) : List HostEvent :=
  .command ⟨0x01000000, seed, sr⟩ :: List.replicate n (.command ⟨0x02000000, 0, 0⟩)

end Sys2Proof.Machine
end

