-- ==== Sys2Proof/Certificates/Slice0/Obligations.lean ====
section
/-! DEFINITION. The statements for the provers, one `def` each. The numeric functions and the generator
are those of the build, the open constant `Config.env`. -/

open Sys2Proof Sys2Proof.Machine

/-! ## The machine -/

/-- spec/30_encoding.md R80: the operation the word selects is performed with the command's arguments; a
step adds to `exec` only that the command is no longer pending and its arguments are on the port (log 1). -/
def Obligations.StepPerformsTheDecodedCommand : Prop :=
  ∀ (s : State) (c : Command) (rest : List HostEvent) (i : Instr),
    s.pending = .command c :: rest → decode c.word = .ok i →
    step s = exec i { s with pending := rest, arg0 := c.arg0, arg1 := c.arg1 }

/-- spec/30_encoding.md R87: a word that matches no row answers ERR_ILLEGAL and changes no state. -/
def Obligations.StepAnswersIllegalToUnmatchedWords : Prop :=
  ∀ (s : State) (c : Command) (rest : List HostEvent),
    s.pending = .command c :: rest → (∀ r ∈ opcodeTable, r.matches c.word = false) →
    step s = .next ({ s with pending := rest, arg0 := c.arg0, arg1 := c.arg1 }.answer
      ⟨.errIllegal, false, 0⟩)

/-- spec/30_encoding.md R88: at HOST level every word but two answers ERR_ILLEGAL. -/
def Obligations.HostLevelAdmitsTwoWords : Prop :=
  ∀ (s : State) (c : Command) (rest : List HostEvent),
    s.pending = .command c :: rest → s.testEn = false → c.word ≠ 0x01000000 → c.word ≠ 0x02000000 →
    step s = .next ({ s with pending := rest, arg0 := c.arg0, arg1 := c.arg1 }.answer
      ⟨.errIllegal, false, 0⟩)

/-- spec/10_state.md R53, 60_exceptions.md R213, R214, 70 R230: with nothing pending the state is held; a
hardware reset clears `eng.ready`, takes the strap, leaves no response pending and keeps the configuration.
That these are steps, and that the strap of `State.reset` is 1, is the model's choice (logs 1, 2, 8). -/
def Obligations.ResetLeavesNoEngine : Prop :=
  (∀ s : State, s.pending = [] → step s = .next s) ∧
  (∀ (s : State) (strap : Bool) (rest : List HostEvent), s.pending = .reset strap :: rest →
    ∃ t, step s = .next t ∧ t.ready = false ∧ t.testEn = strap ∧ t.resp = none ∧ t.cfg = s.cfg ∧
      t.pending = rest) ∧
  State.reset.ready = false ∧ State.reset.pending = [] ∧ State.reset.resp = none ∧
  State.reset.testEn = true

/-- spec/10_state.md R50, 60_exceptions.md R210, R214: no command changes the access level or the
configuration. -/
def Obligations.CommandsKeepLevelAndConfiguration : Prop :=
  ∀ (s t : State) (c : Command) (rest : List HostEvent),
    s.pending = .command c :: rest → step s = .next t →
    t.testEn = s.testEn ∧ t.cfg = s.cfg ∧ t.pending = rest

/-! ## Answers and stops -/

/-- spec/30_encoding.md R82: the status codes; 5 to 15 are never produced; a response whose status is not
OK has flag 0 and data 0. -/
def Obligations.ResponsesFollowTheStatusTable : Prop :=
  Status.ok.code = 0 ∧ Status.errSelect.code = 1 ∧ Status.errState.code = 2 ∧
  Status.errIllegal.code = 3 ∧ Status.errValue.code = 4 ∧ (∀ e : Status, e.code.toNat < 5) ∧
  ∀ (i : Instr) (s t : State), exec i s = .next t →
    ∃ r, t.resp = some r ∧ (r.status ≠ .ok → r.flag = false ∧ r.data = 0)

/-- spec/60_exceptions.md R205, first sentence: after ERR_STATE, ERR_ILLEGAL and ERR_VALUE the state is
what it was before the command. -/
def Obligations.CheckedErrorsChangeNoState : Prop :=
  ∀ (i : Instr) (s t : State) (r : Response), exec i s = .next t → t.resp = some r →
    r.status = .errState ∨ r.status = .errIllegal ∨ r.status = .errValue →
    t = s.answer ⟨r.status, false, 0⟩

/-- spec/60_exceptions.md R201, R205: a failing draw ends the command at that statement, does not advance
the generator, and the writes and draws before it stand. -/
def Obligations.SelectFailKeepsEarlierWrites : Prop :=
  ∀ s : State, s.testEn = true →
    let E := Config.env
    let poolEmpty := ∀ k : Fin s.cfg.nPool.val, (poolEntry s.cfg k).weight = 0
    let ticked := s.setClock 0 ⟨(s.clock 0).tick + 1, (s.clock 0).deadline⟩
    let drawn := s.setRng (E.rng.index s.rng 2).2
    (poolEmpty → ∀ (inst : Byte), inst.toNat < 3 →
      exec (.opRandom inst) s = .next (s.answer ⟨.errSelect, false, 0⟩)) ∧
    (poolEmpty → exec .synMutate s = .next (drawn.answer ⟨.errSelect, false, 0⟩)) ∧
    (poolEmpty → exec .synNew s = .next (((s.setSynSr s.arg1).setOper 0
      { sr := s.arg1, freq := 0x00000000, ratio := 0x3F800000, wave := 0, phase := 0 }).answer
        ⟨.errSelect, false, 0⟩)) ∧
    (poolEmpty → (s.clock 3).deadline ≤ (s.clock 3).tick →
      exec .synPlay s = .next (drawn.answer ⟨.errSelect, false, 0⟩)) ∧
    (s.seq.length = 1 → exec .seqMutate s = .next (s.answer ⟨.errSelect, false, 0⟩)) ∧
    (s.seq.length = 1 → (s.clock 0).deadline ≤ (s.clock 0).tick + 1 →
      exec .seqNext s = .next (ticked.answer ⟨.errSelect, false, 0⟩) ∧
      (s.ready = true → exec .engNext s = .next (ticked.answer ⟨.errSelect, false, 0⟩))) ∧
    (flt s.cfg.tempoLo s.cfg.tempoHi = true → s.cfg.nScales.val = 0 →
      ∃ bpm u, rngF32 E s.cfg.tempoLo s.cfg.tempoHi s = .ok bpm u ∧
        exec .seqNew s = .next ((u.setSeq { s.seq with
          tempo := f2u (fmul E.num (fdiv E.num fSixty bpm) (u2f s.arg1)) }).answer ⟨.errSelect, false, 0⟩)) ∧
    (flt s.cfg.tempoLo s.cfg.tempoHi = true → 0 < s.cfg.nScales.val → s.cfg.nMetres.val = 0 →
      ∃ bpm u k v, rngF32 E s.cfg.tempoLo s.cfg.tempoHi s = .ok bpm u ∧
        rngIndex E s.cfg.nScales.val u = .ok k v ∧
        exec .seqNew s = .next ((v.setSeq { s.seq with
          tempo := f2u (fmul E.num (fdiv E.num fSixty bpm) (u2f s.arg1))
          scale := BitVec.ofNat 5 k.val }).answer ⟨.errSelect, false, 0⟩)) ∧
    (flt s.cfg.tempoLo s.cfg.tempoHi = true → s.cfg.nScales.val = 0 →
      ∃ t, exec .engNew s = .next t ∧ AnsweredSelectFail t ∧ t.ready = false ∧ t.syn = s.syn ∧ t.clk = s.clk)

/-- spec/60_exceptions.md R200: which operation can answer which error; the fourth clause names the
operations that draw from a pool, and the slot choice of a one-slot Sequence. -/
def Obligations.ErrorsComeFromTheirOperations : Prop :=
  ∀ (i : Instr) (s t : State) (r : Response), i.wellFormed = true → exec i s = .next t → t.resp = some r →
    (r.status = .errState → i = .engNext ∧ s.ready = false) ∧
    (r.status = .errIllegal → s.testEn = false ∧ i.level = .test) ∧
    (r.status = .errValue → (∃ a, i = .rdreg a) ∨ (∃ a, i = .wrreg a) ∨ (∃ k, i = .opNew k)) ∧
    (r.status = .errSelect → i = .engNew ∨ i = .engNext ∨ i = .seqNew ∨ i = .synNew ∨
      (∃ k, i = .opRandom k) ∨ i = .synMutate ∨ i = .synPlay ∨
      ((i = .seqMutate ∨ i = .seqNext) ∧ s.seq.length = 1))

/-- spec/60_exceptions.md R207: every operation has a meaning, and on legal register values and a
well-formed configuration the one unspecified case a step can meet is SIG.SQUARE's zero divisor. -/
def Obligations.OnlySquareStopsOnLegalRegisters : Prop :=
  (∀ (s : State) (r : Refusal), step s ≠ .refused r) ∧
  ∀ (s : State) (f : Fault), RegistersLegal s → CfgWellFormed s.cfg → step s = .fault f →
    f = .squareZeroDivisor

/-- spec/10_state.md R46, 20_memory.md R62: no command takes a register out of its legal set. That a step
which is a hardware reset leaves legal values too is the model's choice (logs 7, 8): the spec promises none
there (93_implementation_defined.md U1). -/
def Obligations.StepKeepsRegistersLegal : Prop :=
  ∀ s t : State, RegistersLegal s → step s = .next t → RegistersLegal t

/-- The values the model gives the registers at reset are legal ones (log 7). -/
def Obligations.ResetRegistersAreLegal : Prop :=
  RegistersLegal State.reset

/-! ## Encoding -/

/-- Words written out from spec/30_encoding.md R84's examples and from R83, one or more of every unit. -/
def Obligations.SampleWordsDecode : Prop :=
  decode 0x02000000 = .ok .engNext ∧ decode 0x12020000 = .ok (.clkTick 2) ∧
  decode 0x33010000 = .ok (.opNext 1) ∧ decode 0x60070000 = .ok (.noteNew 7) ∧
  decode 0xF0000249 = .ok (.rdreg 0x0249) ∧ decode 0x01000000 = .ok .engNew ∧
  decode 0x21000000 = .ok .sigSquare ∧ decode 0x42000000 = .ok .adsrNext ∧
  decode 0x51000000 = .ok .fltGen ∧ decode 0x64000000 = .ok .seqMutate ∧
  decode 0x71000000 = .ok .synPlay ∧ decode 0x80000000 = .ok .rngSeed ∧
  decode 0xF1000249 = .ok (.wrreg 0x0249)

/-- spec/30_encoding.md R83, R84, R86: a word decodes to an operation exactly when it matches the
operation's row by mask and value, the `inst` range included. -/
def Obligations.DecodeFollowsTheOpcodeTable : Prop :=
  ∀ (w : Word) (i : Instr), decode w = .ok i ↔
    ∃ r ∈ opcodeTable, r.matches w = true ∧
      i = r.operation (BitVec.ofNat 8 (w.toNat / 2 ^ 16)) (BitVec.ofNat 16 w.toNat)

/-- Every well-formed operation is read back from its word, whatever its operands. -/
def Obligations.DecodeInvertsEncode : Prop :=
  ∀ i : Instr, i.wellFormed = true → decode (encode i) = .ok i

/-- Every word that decodes is the word of the operation it decodes to: no bit is dropped. -/
def Obligations.EncodeInvertsDecode : Prop :=
  ∀ (w : Word) (i : Instr), decode w = .ok i → i.wellFormed = true ∧ encode i = w

/-! ## The state-register space and the generator -/

/-- spec/10_state.md R46: which register is at which address. -/
def Obligations.RegistersLieAtTheirAddresses : Prop :=
  regAt 0x0000 = some .engStatus ∧ regAt 0x0100 = some .seqTempo ∧ regAt 0x0101 = some .seqScale ∧
  regAt 0x0102 = some .seqLength ∧ regAt 0x0103 = some .seqCursor ∧
  regAt 0x0104 = some (.clkTick 0) ∧ regAt 0x0105 = some (.clkDeadline 0) ∧
  regAt 0x0106 = some (.clkTick 1) ∧ regAt 0x0107 = some (.clkDeadline 1) ∧
  (∀ i : Fin 8, regAt (BitVec.ofNat 16 (0x0110 + 2 * i.val)) = some (.noteDur i) ∧
    regAt (BitVec.ofNat 16 (0x0111 + 2 * i.val)) = some (.noteFreq i)) ∧
  regAt 0x0200 = some .synSr ∧ regAt 0x0201 = some (.clkTick 3) ∧ regAt 0x0202 = some (.clkDeadline 3) ∧
  (∀ j : Fin 3, regAt (BitVec.ofNat 16 (0x0210 + 8 * j.val)) = some (.opSr j) ∧
    regAt (BitVec.ofNat 16 (0x0211 + 8 * j.val)) = some (.opFreq j) ∧
    regAt (BitVec.ofNat 16 (0x0212 + 8 * j.val)) = some (.opRatio j) ∧
    regAt (BitVec.ofNat 16 (0x0213 + 8 * j.val)) = some (.opWave j) ∧
    regAt (BitVec.ofNat 16 (0x0214 + 8 * j.val)) = some (.opPhase j)) ∧
  regAt 0x0240 = some .adsrAttack ∧ regAt 0x0241 = some .adsrDecay ∧ regAt 0x0242 = some .adsrSustain ∧
  regAt 0x0243 = some .adsrRelease ∧ regAt 0x0244 = some .adsrValue ∧ regAt 0x0245 = some .adsrLength ∧
  regAt 0x0246 = some .adsrDelta ∧ regAt 0x0247 = some (.clkTick 2) ∧ regAt 0x0248 = some (.clkDeadline 2) ∧
  regAt 0x0249 = some .adsrState ∧ regAt 0x0260 = some .fltCutoff ∧ regAt 0x0261 = some .fltQ ∧
  regAt 0x0262 = some .fltRes ∧ regAt 0x0263 = some .fltP ∧ regAt 0x0264 = some .fltK ∧
  regAt 0x0265 = some .fltPx ∧
  (∀ m : Fin 4, regAt (BitVec.ofNat 16 (0x0266 + m.val)) = some (.fltS m)) ∧
  ∀ m : Fin 3, regAt (BitVec.ofNat 16 (0x026A + m.val)) = some (.fltPs m)

/-- spec/48_system.md R186, with the "element" column of 10_state.md R46: which element each register reads,
and RDREG of a register's address and of any other. -/
def Obligations.RdregReadsTheMap : Prop :=
  (∀ (r : Reg) (s : State), r.read s =
    match r with
    | .engStatus => (s.testEn.toNat : Word) * 2 + s.ready.toNat
    | .seqTempo => s.seq.tempo
    | .seqScale => s.seq.scale.setWidth 32
    | .seqLength => s.seq.length.setWidth 32
    | .seqCursor => s.seq.cursor.setWidth 32
    | .clkTick k => s.clk[k].tick
    | .clkDeadline k => s.clk[k].deadline
    | .noteDur i => s.seq.note[i].dur.setWidth 32
    | .noteFreq i => s.seq.note[i].freq
    | .synSr => s.syn.sr
    | .opSr j => s.syn.op[j].sr
    | .opFreq j => s.syn.op[j].freq
    | .opRatio j => s.syn.op[j].ratio
    | .opWave j => s.syn.op[j].wave.setWidth 32
    | .opPhase j => s.syn.op[j].phase
    | .adsrAttack => s.syn.adsr.attack
    | .adsrDecay => s.syn.adsr.decay
    | .adsrSustain => s.syn.adsr.sustain
    | .adsrRelease => s.syn.adsr.release
    | .adsrValue => s.syn.adsr.value
    | .adsrLength => s.syn.adsr.length
    | .adsrDelta => s.syn.adsr.delta
    | .adsrState => s.syn.adsr.state.setWidth 32
    | .fltCutoff => s.syn.flt.cutoff
    | .fltQ => s.syn.flt.q
    | .fltRes => s.syn.flt.res
    | .fltP => s.syn.flt.p
    | .fltK => s.syn.flt.k
    | .fltPx => s.syn.flt.px
    | .fltS m => s.syn.flt.s[m]
    | .fltPs m => s.syn.flt.ps[m]) ∧
  (∀ (r : Reg) (s : State), s.testEn = true →
    exec (.rdreg r.addr) s = .next (s.answer ⟨.ok, false, (r.read s).setWidth 64⟩)) ∧
  (∀ (a : Addr) (s : State), s.testEn = true → (∀ r : Reg, r.addr ≠ a) →
    exec (.rdreg a) s = .next (s.answer ⟨.errValue, false, 0⟩)) ∧
  decode 0xF0000249 = .ok (.rdreg Reg.adsrState.addr)

/-- spec/48_system.md R187: the legal sets; a legal write, read back; the three refused writes. -/
def Obligations.WrregWritesOneRegister : Prop :=
  (∀ (r : Reg) (v : Word), r.legal v = true ↔
    match r with
    | .engStatus => v.toNat < 4
    | .seqScale => v.toNat ≤ 20
    | .seqLength => 1 ≤ v.toNat ∧ v.toNat ≤ 8
    | .seqCursor => v.toNat ≤ 7
    | .noteDur _ => v.toNat ≤ 8
    | .opWave _ => v.toNat ≤ 2
    | .adsrState => v.toNat ≤ 4
    | _ => True) ∧
  (∀ (r : Reg) (s : State), s.testEn = true → s.argHigh = 0 → r.legal s.argLow = true →
    ∃ t, exec (.wrreg r.addr) s = .next (t.answer ⟨.ok, false, 0⟩) ∧
      r.read t = (if r = .engStatus then (s.argLow &&& 1) ||| 2 else s.argLow) ∧
      (∀ q : Reg, q ≠ r → q.read t = q.read s) ∧
      t.rng = s.rng ∧ t.testEn = s.testEn ∧ t.cfg = s.cfg ∧ t.pending = s.pending ∧
      t.arg0 = s.arg0 ∧ t.arg1 = s.arg1) ∧
  (∀ (r : Reg) (s : State), s.testEn = true → s.argHigh ≠ 0 ∨ r.legal s.argLow = false →
    exec (.wrreg r.addr) s = .next (s.answer ⟨.errValue, false, 0⟩)) ∧
  (∀ (a : Addr) (s : State), s.testEn = true → (∀ r : Reg, r.addr ≠ a) →
    exec (.wrreg a) s = .next (s.answer ⟨.errValue, false, 0⟩)) ∧
  decode 0xF1000249 = .ok (.wrreg Reg.adsrState.addr)

/-- spec/48_system.md R185. -/
def Obligations.RngSeedDependsOnTheSeedAlone : Prop :=
  decode 0x80000000 = .ok .rngSeed ∧
  ∀ s : State, s.testEn = true →
    exec .rngSeed s = .next ((s.setRng (Config.env.rng.seed s.arg0)).answer ⟨.ok, false, 0⟩)

/-- spec/00_scope.md R13: what may be assumed of NUM, and nothing else is. -/
def Obligations.NumericAnchors : Prop :=
  ∀ N : Numerics, numSin N 0x00000000 = 0x00000000 ∧ numTan N 0x00000000 = 0x00000000 ∧
    numAtan N 0x7F800000 = 0x3FC90FDB ∧ numTanh N 0x00000000 = 0x00000000 ∧
    numTanh N 0x80000000 = 0x80000000 ∧
    ∀ x, isNaN x = false → magBits (numTanh N x) ≤ 0x3F800000

/-! ## Clock -/

/-- spec/40_clock.md R100, R101, R104: CLK.DEADLINE, CLK.DEFAULT and CLK.RESET write both elements. -/
def Obligations.ClockIsArmed : Prop :=
  ∀ (k : Fin 4) (inst : Byte) (s : State), inst.toNat = k.val → s.testEn = true →
    exec (.clkDeadline inst) s = .next ((s.setClock k ⟨0, s.arg1⟩).answer ⟨.ok, false, 0⟩) ∧
    exec (.clkReset inst) s = .next ((s.setClock k ⟨0, s.arg1⟩).answer ⟨.ok, false, 0⟩) ∧
    exec (.clkDefault inst) s = .next ((s.setClock k ⟨0, 0⟩).answer ⟨.ok, false, 0⟩) ∧
    decode (0x10000000 + BitVec.ofNat 32 k.val * 0x10000) = .ok (.clkDeadline inst) ∧
    decode (0x11000000 + BitVec.ofNat 32 k.val * 0x10000) = .ok (.clkDefault inst) ∧
    decode (0x14000000 + BitVec.ofNat 32 k.val * 0x10000) = .ok (.clkReset inst)

/-- spec/40_clock.md R102, R103: CLK.TICK advances modulo 2^32 and tests the new tick; CLK.READY tests
without advancing. -/
def Obligations.ClockTicksAndPeeks : Prop :=
  ∀ (k : Fin 4) (inst : Byte) (s : State), inst.toNat = k.val → s.testEn = true →
    exec (.clkTick inst) s = .next
      ((s.setClock k ⟨BitVec.ofNat 32 (((s.clock k).tick.toNat + 1) % 2 ^ 32), (s.clock k).deadline⟩).answer
        ⟨.ok, decide ((s.clock k).deadline.toNat ≤ ((s.clock k).tick.toNat + 1) % 2 ^ 32), 0⟩) ∧
    exec (.clkReady inst) s = .next
      (s.answer ⟨.ok, decide ((s.clock k).deadline.toNat ≤ (s.clock k).tick.toNat), 0⟩) ∧
    decode (0x12000000 + BitVec.ofNat 32 k.val * 0x10000) = .ok (.clkTick inst) ∧
    decode (0x13000000 + BitVec.ofNat 32 k.val * 0x10000) = .ok (.clkReady inst)

/-- spec/40_clock.md R100 and R102 together: a Clock armed with `d` fires on its `d`-th tick and not
before, one armed with 0 on its first. -/
def Obligations.ArmedClockFiresOnItsDthTick : Prop :=
  ∀ (k : Fin 4) (inst : Byte) (s t : State), inst.toNat = k.val → s.testEn = true →
    exec (.clkDeadline inst) s = .next t →
    tickFlags inst (max s.arg1.toNat 1) t = List.replicate (s.arg1.toNat - 1) false ++ [true]

/-! ## Signal -/

/-- spec/41_signal.md R110, R112: the operands, the order of the roundings, and no state written. -/
def Obligations.SigSineAndSigSawResults : Prop :=
  decode 0x20000000 = .ok .sigSine ∧ decode 0x22000000 = .ok .sigSaw ∧
  ∀ s : State, s.testEn = true →
    let N := Config.env.num
    let f : F32 := s.arg0.setWidth 32
    let i : Word := (s.arg0 >>> 32).setWidth 32
    let a := fdiv N (fmul N (fmul N 0x40C90FDB f) (u2f i)) (u2f s.arg1)
    let b := fdiv N (fmul N (fmul N (fmul N 0x3FC90FDB f) 0x40490FDB) (u2f i)) (u2f s.arg1)
    exec .sigSine s = .next (s.answer ⟨.ok, false, (numSin N a).setWidth 64⟩) ∧
    exec .sigSaw s = .next (s.answer ⟨.ok, false,
      (numAtan N (fdiv N 0x3F800000 (numTan N b))).setWidth 64⟩)

/-- spec/41_signal.md R111: the quotient's remainder by the truncated frequency; a zero divisor is the
unspecified case, a fault. -/
def Obligations.SigSquareResult : Prop :=
  decode 0x21000000 = .ok .sigSquare ∧
  ∀ s : State, s.testEn = true →
    let d := (f2u (s.arg0.setWidth 32)).toNat
    let index := s.arg0.toNat / 2 ^ 32
    (s.arg1 ≠ 0 ∧ d ≠ 0 →
      exec .sigSquare s = .next (s.answer ⟨.ok, false,
        if index / s.arg1.toNat % d = 0 then 0x3F800000 else 0xBF800000⟩)) ∧
    (s.arg1 = 0 ∨ d = 0 → exec .sigSquare s = .fault .squareZeroDivisor)

/-! ## Operator -/

/-- spec/42_operator.md R120: the constructed Operator; `wave = 3` answers ERR_VALUE and writes nothing. -/
def Obligations.OpNewConstructs : Prop :=
  ∀ (j : Fin 3) (inst : Byte) (s : State), inst.toNat = j.val → s.testEn = true →
    (s.argWave ≠ 3 → exec (.opNew inst) s = .next ((s.setOper j
      { sr := s.arg1, freq := 0x00000000, ratio := s.arg0.setWidth 32, wave := s.argWave, phase := 0 }).answer
        ⟨.ok, false, 0⟩)) ∧
    (s.argWave = 3 → exec (.opNew inst) s = .next (s.answer ⟨.errValue, false, 0⟩)) ∧
    decode (0x30000000 + BitVec.ofNat 32 j.val * 0x10000) = .ok (.opNew inst) ∧
    s.argWave = BitVec.ofNat 2 (s.arg0.toNat / 2 ^ 32)

/-- spec/42_operator.md R121: two draws, the pool entry, then the ratio; an empty pool answers ERR_SELECT
with nothing written and nothing drawn. -/
def Obligations.OpRandomDrawsFromThePool : Prop :=
  ∀ (j : Fin 3) (inst : Byte) (s : State), inst.toNat = j.val → s.testEn = true →
    ((∃ k : Fin s.cfg.nPool.val, (poolEntry s.cfg k).weight ≠ 0) →
      (∀ k : Fin s.cfg.nPool.val, flt (poolEntry s.cfg k).ratioLo (poolEntry s.cfg k).ratioHi = true) →
      ∃ k u ratio v,
        rngWeighted Config.env (fun k => (poolEntry s.cfg k).weight) s = .ok k u ∧
        rngF32 Config.env (poolEntry s.cfg k).ratioLo (poolEntry s.cfg k).ratioHi u = .ok ratio v ∧
        (poolEntry s.cfg k).weight ≠ 0 ∧ drawable (poolEntry s.cfg k) ratio ∧
        exec (.opRandom inst) s = .next ((v.setOper j
          { sr := s.arg1, freq := 0x00000000, ratio := ratio
            wave := waveCode (poolEntry s.cfg k).wave, phase := 0 }).answer ⟨.ok, false, 0⟩)) ∧
    ((∀ k : Fin s.cfg.nPool.val, (poolEntry s.cfg k).weight = 0) →
      exec (.opRandom inst) s = .next (s.answer ⟨.errSelect, false, 0⟩)) ∧
    decode (0x31000000 + BitVec.ofNat 32 j.val * 0x10000) = .ok (.opRandom inst)

/-- spec/42_operator.md R122: the frequency is the base times the Operator's ratio, rounded once; the
counter is not touched. -/
def Obligations.OpSetfScalesTheBase : Prop :=
  ∀ (j : Fin 3) (inst : Byte) (s : State), inst.toNat = j.val → s.testEn = true →
    exec (.opSetf inst) s = .next ((s.setOper j { s.oper j with
      freq := fmul Config.env.num (s.arg0.setWidth 32) (s.oper j).ratio }).answer ⟨.ok, false, 0⟩) ∧
    decode (0x32000000 + BitVec.ofNat 32 j.val * 0x10000) = .ok (.opSetf inst)

/-- spec/42_operator.md R123: the counter is advanced first, and the advanced value is the sample index of
the waveform `wave` selects; `wave = 3`, or a Square's zero divisor, is a fault. -/
def Obligations.OpNextAdvancesThenEvaluates : Prop :=
  ∀ (j : Fin 3) (inst : Byte) (s : State), inst.toNat = j.val → s.testEn = true →
    let N := Config.env.num
    let o := s.oper j
    let i := o.phase + 1
    let yields (y : F32) := exec (.opNext inst) s = .next ((s.setOper j { o with phase := i }).answer
      ⟨.ok, false, y.setWidth 64⟩)
    (o.wave = 0 → yields (numSin N (fdiv N (fmul N (fmul N fTau o.freq) (u2f i)) (u2f o.sr)))) ∧
    (o.wave = 1 → o.sr ≠ 0 → f2u o.freq ≠ 0 →
      yields (if i.toNat / o.sr.toNat % (f2u o.freq).toNat = 0 then 0x3F800000 else 0xBF800000)) ∧
    (o.wave = 1 → o.sr = 0 ∨ f2u o.freq = 0 → exec (.opNext inst) s = .fault .squareZeroDivisor) ∧
    (o.wave = 2 → yields (numAtan N (fdiv N fOne (numTan N
      (fdiv N (fmul N (fmul N (fmul N fHalfPi o.freq) fPi) (u2f i)) (u2f o.sr)))))) ∧
    (o.wave = 3 → exec (.opNext inst) s = .fault .reservedWave) ∧
    decode (0x33000000 + BitVec.ofNat 32 j.val * 0x10000) = .ok (.opNext inst)

/-! ## ADSR -/

/-- spec/43_adsr.md R130: four draws in the order attack, decay, sustain, release; Off, zeros, a default
phase Clock. -/
def Obligations.AdsrNewDrawsFourFractions : Prop :=
  decode 0x40000000 = .ok .adsrNew ∧
  ∀ s : State, s.testEn = true → flt s.cfg.attLo s.cfg.attHi = true → flt s.cfg.decLo s.cfg.decHi = true →
    flt s.cfg.susLo s.cfg.susHi = true → flt s.cfg.relLo s.cfg.relHi = true →
    ∃ a s1 d s2 u s3 r s4,
      rngF32 Config.env s.cfg.attLo s.cfg.attHi s = .ok a s1 ∧
      rngF32 Config.env s.cfg.decLo s.cfg.decHi s1 = .ok d s2 ∧
      rngF32 Config.env s.cfg.susLo s.cfg.susHi s2 = .ok u s3 ∧
      rngF32 Config.env s.cfg.relLo s.cfg.relHi s3 = .ok r s4 ∧
      exec .adsrNew s = .next (((s4.setAdsr
        { attack := a, decay := d, sustain := u, release := r, value := 0x00000000, length := 0
          delta := 0x00000000, state := 0 }).setClock 2 ⟨0, 0⟩).answer ⟨.ok, false, 0⟩)

/-- spec/43_adsr.md R131, with the Attack segment of R134. -/
def Obligations.AdsrStartEntersAttack : Prop :=
  decode 0x41000000 = .ok .adsrStart ∧
  ∀ s : State, s.testEn = true →
    let N := Config.env.num
    let g := fmul N (u2f s.arg1) s.syn.adsr.attack
    exec .adsrStart s = .next (((s.setAdsr { s.syn.adsr with
      state := 1, value := 0x00000000, length := s.arg1, delta := fdiv N 0x3F800000 g }).setClock 2
        ⟨0, f2u g⟩).answer ⟨.ok, false, 0⟩)

/-- spec/43_adsr.md R132, with the segments of R134: no transition, and the transition from each state. -/
def Obligations.AdsrNextFollowsItsCaseTable : Prop :=
  decode 0x42000000 = .ok .adsrNext ∧
  ∀ s : State, s.testEn = true →
    let N := Config.env.num
    let a := s.syn.adsr
    let clk : Clock := ⟨(s.clock 2).tick + 1, (s.clock 2).deadline⟩
    let yields (state : BitVec 3) (value delta : F32) (c : Clock) := exec .adsrNext s = .next
      (((s.setAdsr { a with state := state, value := value, delta := delta }).setClock 2 c).answer
        ⟨.ok, false, value.setWidth 64⟩)
    (clk.tick < clk.deadline → yields a.state (fadd N a.value a.delta) a.delta clk) ∧
    (clk.deadline ≤ clk.tick → a.state = 1 →
      let g := fmul N (u2f a.length) a.decay
      let d := fdiv N (fsub N a.sustain a.value) g
      yields 2 (fadd N a.value d) d ⟨0, f2u g⟩) ∧
    (clk.deadline ≤ clk.tick → a.state = 2 →
      let g := fmul N (u2f a.length) (fsub N (fsub N (fsub N fOne a.attack) a.decay) a.release)
      yields 3 (fadd N a.value fZero) fZero ⟨0, f2u g⟩) ∧
    (clk.deadline ≤ clk.tick → a.state = 3 →
      let g := fmul N (u2f a.length) a.release
      let d := fdiv N (fsub N fZero a.value) g
      yields 4 (fadd N a.value d) d ⟨0, f2u g⟩) ∧
    (clk.deadline ≤ clk.tick → a.state = 4 ∨ a.state = 0 → yields 0 fZero fZero clk) ∧
    (clk.deadline ≤ clk.tick → 5 ≤ a.state.toNat → exec .adsrNext s = .fault .reservedAdsrState)

/-- spec/10_state.md R33: the envelope keeps its state or takes the next one in the order; a start sets
Attack from any state (ENG.NEXT starts one when the step Clock fires, and may go on to Decay in the same
sample), a construction sets Off; WRREG forces registers and is left out. -/
def Obligations.EnvelopeOnlyAdvancesForward : Prop :=
  ∀ (i : Instr) (s t : State), (∀ a, i ≠ .wrreg a) → exec i s = .next t →
    t.syn.adsr.state = s.syn.adsr.state ∨
    (s.syn.adsr.state = 1 ∧ t.syn.adsr.state = 2) ∨ (s.syn.adsr.state = 2 ∧ t.syn.adsr.state = 3) ∨
    (s.syn.adsr.state = 3 ∧ t.syn.adsr.state = 4) ∨ (s.syn.adsr.state = 4 ∧ t.syn.adsr.state = 0) ∨
    ((i = .adsrStart ∨ i = .synPlay) ∧ t.syn.adsr.state = 1) ∨
    (i = .engNext ∧ (s.clock 1).fires = true ∧ (t.syn.adsr.state = 1 ∨ t.syn.adsr.state = 2)) ∨
    ((i = .adsrNew ∨ i = .synNew ∨ i = .engNew) ∧ t.syn.adsr.state = 0)

/-! ## Filter -/

/-- spec/44_filter.md section on FLT.NEW: two draws, the coefficients, a history of zeros. The lines for
`t2` and `res` are the spec's own completion from general knowledge (log 14). -/
def Obligations.FltNewDerivesCoefficients : Prop :=
  ∀ s : State, s.testEn = true → flt s.cfg.cutoffLo s.cfg.cutoffHi = true → flt s.cfg.qLo s.cfg.qHi = true →
    let N := Config.env.num
    ∃ cutoff u q v,
      rngF32 Config.env s.cfg.cutoffLo s.cfg.cutoffHi s = .ok cutoff u ∧
      rngF32 Config.env s.cfg.qLo s.cfg.qHi u = .ok q v ∧
      let c := fdiv N (fmul N fTwo cutoff) (u2f s.arg1)
      let p := fmul N c (fsub N 0x3FE66666 (fmul N 0x3F4CCCCD c))
      let t1 := fmul N (fsub N fOne p) 0x3FB1709B
      let t2 := fadd N fTwelve (fmul N t1 t1)
      exec .fltNew s = .next ((v.setFlt
        { cutoff := cutoff, q := q, p := p
          k := fsub N (fmul N fTwo (numSin N (fdiv N (fmul N c fPi) fTwo))) fOne
          res := fdiv N (fmul N q (fadd N t2 (fmul N fSix t1))) (fsub N t2 (fmul N fSix t1))
          px := 0x00000000, s := #v[0x00000000, 0x00000000, 0x00000000, 0x00000000]
          ps := #v[0x00000000, 0x00000000, 0x00000000] }).answer ⟨.ok, false, 0⟩)

/-- spec/44_filter.md section on FLT.GEN: the cascade on the prior history. The stage equations are the
spec's own completion from general knowledge (log 14). -/
def Obligations.FltGenRunsTheCascade : Prop :=
  ∀ s : State, s.testEn = true →
    let N := Config.env.num
    let f := s.syn.flt
    let x := fsub N (s.arg0.setWidth 32) (fmul N f.res f.s[3])
    let n0 := fsub N (fadd N (fmul N x f.p) (fmul N f.px f.p)) (fmul N f.k f.s[0])
    let n1 := fsub N (fadd N (fmul N n0 f.p) (fmul N f.ps[0] f.p)) (fmul N f.k f.s[1])
    let n2 := fsub N (fadd N (fmul N n1 f.p) (fmul N f.ps[1] f.p)) (fmul N f.k f.s[2])
    let n3 := numTanh N (fsub N (fadd N (fmul N n2 f.p) (fmul N f.ps[2] f.p)) (fmul N f.k f.s[3]))
    exec .fltGen s = .next ((s.setFlt { f with px := x, ps := #v[n0, n1, n2], s := #v[n0, n1, n2, n3] }).answer
      ⟨.ok, false, n3.setWidth 64⟩)

/-- spec/44_filter.md: the output is at most 1 in magnitude whenever the argument of the tangent is no NaN,
and the sample of SYN.NEXT and of ENG.NEXT is the Filter's output. -/
def Obligations.SamplesAreBounded : Prop :=
  ∀ (i : Instr) (s t : State), i = .fltGen ∨ i = .synNext ∨ i = .engNext → exec i s = .next t →
    AnsweredOk t →
    ∃ input : F32, t.syn.flt = filterAfter Config.env.num s.syn.flt input ∧
      t.resp = some ⟨.ok, false, t.syn.flt.s[3].setWidth 64⟩ ∧
      (isNaN (filterStage Config.env.num s.syn.flt t.syn.flt.s[2] s.syn.flt.ps[2] s.syn.flt.s[3]) = false →
        magBits t.syn.flt.s[3] ≤ 0x3F800000)

/-! ## Note and Sequence -/

/-- spec/45_note_sequence.md R150, R151: NOTE.NEW draws the duration, then the tone of the Sequence's
scale; NOTE.DEFAULT writes zeros and draws nothing. -/
def Obligations.NotesAreDrawnOrZero : Prop :=
  ∀ (i : Fin 8) (inst : Byte) (s : State), inst.toNat = i.val → s.testEn = true →
    (∀ h : s.seq.scale.toNat < 21, 1 ≤ s.seq.length.toNat →
      ∃ d u t v,
        rngU32 Config.env 1 (BitVec.ofNat 32 (s.seq.length.toNat + 1)) s = .ok d u ∧
        rngIndex Config.env 8 u = .ok t v ∧ 1 ≤ d.toNat ∧ d.toNat ≤ s.seq.length.toNat ∧
        exec (.noteNew inst) s = .next ((v.setNote i
          ⟨BitVec.ofNat 4 d.toNat, (s.cfg.scales[s.seq.scale.toNat]'h)[t]⟩).answer ⟨.ok, false, 0⟩)) ∧
    exec (.noteDefault inst) s = .next ((s.setNote i ⟨0, 0x00000000⟩).answer ⟨.ok, false, 0⟩) ∧
    decode (0x60000000 + BitVec.ofNat 32 i.val * 0x10000) = .ok (.noteNew inst) ∧
    decode (0x61000000 + BitVec.ofNat 32 i.val * 0x10000) = .ok (.noteDefault inst)

/-- spec/45_note_sequence.md R152: the draws in the order tempo, scale, metre, Notes, deadline, and what the
Sequence holds after them. -/
def Obligations.SeqNewConstructsTheSequence : Prop :=
  decode 0x62000000 = .ok .seqNew ∧
  ∀ s : State, s.testEn = true → flt s.cfg.tempoLo s.cfg.tempoHi = true → 0 < s.cfg.nScales.val →
    0 < s.cfg.nMetres.val → s.cfg.seqMutLo < s.cfg.seqMutHi →
    let E := Config.env
    ∃ bpm s1 k s2 m s3 s4 d s5,
      rngF32 E s.cfg.tempoLo s.cfg.tempoHi s = .ok bpm s1 ∧
      rngIndex E s.cfg.nScales.val s1 = .ok k s2 ∧ rngIndex E s.cfg.nMetres.val s2 = .ok m s3 ∧
      NotesFilled (s3.setSeq { s.seq with
        tempo := f2u (fmul E.num (fdiv E.num 0x42700000 bpm) (u2f s.arg1))
        scale := BitVec.ofNat 5 k.val, length := metreAt s.cfg m }) s4 ∧
      rngU32 E s.cfg.seqMutLo s.cfg.seqMutHi s4 = .ok d s5 ∧
      (metreAt s.cfg m).toNat ∈ [3, 4, 5, 7, 8] ∧
      (∀ i : Fin 8, i.val < (metreAt s.cfg m).toNat →
        1 ≤ (s4.note i).dur.toNat ∧ (s4.note i).dur.toNat ≤ (metreAt s.cfg m).toNat ∧
        ∃ tone : Fin 8, scaleTone s.cfg (BitVec.ofNat 5 k.val) tone = some (s4.note i).freq) ∧
      (∀ i : Fin 8, (metreAt s.cfg m).toNat ≤ i.val → s4.note i = ⟨0, 0x00000000⟩) ∧
      exec .seqNew s = .next ((((s5.setSeq { s5.seq with
        cursor := BitVec.ofNat 3 ((metreAt s.cfg m).toNat - 1) }).setClock 0 ⟨0, d⟩).setClock 1 ⟨0, 0⟩).answer
          ⟨.ok, false, 0⟩)

/-- spec/45_note_sequence.md R153: the mutation Clock is ticked first, and a mutation precedes the event;
the step Clock is ticked on every call. -/
def Obligations.SeqNextTicksBothClocks : Prop :=
  decode 0x63000000 = .ok .seqNext ∧
  ∀ s : State, s.testEn = true → 1 ≤ s.seq.length.toNat → s.seq.length.toNat ≤ 8 →
    let c : Clock := ⟨(s.clock 0).tick + 1, (s.clock 0).deadline⟩
    (c.tick < c.deadline → ∃ t, StepClockHalf (s.setClock 0 c) t ∧ exec .seqNext s = .next t) ∧
    (∀ u, c.deadline ≤ c.tick → exec .seqMutate (s.setClock 0 c) = .next u →
      (AnsweredOk u → ∃ t, StepClockHalf u t ∧ exec .seqNext s = .next t) ∧
      (AnsweredSelectFail u → exec .seqNext s = .next u))

/-- spec/45_note_sequence.md R154: four draws, the slot, the Note's two, the deadline; the slot is never the
playing one; with one active slot the draw fails. -/
def Obligations.SeqMutateReplacesAnotherSlot : Prop :=
  decode 0x64000000 = .ok .seqMutate ∧
  ∀ s : State, s.testEn = true →
    (2 ≤ s.seq.length.toNat → s.seq.length.toNat ≤ 8 → s.seq.scale.toNat ≤ 20 →
      s.cfg.seqMutLo < s.cfg.seqMutHi →
      ∃ k u w d v, ∃ slot : Fin 8,
        rngIndex Config.env (s.seq.length.toNat - 1) s = .ok k u ∧
        slot.val = (if s.seq.cursor.toNat ≤ k.val then k.val + 1 else k.val) ∧
        slot.val ≠ s.seq.cursor.toNat ∧ slot.val < s.seq.length.toNat ∧
        exec (.noteNew (BitVec.ofNat 8 slot.val)) u = .next w ∧ AnsweredOk w ∧
        rngU32 Config.env s.cfg.seqMutLo s.cfg.seqMutHi w = .ok d v ∧
        exec .seqMutate s = .next ((v.setClock 0 ⟨0, d⟩).answer ⟨.ok, false, 0⟩)) ∧
    (s.seq.length = 1 → exec .seqMutate s = .next (s.answer ⟨.errSelect, false, 0⟩))

/-- spec/10_state.md R31: ENG.NEW establishes the Sequence's invariant and ENG.NEXT keeps it. -/
def Obligations.SequenceInvariantHoldsOfAnEngine : Prop :=
  (∀ s t : State, exec .engNew s = .next t → AnsweredOk t → SequenceInv t) ∧
  (∀ s t : State, SequenceInv s → exec .engNext s = .next t → SequenceInv t)

/-- spec/10_state.md R32: scale, tempo and length are written by SEQ.NEW only; ENG.NEW calls it, and WRREG
forces registers. -/
def Obligations.ScaleTempoLengthAreFixed : Prop :=
  ∀ (i : Instr) (s t : State), i ≠ .seqNew → i ≠ .engNew → (∀ a, i ≠ .wrreg a) → exec i s = .next t →
    t.seq.scale = s.seq.scale ∧ t.seq.tempo = s.seq.tempo ∧ t.seq.length = s.seq.length

/-! ## Synth -/

/-- spec/46_synth.md R165: the carrier, two random modulators, the ADSR, the Filter, the mutation Clock, in
this order. -/
def Obligations.SynNewConstructsTheVoice : Prop :=
  decode 0x70000000 = .ok .synNew ∧
  ∀ s : State, s.testEn = true → CfgWellFormed s.cfg →
    ∃ s1 s2 s3 s4 d s5,
      exec (.opRandom 1) ((s.setSynSr s.arg1).setOper 0
        { sr := s.arg1, freq := 0x00000000, ratio := 0x3F800000, wave := 0, phase := 0 }) = .next s1 ∧
      AnsweredOk s1 ∧ exec (.opRandom 2) s1 = .next s2 ∧ AnsweredOk s2 ∧
      exec .adsrNew s2 = .next s3 ∧ exec .fltNew s3 = .next s4 ∧
      rngU32 Config.env s.cfg.synMutLo s.cfg.synMutHi s4 = .ok d s5 ∧
      s.cfg.synMutLo ≤ d ∧ d < s.cfg.synMutHi ∧
      exec .synNew s = .next ((s5.setClock 3 ⟨0, d⟩).answer ⟨.ok, false, 0⟩)

/-- spec/46_synth.md R166: a mutation that is due comes first and is not ticked; then the three frequencies
and the start of the envelope. -/
def Obligations.SynPlayStartsANote : Prop :=
  decode 0x71000000 = .ok .synPlay ∧
  ∀ s : State, s.testEn = true →
    let N := Config.env.num
    let f : F32 := s.arg0.setWidth 32
    let length := BitVec.ofNat 32 (s.arg0.toNat / 2 ^ 32)
    let played (u : State) : State :=
      ((((u.setOper 0 { u.oper 0 with freq := fmul N f (u.oper 0).ratio }).setOper 1
        { u.oper 1 with freq := fmul N f (u.oper 1).ratio }).setOper 2
        { u.oper 2 with freq := fmul N f (u.oper 2).ratio }).setAdsr { u.syn.adsr with
          state := 1, value := 0x00000000, length := length
          delta := fdiv N 0x3F800000 (fmul N (u2f length) u.syn.adsr.attack) }).setClock 2
        ⟨0, f2u (fmul N (u2f length) u.syn.adsr.attack)⟩
    ((s.clock 3).tick < (s.clock 3).deadline →
      exec .synPlay s = .next ((played s).answer ⟨.ok, false, 0⟩)) ∧
    (∀ u, (s.clock 3).deadline ≤ (s.clock 3).tick → exec .synMutate s = .next u →
      (AnsweredOk u → exec .synPlay s = .next ((played u).answer ⟨.ok, false, 0⟩)) ∧
      (AnsweredSelectFail u → exec .synPlay s = .next u))

/-- spec/46_synth.md R167: the Clock's tick, the three Operators, the envelope, the product from left to
right, the Filter, each part as its own operation would do it. -/
def Obligations.SynNextComposesOneSample : Prop :=
  decode 0x72000000 = .ok .synNext ∧
  ∀ s : State, s.testEn = true → (∀ j, OperatorRuns s j) → s.syn.adsr.state.toNat ≤ 4 →
    let N := Config.env.num
    ∃ o0 o1 o2 : F32, ∃ a : State,
      (∀ j : Fin 3, exec (.opNext (BitVec.ofNat 8 j.val)) s = .next
        ((s.setOper j { s.oper j with phase := (s.oper j).phase + 1 }).answer
          ⟨.ok, false, (#v[o0, o1, o2][j]).setWidth 64⟩)) ∧
      exec .adsrNext s = .next a ∧
      let x := fmul N (fmul N (fmul N o0 o1) o2) a.syn.adsr.value
      let t := ((((((s.setClock 3 ⟨(s.clock 3).tick + 1, (s.clock 3).deadline⟩).setOper 0
        { s.oper 0 with phase := (s.oper 0).phase + 1 }).setOper 1
        { s.oper 1 with phase := (s.oper 1).phase + 1 }).setOper 2
        { s.oper 2 with phase := (s.oper 2).phase + 1 }).setAdsr a.syn.adsr).setClock 2 (a.clock 2))
      ∃ y, exec .fltGen { t with arg0 := x.setWidth 64 } = .next y ∧
        exec .synNext s = .next { y with arg0 := s.arg0 }

/-- spec/46_synth.md R168: which modulator, its Operator's two draws, the deadline; never the carrier. -/
def Obligations.SynMutateReplacesAModulator : Prop :=
  decode 0x73000000 = .ok .synMutate ∧
  ∀ s : State, s.testEn = true → CfgWellFormed s.cfg →
    ∃ k u w d v, ∃ j : Fin 3,
      rngIndex Config.env 2 s = .ok k u ∧ j.val = 1 + k.val ∧
      exec (.opRandom (BitVec.ofNat 8 j.val)) { u with arg1 := s.syn.sr } = .next w ∧ AnsweredOk w ∧
      rngU32 Config.env s.cfg.synMutLo s.cfg.synMutHi w = .ok d v ∧
      exec .synMutate s = .next (({ v with arg1 := s.arg1 }.setClock 3 ⟨0, d⟩).answer ⟨.ok, false, 0⟩)

/-! ## Engine -/

/-- spec/47_engine.md R175: `eng.ready` cleared, the seed, the Sequence, the Synth, `eng.ready` set; a
construction that fails answers ERR_SELECT and leaves `eng.ready` 0. -/
def Obligations.EngNewRunsItsSteps : Prop :=
  decode 0x01000000 = .ok .engNew ∧
  (∀ s t : State, exec .engNew s = .next t → ¬ AnsweredOk t → AnsweredSelectFail t ∧ t.ready = false) ∧
  ∀ s : State, s.testEn = true → CfgWellFormed s.cfg →
    ∃ s1 s2 s3,
      exec .rngSeed (s.setReady false) = .next s1 ∧ exec .seqNew s1 = .next s2 ∧ AnsweredOk s2 ∧
      exec .synNew s2 = .next s3 ∧ AnsweredOk s3 ∧ s3.ready = false ∧
      exec .engNew s = .next ((s3.setReady true).answer ⟨.ok, false, 0⟩)

/-- spec/47_engine.md R176: the state check, the Sequence, the note if one starts, the sample, each as its
own command would do it, and an error ends the command where it arises. -/
def Obligations.EngNextRunsItsSteps : Prop :=
  decode 0x02000000 = .ok .engNext ∧
  (∀ s : State, s.ready = false → exec .engNext s = .next (s.answer ⟨.errState, false, 0⟩)) ∧
  ∀ s u : State, s.testEn = true → s.ready = true → exec .seqNext s = .next u →
    (u.resp = some ⟨.ok, false, 0⟩ → exec .engNext s = exec .synNext u) ∧
    (∀ data v, u.resp = some ⟨.ok, true, data⟩ → exec .synPlay { u with arg0 := data } = .next v →
      (AnsweredOk v → exec .engNext s = exec .synNext { v with arg0 := s.arg0 }) ∧
      (AnsweredSelectFail v → exec .engNext s = .next { v with arg0 := s.arg0 })) ∧
    (AnsweredSelectFail u → exec .engNext s = .next u)

/-- spec/60_exceptions.md, on R206: for a well-formed configuration and a sample rate that is not 0, ENG.NEW
answers OK at either access level and establishes the engine's invariant. -/
def Obligations.EngNewEstablishesTheInvariant : Prop :=
  ∀ s : State, CfgWellFormed s.cfg → s.arg1 ≠ 0 →
    ∃ t, exec .engNew s = .next t ∧ AnsweredOk t ∧ EngineInv t

/-- spec/60_exceptions.md, on R206: from every state that meets the invariant, at either access level,
ENG.NEXT answers OK, whatever the draws, and keeps the invariant. -/
def Obligations.EngNextIsInfallible : Prop :=
  ∀ s : State, EngineInv s → ∃ t, exec .engNext s = .next t ∧ AnsweredOk t ∧ EngineInv t

/-- spec/47_engine.md, on R177: the first sample after a construction starts slot 0's Note: every Operator's
frequency and the envelope's length are that Note's. -/
def Obligations.FirstSampleStartsTheFirstNote : Prop :=
  ∀ s : State, CfgWellFormed s.cfg → s.arg1 ≠ 0 →
    ∃ t u, exec .engNew s = .next t ∧ AnsweredOk t ∧ exec .engNext t = .next u ∧ AnsweredOk u ∧
      u.seq.cursor = 0 ∧ u.syn.adsr.length = (u.note 0).dur.setWidth 32 * u.seq.tempo ∧
      u.clock 1 = ⟨0, (u.note 0).dur.setWidth 32 * u.seq.tempo⟩ ∧
      ∀ j, (u.oper j).freq = fmul Config.env.num (u.note 0).freq (u.oper j).ratio

/-- spec/47_engine.md R175, on its corner case: ENG.NEW depends on no earlier state; from two states of equal
configuration the same command leaves the same elements and answers the same. It leans on the model's choice
that a NaN's pattern depends on the operation and its operands alone (log 6). -/
def Obligations.EngNewForgetsEarlierState : Prop :=
  ∀ s s' t : State, s.cfg = s'.cfg → s.arg0 = s'.arg0 → s.arg1 = s'.arg1 →
    exec .engNew s = .next t → AnsweredOk t →
    ∃ t', exec .engNew s' = .next t' ∧ t'.ready = t.ready ∧ t'.rng = t.rng ∧ t'.seq = t.seq ∧
      t'.clk = t.clk ∧ t'.syn = t.syn ∧ t'.resp = t.resp

/-- spec/47_engine.md, on R179: the responses of ENG.NEW and `n` ENG.NEXT are a function of the configuration,
the seed, the sample rate and `n`; they do not depend on the state before, nor on the access level. It leans on
the model's choices that a NaN's pattern depends on the operation and its operands alone (log 6) and that the
commands to come stand in `pending` (log 1). -/
def Obligations.EngineRunsAreDeterministic : Prop :=
  ∀ (seed : DWord) (sr : Word) (n : Nat) (s s' : State), s.cfg = s'.cfg →
    s.pending = engineLife seed sr n → s'.pending = engineLife seed sr n →
    responses (n + 1) s = responses (n + 1) s'

/-! ## What an operation leaves unchanged -/

/-- The Clock, Signal and system operations: of the registers, a Clock operation writes its Clock (CLK.TICK
its tick only, CLK.READY none), WRREG the one at its address, the others none; only RNG.SEED writes the
generator (spec/10_state.md R46, R49; files 40, 41, 48). -/
def Obligations.ClockSignalSystemFrames : Prop :=
  ∀ (i : Instr) (s t : State),
    (∃ k, i = .clkDeadline k ∨ i = .clkDefault k ∨ i = .clkTick k ∨ i = .clkReady k ∨ i = .clkReset k) ∨
    (i = .sigSine ∨ i = .sigSquare ∨ i = .sigSaw ∨ i = .rngSeed ∨ ∃ a, i = .rdreg a ∨ i = .wrreg a) →
    exec i s = .next t → Unchanged i s t

/-- The Operator, ADSR and Filter operations: OP.NEW and OP.RANDOM write their Operator, OP.SETF its
frequency, OP.NEXT its counter; ADSR.NEW the ADSR and Clock 2, ADSR.START all of them but the fractions,
ADSR.NEXT the value, delta, state and Clock 2; FLT.NEW the Filter, FLT.GEN its history; OP.RANDOM, ADSR.NEW
and FLT.NEW draw (spec/10_state.md R46, R49; files 42 to 44). -/
def Obligations.OperatorAdsrFilterFrames : Prop :=
  ∀ (i : Instr) (s t : State),
    (∃ k, i = .opNew k ∨ i = .opRandom k ∨ i = .opSetf k ∨ i = .opNext k) ∨
    (i = .adsrNew ∨ i = .adsrStart ∨ i = .adsrNext ∨ i = .fltNew ∨ i = .fltGen) →
    exec i s = .next t → Unchanged i s t

/-- The Note and Sequence operations: NOTE.NEW and NOTE.DEFAULT write their slot; SEQ.NEW the Sequence and
Clocks 0 and 1; SEQ.NEXT the cursor, Notes and both Clocks; SEQ.MUTATE Notes and Clock 0; NOTE.DEFAULT alone
does not draw (spec/10_state.md R46, R49; file 45). -/
def Obligations.NoteSequenceFrames : Prop :=
  ∀ (i : Instr) (s t : State),
    (∃ k, i = .noteNew k ∨ i = .noteDefault k) ∨ (i = .seqNew ∨ i = .seqNext ∨ i = .seqMutate) →
    exec i s = .next t → Unchanged i s t

/-- The Synth and Engine operations: SYN.NEW writes the voice and Clocks 2 and 3; SYN.PLAY the frequencies,
the envelope but for its fractions, Clock 2 and, through SYN.MUTATE, the modulators and Clock 3; SYN.NEXT the
counters, the envelope's value, delta and state, the Filter's history, Clock 2 and the tick of Clock 3;
ENG.NEW everything; ENG.NEXT what SEQ.NEXT, SYN.PLAY and SYN.NEXT write; SYN.NEXT alone does not draw
(spec/10_state.md R46, R49; files 46, 47). -/
def Obligations.SynthEngineFrames : Prop :=
  ∀ (i : Instr) (s t : State),
    (i = .synNew ∨ i = .synPlay ∨ i = .synNext ∨ i = .synMutate ∨ i = .engNew ∨ i = .engNext) →
    exec i s = .next t → Unchanged i s t

/-! ## Binary32 -/

/-- spec/00_scope.md R10, R17, the rounding of every operation: the magnitude pattern of a quotient of `n / d`
units overflows to infinity exactly from half a unit in the last place above the greatest finite value; below
that it is the pattern nearest the quotient, and of two patterns equally near it the one whose fraction is
even. -/
def Obligations.RoundingIsToNearestEven : Prop :=
  ∀ (n d : Nat), 0 < d →
    roundUnits n d ≤ 0x7F800000 ∧
    (roundUnits n d = 0x7F800000 ↔ (2 ^ 25 - 1) * 2 ^ 252 * d ≤ n) ∧
    ∀ m : Nat, roundUnits n d < 0x7F800000 → m < 0x7F800000 → m ≠ roundUnits n d →
      let distance (x : Nat) : Nat := ((units (BitVec.ofNat 32 x) * d : Int) - n).natAbs
      distance (roundUnits n d) < distance m ∨
        (distance (roundUnits n d) = distance m ∧ roundUnits n d % 2 = 0)

/-- spec/00_scope.md R10, R17: what a pattern stands for, in units of 2^-149; `fadd`, `fsub`, `fmul` and `fdiv`
of finite operands are the exact result rounded once, with its sign; which results are a NaN, and the results
for infinities and zero divisors; `u2f` rounds, and is exact below 2^24; `f2u` truncates toward zero and
saturates, the spec's own completion from general knowledge (log 15). A NaN's sign and payload are open
(log 6). -/
def Obligations.ArithmeticRoundsTheExactResult : Prop :=
  (∀ (neg : Bool) (e f : Nat), e < 2 ^ 8 → f < 2 ^ 23 →
    let x := withSign neg (e * 2 ^ 23 + f)
    signBit x = neg ∧ (isNaN x = true ↔ e = 255 ∧ f ≠ 0) ∧ (isInf x = true ↔ e = 255 ∧ f = 0) ∧
    (isFinite x = true ↔ e < 255) ∧ (isZero x = true ↔ e = 0 ∧ f = 0) ∧
    (e < 255 → signedUnits x =
      (if neg then -1 else 1) * if e = 0 then (f : Int) else (2 ^ 23 + f) * 2 ^ (e - 1))) ∧
  (∀ (N : Numerics) (a b : F32), isFinite a = true → isFinite b = true →
    let rounded (neg : Bool) (n d : Nat) : F32 := withSign neg (roundUnits n d)
    let negative : Bool := signBit a != signBit b
    let sum := signedUnits a + signedUnits b
    let difference := signedUnits a - signedUnits b
    (sum ≠ 0 → fadd N a b = rounded (decide (sum < 0)) sum.natAbs 1) ∧
    (sum = 0 → fadd N a b = if signBit a && signBit b then 0x80000000 else 0x00000000) ∧
    (difference ≠ 0 → fsub N a b = rounded (decide (difference < 0)) difference.natAbs 1) ∧
    (difference = 0 → fsub N a b = if signBit a && !signBit b then 0x80000000 else 0x00000000) ∧
    fmul N a b = rounded negative (units a * units b) (2 ^ 149) ∧
    (isZero b = false → fdiv N a b = rounded negative (units a * 2 ^ 149) (units b)) ∧
    (isZero a = false → isZero b = true → fdiv N a b = withSign negative 0x7F800000)) ∧
  (∀ (N : Numerics) (a b : F32),
    let aNaN := isNaN a = true ∨ isNaN b = true
    (isNaN (fadd N a b) = true ↔
      aNaN ∨ (isInf a = true ∧ isInf b = true ∧ signBit a ≠ signBit b)) ∧
    (isNaN (fsub N a b) = true ↔
      aNaN ∨ (isInf a = true ∧ isInf b = true ∧ signBit a = signBit b)) ∧
    (isNaN (fmul N a b) = true ↔
      aNaN ∨ (isInf a = true ∧ isZero b = true) ∨ (isZero a = true ∧ isInf b = true)) ∧
    (isNaN (fdiv N a b) = true ↔
      aNaN ∨ (isInf a = true ∧ isInf b = true) ∨ (isZero a = true ∧ isZero b = true))) ∧
  (∀ (N : Numerics) (a b : F32),
    let negative : Bool := signBit a != signBit b
    (isInf a = true → isFinite b = true → fadd N a b = a ∧ fsub N a b = a ∧ fadd N b a = a ∧
      fsub N b a = withSign (!signBit a) 0x7F800000 ∧ fdiv N a b = withSign negative 0x7F800000 ∧
      fdiv N b a = withSign negative 0) ∧
    (isInf a = true → isInf b = true →
      (signBit a = signBit b → fadd N a b = a) ∧ (signBit a ≠ signBit b → fsub N a b = a)) ∧
    (isInf a = true → isNaN b = false → isZero b = false →
      fmul N a b = withSign negative 0x7F800000 ∧ fmul N b a = withSign negative 0x7F800000)) ∧
  (∀ n : Word, u2f n = withSign false (roundUnits (n.toNat * 2 ^ 149) 1) ∧
    (n.toNat < 2 ^ 24 → signedUnits (u2f n) = n.toNat * 2 ^ 149)) ∧
  (∀ x : F32, (isNaN x = true → f2u x = 0) ∧ (isNaN x = false → signBit x = true → f2u x = 0) ∧
    (isInf x = true → signBit x = false → f2u x = 0xFFFFFFFF) ∧
    (isFinite x = true → signBit x = false →
      (2 ^ 32 * 2 ^ 149 ≤ units x → f2u x = 0xFFFFFFFF) ∧
      (units x < 2 ^ 32 * 2 ^ 149 →
        (f2u x).toNat * 2 ^ 149 ≤ units x ∧ units x < ((f2u x).toNat + 1) * 2 ^ 149)))
end

