-- ==== Sys2Proof/Laws/State.lean ====
section
/-! SUPPORT. One lemma per field and per update of the state: no later proof unfolds an update. -/

namespace Sys2Proof.Machine

/-! ### setReady -/

@[simp] theorem setReady_ready (s : State) (b : Bool) : (s.setReady b).ready = b := rfl
@[simp] theorem setReady_rng (s : State) (b : Bool) : (s.setReady b).rng = s.rng := rfl
@[simp] theorem setReady_seq (s : State) (b : Bool) : (s.setReady b).seq = s.seq := rfl
@[simp] theorem setReady_clk (s : State) (b : Bool) : (s.setReady b).clk = s.clk := rfl
@[simp] theorem setReady_syn (s : State) (b : Bool) : (s.setReady b).syn = s.syn := rfl
@[simp] theorem setReady_testEn (s : State) (b : Bool) : (s.setReady b).testEn = s.testEn := rfl
@[simp] theorem setReady_cfg (s : State) (b : Bool) : (s.setReady b).cfg = s.cfg := rfl
@[simp] theorem setReady_pending (s : State) (b : Bool) : (s.setReady b).pending = s.pending := rfl
@[simp] theorem setReady_arg0 (s : State) (b : Bool) : (s.setReady b).arg0 = s.arg0 := rfl
@[simp] theorem setReady_arg1 (s : State) (b : Bool) : (s.setReady b).arg1 = s.arg1 := rfl
@[simp] theorem setReady_resp (s : State) (b : Bool) : (s.setReady b).resp = s.resp := rfl
@[simp] theorem setReady_clock (s : State) (b : Bool) (k' : Fin 4) : (s.setReady b).clock k' = s.clock k' := rfl
@[simp] theorem setReady_note (s : State) (b : Bool) (i' : Fin 8) : (s.setReady b).note i' = s.note i' := rfl
@[simp] theorem setReady_oper (s : State) (b : Bool) (j' : Fin 3) : (s.setReady b).oper j' = s.oper j' := rfl

/-! ### setRng -/

@[simp] theorem setRng_ready (s : State) (r : RngState) : (s.setRng r).ready = s.ready := rfl
@[simp] theorem setRng_rng (s : State) (r : RngState) : (s.setRng r).rng = r := rfl
@[simp] theorem setRng_seq (s : State) (r : RngState) : (s.setRng r).seq = s.seq := rfl
@[simp] theorem setRng_clk (s : State) (r : RngState) : (s.setRng r).clk = s.clk := rfl
@[simp] theorem setRng_syn (s : State) (r : RngState) : (s.setRng r).syn = s.syn := rfl
@[simp] theorem setRng_testEn (s : State) (r : RngState) : (s.setRng r).testEn = s.testEn := rfl
@[simp] theorem setRng_cfg (s : State) (r : RngState) : (s.setRng r).cfg = s.cfg := rfl
@[simp] theorem setRng_pending (s : State) (r : RngState) : (s.setRng r).pending = s.pending := rfl
@[simp] theorem setRng_arg0 (s : State) (r : RngState) : (s.setRng r).arg0 = s.arg0 := rfl
@[simp] theorem setRng_arg1 (s : State) (r : RngState) : (s.setRng r).arg1 = s.arg1 := rfl
@[simp] theorem setRng_resp (s : State) (r : RngState) : (s.setRng r).resp = s.resp := rfl
@[simp] theorem setRng_clock (s : State) (r : RngState) (k' : Fin 4) : (s.setRng r).clock k' = s.clock k' := rfl
@[simp] theorem setRng_note (s : State) (r : RngState) (i' : Fin 8) : (s.setRng r).note i' = s.note i' := rfl
@[simp] theorem setRng_oper (s : State) (r : RngState) (j' : Fin 3) : (s.setRng r).oper j' = s.oper j' := rfl

/-! ### setClock -/

@[simp] theorem setClock_ready (s : State) (k : Fin 4) (c : Clock) : (s.setClock k c).ready = s.ready := rfl
@[simp] theorem setClock_rng (s : State) (k : Fin 4) (c : Clock) : (s.setClock k c).rng = s.rng := rfl
@[simp] theorem setClock_seq (s : State) (k : Fin 4) (c : Clock) : (s.setClock k c).seq = s.seq := rfl
@[simp] theorem setClock_syn (s : State) (k : Fin 4) (c : Clock) : (s.setClock k c).syn = s.syn := rfl
@[simp] theorem setClock_testEn (s : State) (k : Fin 4) (c : Clock) : (s.setClock k c).testEn = s.testEn := rfl
@[simp] theorem setClock_cfg (s : State) (k : Fin 4) (c : Clock) : (s.setClock k c).cfg = s.cfg := rfl
@[simp] theorem setClock_pending (s : State) (k : Fin 4) (c : Clock) : (s.setClock k c).pending = s.pending := rfl
@[simp] theorem setClock_arg0 (s : State) (k : Fin 4) (c : Clock) : (s.setClock k c).arg0 = s.arg0 := rfl
@[simp] theorem setClock_arg1 (s : State) (k : Fin 4) (c : Clock) : (s.setClock k c).arg1 = s.arg1 := rfl
@[simp] theorem setClock_resp (s : State) (k : Fin 4) (c : Clock) : (s.setClock k c).resp = s.resp := rfl
@[simp] theorem setClock_clock_self (s : State) (k : Fin 4) (c : Clock) : (s.setClock k c).clock k = c := by
  simp [State.clock, State.setClock]
theorem setClock_clock_ne (s : State) (k : Fin 4) (c : Clock) (k' : Fin 4) (h : k ≠ k') :
    (s.setClock k c).clock k' = s.clock k' := by
  have h' : k.val ≠ k'.val := fun e => h (Fin.ext e)
  simp [State.clock, State.setClock, Vector.getElem_set_ne, h']
/-- Writing one instance and reading any. -/
@[simp] theorem setClock_clock (s : State) (k : Fin 4) (c : Clock) (k' : Fin 4) :
    (s.setClock k c).clock k' = if k = k' then c else s.clock k' := by
  by_cases h : k = k'
  · subst h; simp
  · simp [h, setClock_clock_ne]
@[simp] theorem setClock_note (s : State) (k : Fin 4) (c : Clock) (i' : Fin 8) : (s.setClock k c).note i' = s.note i' := rfl
@[simp] theorem setClock_oper (s : State) (k : Fin 4) (c : Clock) (j' : Fin 3) : (s.setClock k c).oper j' = s.oper j' := rfl

/-! ### setSeq -/

@[simp] theorem setSeq_ready (s : State) (q : Seq) : (s.setSeq q).ready = s.ready := rfl
@[simp] theorem setSeq_rng (s : State) (q : Seq) : (s.setSeq q).rng = s.rng := rfl
@[simp] theorem setSeq_seq (s : State) (q : Seq) : (s.setSeq q).seq = q := rfl
@[simp] theorem setSeq_clk (s : State) (q : Seq) : (s.setSeq q).clk = s.clk := rfl
@[simp] theorem setSeq_syn (s : State) (q : Seq) : (s.setSeq q).syn = s.syn := rfl
@[simp] theorem setSeq_testEn (s : State) (q : Seq) : (s.setSeq q).testEn = s.testEn := rfl
@[simp] theorem setSeq_cfg (s : State) (q : Seq) : (s.setSeq q).cfg = s.cfg := rfl
@[simp] theorem setSeq_pending (s : State) (q : Seq) : (s.setSeq q).pending = s.pending := rfl
@[simp] theorem setSeq_arg0 (s : State) (q : Seq) : (s.setSeq q).arg0 = s.arg0 := rfl
@[simp] theorem setSeq_arg1 (s : State) (q : Seq) : (s.setSeq q).arg1 = s.arg1 := rfl
@[simp] theorem setSeq_resp (s : State) (q : Seq) : (s.setSeq q).resp = s.resp := rfl
@[simp] theorem setSeq_clock (s : State) (q : Seq) (k' : Fin 4) : (s.setSeq q).clock k' = s.clock k' := rfl
@[simp] theorem setSeq_note (s : State) (q : Seq) (i' : Fin 8) : (s.setSeq q).note i' = q.note[i'] := rfl
@[simp] theorem setSeq_oper (s : State) (q : Seq) (j' : Fin 3) : (s.setSeq q).oper j' = s.oper j' := rfl

/-! ### setNote -/

@[simp] theorem setNote_ready (s : State) (i : Fin 8) (n : Note) : (s.setNote i n).ready = s.ready := rfl
@[simp] theorem setNote_rng (s : State) (i : Fin 8) (n : Note) : (s.setNote i n).rng = s.rng := rfl
@[simp] theorem setNote_seq_tempo (s : State) (i : Fin 8) (n : Note) : (s.setNote i n).seq.tempo = s.seq.tempo := rfl
@[simp] theorem setNote_seq_scale (s : State) (i : Fin 8) (n : Note) : (s.setNote i n).seq.scale = s.seq.scale := rfl
@[simp] theorem setNote_seq_length (s : State) (i : Fin 8) (n : Note) : (s.setNote i n).seq.length = s.seq.length := rfl
@[simp] theorem setNote_seq_cursor (s : State) (i : Fin 8) (n : Note) : (s.setNote i n).seq.cursor = s.seq.cursor := rfl
@[simp] theorem setNote_clk (s : State) (i : Fin 8) (n : Note) : (s.setNote i n).clk = s.clk := rfl
@[simp] theorem setNote_syn (s : State) (i : Fin 8) (n : Note) : (s.setNote i n).syn = s.syn := rfl
@[simp] theorem setNote_testEn (s : State) (i : Fin 8) (n : Note) : (s.setNote i n).testEn = s.testEn := rfl
@[simp] theorem setNote_cfg (s : State) (i : Fin 8) (n : Note) : (s.setNote i n).cfg = s.cfg := rfl
@[simp] theorem setNote_pending (s : State) (i : Fin 8) (n : Note) : (s.setNote i n).pending = s.pending := rfl
@[simp] theorem setNote_arg0 (s : State) (i : Fin 8) (n : Note) : (s.setNote i n).arg0 = s.arg0 := rfl
@[simp] theorem setNote_arg1 (s : State) (i : Fin 8) (n : Note) : (s.setNote i n).arg1 = s.arg1 := rfl
@[simp] theorem setNote_resp (s : State) (i : Fin 8) (n : Note) : (s.setNote i n).resp = s.resp := rfl
@[simp] theorem setNote_clock (s : State) (i : Fin 8) (n : Note) (k' : Fin 4) : (s.setNote i n).clock k' = s.clock k' := rfl
@[simp] theorem setNote_note_self (s : State) (i : Fin 8) (n : Note) : (s.setNote i n).note i = n := by
  simp [State.note, State.setNote]
theorem setNote_note_ne (s : State) (i : Fin 8) (n : Note) (i' : Fin 8) (h : i ≠ i') :
    (s.setNote i n).note i' = s.note i' := by
  have h' : i.val ≠ i'.val := fun e => h (Fin.ext e)
  simp [State.note, State.setNote, Vector.getElem_set_ne, h']
/-- Writing one instance and reading any. -/
@[simp] theorem setNote_note (s : State) (i : Fin 8) (n : Note) (i' : Fin 8) :
    (s.setNote i n).note i' = if i = i' then n else s.note i' := by
  by_cases h : i = i'
  · subst h; simp
  · simp [h, setNote_note_ne]
@[simp] theorem setNote_oper (s : State) (i : Fin 8) (n : Note) (j' : Fin 3) : (s.setNote i n).oper j' = s.oper j' := rfl

/-! ### setSynSr -/

@[simp] theorem setSynSr_ready (s : State) (r : Word) : (s.setSynSr r).ready = s.ready := rfl
@[simp] theorem setSynSr_rng (s : State) (r : Word) : (s.setSynSr r).rng = s.rng := rfl
@[simp] theorem setSynSr_seq (s : State) (r : Word) : (s.setSynSr r).seq = s.seq := rfl
@[simp] theorem setSynSr_clk (s : State) (r : Word) : (s.setSynSr r).clk = s.clk := rfl
@[simp] theorem setSynSr_syn_sr (s : State) (r : Word) : (s.setSynSr r).syn.sr = r := rfl
@[simp] theorem setSynSr_syn_op (s : State) (r : Word) : (s.setSynSr r).syn.op = s.syn.op := rfl
@[simp] theorem setSynSr_syn_adsr (s : State) (r : Word) : (s.setSynSr r).syn.adsr = s.syn.adsr := rfl
@[simp] theorem setSynSr_syn_flt (s : State) (r : Word) : (s.setSynSr r).syn.flt = s.syn.flt := rfl
@[simp] theorem setSynSr_testEn (s : State) (r : Word) : (s.setSynSr r).testEn = s.testEn := rfl
@[simp] theorem setSynSr_cfg (s : State) (r : Word) : (s.setSynSr r).cfg = s.cfg := rfl
@[simp] theorem setSynSr_pending (s : State) (r : Word) : (s.setSynSr r).pending = s.pending := rfl
@[simp] theorem setSynSr_arg0 (s : State) (r : Word) : (s.setSynSr r).arg0 = s.arg0 := rfl
@[simp] theorem setSynSr_arg1 (s : State) (r : Word) : (s.setSynSr r).arg1 = s.arg1 := rfl
@[simp] theorem setSynSr_resp (s : State) (r : Word) : (s.setSynSr r).resp = s.resp := rfl
@[simp] theorem setSynSr_clock (s : State) (r : Word) (k' : Fin 4) : (s.setSynSr r).clock k' = s.clock k' := rfl
@[simp] theorem setSynSr_note (s : State) (r : Word) (i' : Fin 8) : (s.setSynSr r).note i' = s.note i' := rfl
@[simp] theorem setSynSr_oper (s : State) (r : Word) (j' : Fin 3) : (s.setSynSr r).oper j' = s.oper j' := rfl

/-! ### setOper -/

@[simp] theorem setOper_ready (s : State) (j : Fin 3) (o : Oper) : (s.setOper j o).ready = s.ready := rfl
@[simp] theorem setOper_rng (s : State) (j : Fin 3) (o : Oper) : (s.setOper j o).rng = s.rng := rfl
@[simp] theorem setOper_seq (s : State) (j : Fin 3) (o : Oper) : (s.setOper j o).seq = s.seq := rfl
@[simp] theorem setOper_clk (s : State) (j : Fin 3) (o : Oper) : (s.setOper j o).clk = s.clk := rfl
@[simp] theorem setOper_syn_sr (s : State) (j : Fin 3) (o : Oper) : (s.setOper j o).syn.sr = s.syn.sr := rfl
@[simp] theorem setOper_syn_adsr (s : State) (j : Fin 3) (o : Oper) : (s.setOper j o).syn.adsr = s.syn.adsr := rfl
@[simp] theorem setOper_syn_flt (s : State) (j : Fin 3) (o : Oper) : (s.setOper j o).syn.flt = s.syn.flt := rfl
@[simp] theorem setOper_testEn (s : State) (j : Fin 3) (o : Oper) : (s.setOper j o).testEn = s.testEn := rfl
@[simp] theorem setOper_cfg (s : State) (j : Fin 3) (o : Oper) : (s.setOper j o).cfg = s.cfg := rfl
@[simp] theorem setOper_pending (s : State) (j : Fin 3) (o : Oper) : (s.setOper j o).pending = s.pending := rfl
@[simp] theorem setOper_arg0 (s : State) (j : Fin 3) (o : Oper) : (s.setOper j o).arg0 = s.arg0 := rfl
@[simp] theorem setOper_arg1 (s : State) (j : Fin 3) (o : Oper) : (s.setOper j o).arg1 = s.arg1 := rfl
@[simp] theorem setOper_resp (s : State) (j : Fin 3) (o : Oper) : (s.setOper j o).resp = s.resp := rfl
@[simp] theorem setOper_clock (s : State) (j : Fin 3) (o : Oper) (k' : Fin 4) : (s.setOper j o).clock k' = s.clock k' := rfl
@[simp] theorem setOper_note (s : State) (j : Fin 3) (o : Oper) (i' : Fin 8) : (s.setOper j o).note i' = s.note i' := rfl
@[simp] theorem setOper_oper_self (s : State) (j : Fin 3) (o : Oper) : (s.setOper j o).oper j = o := by
  simp [State.oper, State.setOper]
theorem setOper_oper_ne (s : State) (j : Fin 3) (o : Oper) (j' : Fin 3) (h : j ≠ j') :
    (s.setOper j o).oper j' = s.oper j' := by
  have h' : j.val ≠ j'.val := fun e => h (Fin.ext e)
  simp [State.oper, State.setOper, Vector.getElem_set_ne, h']
/-- Writing one instance and reading any. -/
@[simp] theorem setOper_oper (s : State) (j : Fin 3) (o : Oper) (j' : Fin 3) :
    (s.setOper j o).oper j' = if j = j' then o else s.oper j' := by
  by_cases h : j = j'
  · subst h; simp
  · simp [h, setOper_oper_ne]

/-! ### setAdsr -/

@[simp] theorem setAdsr_ready (s : State) (a : Adsr) : (s.setAdsr a).ready = s.ready := rfl
@[simp] theorem setAdsr_rng (s : State) (a : Adsr) : (s.setAdsr a).rng = s.rng := rfl
@[simp] theorem setAdsr_seq (s : State) (a : Adsr) : (s.setAdsr a).seq = s.seq := rfl
@[simp] theorem setAdsr_clk (s : State) (a : Adsr) : (s.setAdsr a).clk = s.clk := rfl
@[simp] theorem setAdsr_syn_sr (s : State) (a : Adsr) : (s.setAdsr a).syn.sr = s.syn.sr := rfl
@[simp] theorem setAdsr_syn_op (s : State) (a : Adsr) : (s.setAdsr a).syn.op = s.syn.op := rfl
@[simp] theorem setAdsr_syn_adsr (s : State) (a : Adsr) : (s.setAdsr a).syn.adsr = a := rfl
@[simp] theorem setAdsr_syn_flt (s : State) (a : Adsr) : (s.setAdsr a).syn.flt = s.syn.flt := rfl
@[simp] theorem setAdsr_testEn (s : State) (a : Adsr) : (s.setAdsr a).testEn = s.testEn := rfl
@[simp] theorem setAdsr_cfg (s : State) (a : Adsr) : (s.setAdsr a).cfg = s.cfg := rfl
@[simp] theorem setAdsr_pending (s : State) (a : Adsr) : (s.setAdsr a).pending = s.pending := rfl
@[simp] theorem setAdsr_arg0 (s : State) (a : Adsr) : (s.setAdsr a).arg0 = s.arg0 := rfl
@[simp] theorem setAdsr_arg1 (s : State) (a : Adsr) : (s.setAdsr a).arg1 = s.arg1 := rfl
@[simp] theorem setAdsr_resp (s : State) (a : Adsr) : (s.setAdsr a).resp = s.resp := rfl
@[simp] theorem setAdsr_clock (s : State) (a : Adsr) (k' : Fin 4) : (s.setAdsr a).clock k' = s.clock k' := rfl
@[simp] theorem setAdsr_note (s : State) (a : Adsr) (i' : Fin 8) : (s.setAdsr a).note i' = s.note i' := rfl
@[simp] theorem setAdsr_oper (s : State) (a : Adsr) (j' : Fin 3) : (s.setAdsr a).oper j' = s.oper j' := rfl

/-! ### setFlt -/

@[simp] theorem setFlt_ready (s : State) (f : Filter) : (s.setFlt f).ready = s.ready := rfl
@[simp] theorem setFlt_rng (s : State) (f : Filter) : (s.setFlt f).rng = s.rng := rfl
@[simp] theorem setFlt_seq (s : State) (f : Filter) : (s.setFlt f).seq = s.seq := rfl
@[simp] theorem setFlt_clk (s : State) (f : Filter) : (s.setFlt f).clk = s.clk := rfl
@[simp] theorem setFlt_syn_sr (s : State) (f : Filter) : (s.setFlt f).syn.sr = s.syn.sr := rfl
@[simp] theorem setFlt_syn_op (s : State) (f : Filter) : (s.setFlt f).syn.op = s.syn.op := rfl
@[simp] theorem setFlt_syn_adsr (s : State) (f : Filter) : (s.setFlt f).syn.adsr = s.syn.adsr := rfl
@[simp] theorem setFlt_syn_flt (s : State) (f : Filter) : (s.setFlt f).syn.flt = f := rfl
@[simp] theorem setFlt_testEn (s : State) (f : Filter) : (s.setFlt f).testEn = s.testEn := rfl
@[simp] theorem setFlt_cfg (s : State) (f : Filter) : (s.setFlt f).cfg = s.cfg := rfl
@[simp] theorem setFlt_pending (s : State) (f : Filter) : (s.setFlt f).pending = s.pending := rfl
@[simp] theorem setFlt_arg0 (s : State) (f : Filter) : (s.setFlt f).arg0 = s.arg0 := rfl
@[simp] theorem setFlt_arg1 (s : State) (f : Filter) : (s.setFlt f).arg1 = s.arg1 := rfl
@[simp] theorem setFlt_resp (s : State) (f : Filter) : (s.setFlt f).resp = s.resp := rfl
@[simp] theorem setFlt_clock (s : State) (f : Filter) (k' : Fin 4) : (s.setFlt f).clock k' = s.clock k' := rfl
@[simp] theorem setFlt_note (s : State) (f : Filter) (i' : Fin 8) : (s.setFlt f).note i' = s.note i' := rfl
@[simp] theorem setFlt_oper (s : State) (f : Filter) (j' : Fin 3) : (s.setFlt f).oper j' = s.oper j' := rfl

/-! ### answer -/

@[simp] theorem answer_ready (s : State) (r : Response) : (s.answer r).ready = s.ready := rfl
@[simp] theorem answer_rng (s : State) (r : Response) : (s.answer r).rng = s.rng := rfl
@[simp] theorem answer_seq (s : State) (r : Response) : (s.answer r).seq = s.seq := rfl
@[simp] theorem answer_clk (s : State) (r : Response) : (s.answer r).clk = s.clk := rfl
@[simp] theorem answer_syn (s : State) (r : Response) : (s.answer r).syn = s.syn := rfl
@[simp] theorem answer_testEn (s : State) (r : Response) : (s.answer r).testEn = s.testEn := rfl
@[simp] theorem answer_cfg (s : State) (r : Response) : (s.answer r).cfg = s.cfg := rfl
@[simp] theorem answer_pending (s : State) (r : Response) : (s.answer r).pending = s.pending := rfl
@[simp] theorem answer_arg0 (s : State) (r : Response) : (s.answer r).arg0 = s.arg0 := rfl
@[simp] theorem answer_arg1 (s : State) (r : Response) : (s.answer r).arg1 = s.arg1 := rfl
@[simp] theorem answer_resp (s : State) (r : Response) : (s.answer r).resp = some r := rfl
@[simp] theorem answer_clock (s : State) (r : Response) (k' : Fin 4) : (s.answer r).clock k' = s.clock k' := rfl
@[simp] theorem answer_note (s : State) (r : Response) (i' : Fin 8) : (s.answer r).note i' = s.note i' := rfl
@[simp] theorem answer_oper (s : State) (r : Response) (j' : Fin 3) : (s.answer r).oper j' = s.oper j' := rfl

/-! ### present -/

@[simp] theorem present_ready (s : State) (c : Command) : (s.present c).ready = s.ready := rfl
@[simp] theorem present_rng (s : State) (c : Command) : (s.present c).rng = s.rng := rfl
@[simp] theorem present_seq (s : State) (c : Command) : (s.present c).seq = s.seq := rfl
@[simp] theorem present_clk (s : State) (c : Command) : (s.present c).clk = s.clk := rfl
@[simp] theorem present_syn (s : State) (c : Command) : (s.present c).syn = s.syn := rfl
@[simp] theorem present_testEn (s : State) (c : Command) : (s.present c).testEn = s.testEn := rfl
@[simp] theorem present_cfg (s : State) (c : Command) : (s.present c).cfg = s.cfg := rfl
@[simp] theorem present_pending (s : State) (c : Command) : (s.present c).pending = s.pending.tail := rfl
@[simp] theorem present_arg0 (s : State) (c : Command) : (s.present c).arg0 = c.arg0 := rfl
@[simp] theorem present_arg1 (s : State) (c : Command) : (s.present c).arg1 = c.arg1 := rfl
@[simp] theorem present_resp (s : State) (c : Command) : (s.present c).resp = s.resp := rfl
@[simp] theorem present_clock (s : State) (c : Command) (k' : Fin 4) : (s.present c).clock k' = s.clock k' := rfl
@[simp] theorem present_note (s : State) (c : Command) (i' : Fin 8) : (s.present c).note i' = s.note i' := rfl
@[simp] theorem present_oper (s : State) (c : Command) (j' : Fin 3) : (s.present c).oper j' = s.oper j' := rfl

/-! ### Elements by index -/

@[simp] theorem note_seq_note (s : State) (i : Fin 8) : s.seq.note[i] = s.note i := rfl

@[simp] theorem answerError_eq (s : State) (e : Status) : s.answerError e = s.answer ⟨e, false, 0⟩ := rfl

end Sys2Proof.Machine
end

