-- ==== Sys2Proof/Laws/Actions.lean ====
section
/-! SUPPORT. How actions run: the laws of the sequencing of statements, and what the shared operations
over the command port, the instances and the draws can do, each said once. -/

namespace Sys2Proof.Machine

variable {α β : Type}

/-! ### Statements -/

@[simp] theorem pure_run (a : α) (s : State) : (pure a : M α) s = .ok a s := rfl

@[simp] theorem bind_run (x : M α) (f : α → M β) (s : State) :
    (x >>= f) s = match x s with
      | .ok a t => f a t
      | .error e t => .error e t := by
  show EStateM.bind x f s = _
  unfold EStateM.bind
  cases x s <;> rfl

@[simp] theorem map_run (f : α → β) (x : M α) (s : State) :
    (f <$> x) s = match x s with
      | .ok a t => .ok (f a) t
      | .error e t => .error e t := by
  show EStateM.map f x s = _
  unfold EStateM.map
  cases x s <;> rfl

@[simp] theorem readState_run (s : State) : readState s = .ok s s := rfl

@[simp] theorem updateState_run (f : State → State) (s : State) : updateState f s = .ok () (f s) := rfl

@[simp] theorem raise_run (e : Status) (s : State) : (raise e : M α) s = .error (.raise e) s := rfl

@[simp] theorem stopWith_run (f : Fault) (s : State) : (stopWith f : M α) s = .error (.fault f) s := rfl

@[simp] theorem doWhen_true (a : M Unit) : doWhen true a = a := rfl

@[simp] theorem doWhen_false (a : M Unit) : doWhen false a = pure () := rfl

theorem bind_ok {x : M α} {f : α → M β} {s u : State} {a : α} (h : x s = .ok a u) :
    (x >>= f) s = f a u := by
  rw [bind_run, h]

theorem bind_error {x : M α} {f : α → M β} {s u : State} {e : Stop} (h : x s = .error e u) :
    (x >>= f) s = .error e u := by
  rw [bind_run, h]

theorem readState_bind (f : State → M β) (s : State) : (readState >>= f) s = f s s := rfl

theorem updateState_bind (g : State → State) (f : Unit → M β) (s : State) :
    (updateState g >>= f) s = f () (g s) := rfl

/-- A sequence ends normally exactly when both parts do. -/
theorem bind_ok_iff {x : M α} {f : α → M β} {s t : State} {b : β} :
    (x >>= f) s = .ok b t ↔ ∃ a u, x s = .ok a u ∧ f a u = .ok b t := by
  rw [bind_run]
  cases h : x s with
  | ok a u => simp
  | error e u => simp

/-! ### Instances -/

theorem selectInst_run {n : Nat} {inst : Byte} (h : inst.toNat < n) (s : State) :
    selectInst n inst s = .ok ⟨inst.toNat, h⟩ s := by
  simp [selectInst, h]

theorem selectInst_run_out {n : Nat} {inst : Byte} (h : ¬ inst.toNat < n) (s : State) :
    selectInst n inst s = .error (.raise .errIllegal) s := by
  simp [selectInst, h]

/-! ### Commands -/

@[simp] theorem respond_ok (a : Answer) (s : State) :
    respond (.ok a s) = .next (s.answer ⟨.ok, a.flag, a.data⟩) := rfl

@[simp] theorem respond_raise (e : Status) (s : State) :
    respond (.error (.raise e) s) = .next (s.answerError e) := rfl

@[simp] theorem respond_fault (f : Fault) (s : State) :
    respond (.error (.fault f) s) = .fault f := rfl

/-- A TEST-level command at TEST level is its statements. -/
theorem testCommand_test {act : M Answer} {s : State} (h : s.testEn = true) :
    testCommand act s = respond (act s) := by
  simp [testCommand, h]

/-- A TEST-level command at HOST level answers ERR_ILLEGAL and does nothing else. -/
theorem testCommand_host {act : M Answer} {s : State} (h : s.testEn = false) :
    testCommand act s = .next (s.answerError .errIllegal) := by
  simp [testCommand, h]

/-- Everything a command can answer: its statements ended normally, or with an error, and the response
says which. -/
theorem respond_next_iff {r : EStateM.Result Stop State Answer} {t : State} :
    respond r = .next t ↔
      (∃ a u, r = .ok a u ∧ t = u.answer ⟨.ok, a.flag, a.data⟩) ∨
      (∃ e u, r = .error (.raise e) u ∧ t = u.answerError e) := by
  rcases r with ⟨a, u⟩ | ⟨e, u⟩
  · simp [eq_comm]
  · cases e <;> simp [eq_comm]

/-- Everything a TEST-level command can answer. -/
theorem testCommand_next {act : M Answer} {s t : State} (h : testCommand act s = .next t) :
    (s.testEn = false ∧ t = s.answerError .errIllegal) ∨
    (s.testEn = true ∧
      ((∃ a u, act s = .ok a u ∧ t = u.answer ⟨.ok, a.flag, a.data⟩) ∨
       (∃ e u, act s = .error (.raise e) u ∧ t = u.answerError e))) := by
  unfold testCommand at h
  split at h
  · rename_i he
    exact .inr ⟨he, respond_next_iff.mp h⟩
  · rename_i he
    refine .inl ⟨by simpa using he, ?_⟩
    simpa [eq_comm] using h

/-! ### Draws -/

/-- `RngIndex(n)` for `n >= 1`: some index, and a new generator state. -/
theorem rngIndex_run (E : Env) {n : Nat} (h : 0 < n) (s : State) :
    rngIndex E n s = .ok (indexAnswer E.rng s.rng n h) (s.setRng (E.rng.index s.rng n).2) := by
  simp [rngIndex, h]

/-- `RngIndex(0)` raises SelectFail and draws nothing. -/
theorem rngIndex_run_zero (E : Env) (s : State) :
    rngIndex E 0 s = .error (.raise .errSelect) s := rfl

/-- Everything `RngIndex(n)` can do. -/
theorem rngIndex_cases (E : Env) (n : Nat) (s : State) :
    (∃ k r, rngIndex E n s = .ok k (s.setRng r)) ∨
    (n = 0 ∧ rngIndex E n s = .error (.raise .errSelect) s) := by
  by_cases h : 0 < n
  · exact .inl ⟨_, _, rngIndex_run E h s⟩
  · refine .inr ⟨by omega, by simp [rngIndex, h]⟩

/-- A draw of a `u32` lies in its range. -/
theorem u32Answer_mem (r : Rng) (st : RngState) {lo hi : Word} (h : lo < hi) :
    lo ≤ u32Answer r st lo hi ∧ u32Answer r st lo hi < hi := by
  unfold u32Answer
  split
  · assumption
  · exact ⟨BitVec.le_refl lo, h⟩

theorem rngU32_run (E : Env) {lo hi : Word} (h : lo < hi) (s : State) :
    rngU32 E lo hi s = .ok (u32Answer E.rng s.rng lo hi) (s.setRng (E.rng.u32 s.rng lo hi).2) := by
  simp [rngU32, h]

/-- Everything `RngU32(lo, hi)` can do. -/
theorem rngU32_cases (E : Env) (lo hi : Word) (s : State) :
    (∃ v r, lo ≤ v ∧ v < hi ∧ rngU32 E lo hi s = .ok v (s.setRng r)) ∨
    (¬ lo < hi ∧ rngU32 E lo hi s = .error (.fault .drawDomain) s) := by
  by_cases h : lo < hi
  · exact .inl ⟨_, _, (u32Answer_mem _ _ h).1, (u32Answer_mem _ _ h).2, rngU32_run E h s⟩
  · exact .inr ⟨h, by simp [rngU32, h]⟩

theorem fle_refl_of_flt {a b : F32} (h : flt a b = true) : fle a a = true := by
  simp only [flt, fle, Bool.and_eq_true, decide_eq_true_eq] at h ⊢
  exact ⟨⟨h.1.1, h.1.1⟩, le_refl _⟩

/-- A draw of a binary32 lies in its range. -/
theorem f32Answer_mem (r : Rng) (st : RngState) {lo hi : F32} (h : flt lo hi = true) :
    fle lo (f32Answer r st lo hi) = true ∧ flt (f32Answer r st lo hi) hi = true := by
  unfold f32Answer
  split
  · rename_i hv
    simpa using hv
  · exact ⟨fle_refl_of_flt h, h⟩

theorem rngF32_run (E : Env) {lo hi : F32} (h : flt lo hi = true) (s : State) :
    rngF32 E lo hi s = .ok (f32Answer E.rng s.rng lo hi) (s.setRng (E.rng.f32 s.rng lo hi).2) := by
  simp [rngF32, h]

/-- Everything `RngF32(lo, hi)` can do. -/
theorem rngF32_cases (E : Env) (lo hi : F32) (s : State) :
    (∃ v r, fle lo v = true ∧ flt v hi = true ∧ rngF32 E lo hi s = .ok v (s.setRng r)) ∨
    (flt lo hi = false ∧ rngF32 E lo hi s = .error (.fault .drawDomain) s) := by
  cases h : flt lo hi
  · exact .inr ⟨rfl, by simp [rngF32, h]⟩
  · exact .inl ⟨_, _, (f32Answer_mem _ _ h).1, (f32Answer_mem _ _ h).2, rngF32_run E h s⟩

theorem firstWeighted_some {n : Nat} {w : Fin n → Word} {k : Fin n} (h : firstWeighted w = some k) :
    w k ≠ 0 := by
  simpa using List.find?_some h

theorem firstWeighted_none {n : Nat} {w : Fin n → Word} :
    firstWeighted w = none ↔ ∀ k, w k = 0 := by
  simp [firstWeighted, List.find?_eq_none]

/-- A weighted draw picks an entry whose weight is not 0. -/
theorem weightedAnswer_ne_zero {n : Nat} (r : Rng) (st : RngState) {w : Fin n → Word} {k : Fin n}
    (h : w k ≠ 0) : w (weightedAnswer r st w k) ≠ 0 := by
  unfold weightedAnswer
  split
  · split <;> assumption
  · exact h

/-- Everything `RngWeighted(w)` can do. -/
theorem rngWeighted_cases (E : Env) {n : Nat} (w : Fin n → Word) (s : State) :
    (∃ k r, w k ≠ 0 ∧ rngWeighted E w s = .ok k (s.setRng r)) ∨
    ((∀ k, w k = 0) ∧ rngWeighted E w s = .error (.raise .errSelect) s) := by
  cases h : firstWeighted w with
  | some k =>
    refine .inl ⟨weightedAnswer E.rng s.rng w k, (E.rng.weighted s.rng (List.ofFn w)).2,
      weightedAnswer_ne_zero _ _ (firstWeighted_some h), ?_⟩
    simp [rngWeighted, h]
  | none =>
    refine .inr ⟨firstWeighted_none.mp h, ?_⟩
    simp [rngWeighted, h]

end Sys2Proof.Machine
end

