-- ==== Sys2Proof/Laws/Encoding.lean ====
section
/-! SUPPORT. The three fields of a command word (spec/30_encoding.md R81) as arithmetic, what the encoder puts
in them, and which bits the masks of R84 keep. -/

namespace Sys2Proof

/-- Three fields side by side, as a number. -/
theorem fields_toNat (a b : Byte) (c : Addr) :
    (a ++ b ++ c : Word).toNat = a.toNat * 2 ^ 24 + b.toNat * 2 ^ 16 + c.toNat := by
  have h : (a ++ b ++ c : Word).toNat = (a ++ b).toNat <<< 16 ||| c.toNat := BitVec.toNat_append _ _
  rw [h, BitVec.toNat_append, ← Nat.shiftLeft_add_eq_or_of_lt c.isLt, ← Nat.shiftLeft_add_eq_or_of_lt b.isLt]
  simp only [Nat.shiftLeft_eq]
  omega

theorem opcodeField_toNat (w : Word) : (opcodeField w).toNat = w.toNat / 2 ^ 24 := by
  have := w.isLt
  simp [opcodeField, Nat.shiftRight_eq_div_pow]
  omega

theorem instField_toNat (w : Word) : (instField w).toNat = w.toNat / 2 ^ 16 % 2 ^ 8 := by
  simp [instField, Nat.shiftRight_eq_div_pow]

theorem addrField_toNat (w : Word) : (addrField w).toNat = w.toNat % 2 ^ 16 := by
  simp [addrField]

theorem opcodeField_fields (a b : Byte) (c : Addr) : opcodeField (a ++ b ++ c) = a := by
  apply BitVec.eq_of_toNat_eq
  rw [opcodeField_toNat, fields_toNat]
  have := b.isLt
  have := c.isLt
  omega

theorem instField_fields (a b : Byte) (c : Addr) : instField (a ++ b ++ c) = b := by
  apply BitVec.eq_of_toNat_eq
  rw [instField_toNat, fields_toNat]
  have := b.isLt
  have := c.isLt
  omega

theorem addrField_fields (a b : Byte) (c : Addr) : addrField (a ++ b ++ c) = c := by
  apply BitVec.eq_of_toNat_eq
  rw [addrField_toNat, fields_toNat]
  have := b.isLt
  have := c.isLt
  omega

/-- A word is its three fields side by side. -/
theorem word_eq_fields (w : Word) : w = opcodeField w ++ instField w ++ addrField w := by
  apply BitVec.eq_of_toNat_eq
  have := w.isLt
  rw [fields_toNat, opcodeField_toNat, instField_toNat, addrField_toNat]
  omega

/-- The mask of format I keeps the opcode and `addr`. -/
theorem maskI_fields (w : Word) : w &&& 0xFF00FFFF = opcodeField w ++ (0 : Byte) ++ addrField w := by
  conv => lhs; lhs; rw [word_eq_fields w]
  rw [show (0xFF00FFFF : Word) = (0xFF : Byte) ++ (0 : Byte) ++ (0xFFFF : Addr) from rfl]
  erw [BitVec.and_append, BitVec.and_append]
  simp
  congr 1
  · congr 1
    · exact BitVec.and_allOnes
  · exact BitVec.and_allOnes

/-- The mask of format A keeps the opcode and `inst`. -/
theorem maskA_fields (w : Word) : w &&& 0xFFFF0000 = opcodeField w ++ instField w ++ (0 : Addr) := by
  conv => lhs; lhs; rw [word_eq_fields w]
  rw [show (0xFFFF0000 : Word) = (0xFF : Byte) ++ (0xFF : Byte) ++ (0 : Addr) from rfl]
  erw [BitVec.and_append, BitVec.and_append]
  simp
  rw [show (255#8) = BitVec.allOnes 8 from rfl, BitVec.and_allOnes, BitVec.and_allOnes]

end Sys2Proof
end

