-- ==== Sys2Proof/Laws/Steps.lean ====
section
/-! SUPPORT. What each step of the operations does, said once: the steps without a draw by an equation, the
steps that draw by the cases they can end in. -/

namespace Sys2Proof.Machine

/-! ### Clock -/

@[simp] theorem clkDeadline_run (k : Fin 4) (d : Word) (s : State) :
    clkDeadline k d s = .ok () (s.setClock k ⟨0, d⟩) := rfl

@[simp] theorem clkReset_run (k : Fin 4) (d : Word) (s : State) :
    clkReset k d s = .ok () (s.setClock k ⟨0, d⟩) := rfl

@[simp] theorem clkDefault_run (k : Fin 4) (s : State) :
    clkDefault k s = .ok () (s.setClock k ⟨0, 0⟩) := rfl

@[simp] theorem clkTick_run (k : Fin 4) (s : State) :
    clkTick k s = .ok (s.clock k).ticked.isReady (s.setClock k (s.clock k).ticked) := by
  simp [clkTick]

@[simp] theorem clkReady_run (k : Fin 4) (s : State) : clkReady k s = .ok (s.clock k).isReady s := by
  simp [clkReady]

theorem isReady_iff (c : Clock) : c.isReady = true ↔ c.deadline ≤ c.tick := by
  simp [Clock.isReady]

/-! ### Signal and Operator -/

theorem signalSquare_eq_none {sr : Word} {f : F32} {i : Word} :
    signalSquare sr f i = none ↔ sr = 0 ∨ f2u f = 0 := by
  unfold signalSquare
  split
  · simpa
  · rename_i h
    split <;> simpa using h

/-- Everything a waveform can do: a sample, or the zero divisor's fault. -/
theorem signal_cases (E : Env) (w : WaveKind) (sr : Word) (f : F32) (i : Word) (s : State) :
    (∃ y, signal E w sr f i s = .ok y s) ∨
    (w = .square ∧ (sr = 0 ∨ f2u f = 0) ∧ signal E w sr f i s = .error (.fault .squareZeroDivisor) s) := by
  cases w with
  | sine => exact .inl ⟨_, rfl⟩
  | saw => exact .inl ⟨_, rfl⟩
  | square =>
    cases h : signalSquare sr f i with
    | none => exact .inr ⟨rfl, signalSquare_eq_none.mp h, by simp [signal, sigSquare, h]⟩
    | some y => exact .inl ⟨y, by simp [signal, sigSquare, h]⟩

@[simp] theorem opNew_run (j : Fin 3) (ratio : F32) (w : WaveKind) (sr : Word) (s : State) :
    opNew j ratio w sr s = .ok () (s.setOper j (newOper sr ratio w)) := rfl

@[simp] theorem opSetf_run (E : Env) (j : Fin 3) (base : F32) (s : State) :
    opSetf E j base s = .ok () (s.setOper j { s.oper j with freq := fmul E.num base (s.oper j).ratio }) := rfl

/-- An Operator one sample on. -/
def State.phaseAdvanced (s : State) (j : Fin 3) : State :=
  s.setOper j { s.oper j with phase := (s.oper j).phase + 1 }

/-- OP.NEXT with the counter advanced. -/
theorem opNext_run (E : Env) (j : Fin 3) (s : State) :
    opNext E j s = match waveOf (s.oper j).wave with
      | some w => signal E w (s.oper j).sr (s.oper j).freq ((s.oper j).phase + 1) (s.phaseAdvanced j)
      | none => .error (.fault .reservedWave) (s.phaseAdvanced j) := by
  simp only [opNext, bind_run, updateState_run, readState_run, setOper_oper_self]
  cases waveOf (s.oper j).wave <;> rfl

/-- Everything OP.RANDOM can do. -/
theorem opRandom_cases (E : Env) (j : Fin 3) (sr : Word) (s : State) :
    (∃ k ratio r, (poolEntry s.cfg k).weight ≠ 0 ∧ fle (poolEntry s.cfg k).ratioLo ratio = true ∧
      flt ratio (poolEntry s.cfg k).ratioHi = true ∧
      opRandom E j sr s = .ok () ((s.setRng r).setOper j (newOper sr ratio (poolEntry s.cfg k).wave))) ∨
    ((∀ k : Fin s.cfg.nPool.val, (poolEntry s.cfg k).weight = 0) ∧
      opRandom E j sr s = .error (.raise .errSelect) s) ∨
    (∃ k u, flt (poolEntry s.cfg k).ratioLo (poolEntry s.cfg k).ratioHi = false ∧
      opRandom E j sr s = .error (.fault .drawDomain) u) := by
  rcases rngWeighted_cases E (fun k => (poolEntry s.cfg k).weight) s with ⟨k, r, hw, h⟩ | ⟨hw, h⟩
  · rcases rngF32_cases E (poolEntry s.cfg k).ratioLo (poolEntry s.cfg k).ratioHi (s.setRng r) with
      ⟨v, r', hlo, hhi, h'⟩ | ⟨hd, h'⟩
    · exact .inl ⟨k, v, r', hw, hlo, hhi, (bind_ok rfl).trans ((bind_ok h).trans (bind_ok h'))⟩
    · exact .inr (.inr ⟨k, _, hd, (bind_ok rfl).trans ((bind_ok h).trans (bind_error h'))⟩)
  · exact .inr (.inl ⟨hw, (bind_ok rfl).trans (bind_error h)⟩)

/-! ### ADSR -/

/-- Everything ADSR.NEW can do. -/
theorem adsrNew_cases (E : Env) (s : State) :
    (∃ a d u r st, adsrNew E s = .ok () (((s.setRng st).setAdsr
      ⟨a, d, u, r, fZero, 0, fZero, 0⟩).setClock 2 ⟨0, 0⟩)) ∨
    ((flt s.cfg.attLo s.cfg.attHi = false ∨ flt s.cfg.decLo s.cfg.decHi = false ∨
      flt s.cfg.susLo s.cfg.susHi = false ∨ flt s.cfg.relLo s.cfg.relHi = false) ∧
      ∃ u, adsrNew E s = .error (.fault .drawDomain) u) := by
  rcases rngF32_cases E s.cfg.attLo s.cfg.attHi s with ⟨a, r1, -, -, h1⟩ | ⟨e, h1⟩
  rotate_left
  · exact .inr ⟨.inl e, _, (bind_ok rfl).trans (bind_error h1)⟩
  rcases rngF32_cases E s.cfg.decLo s.cfg.decHi (s.setRng r1) with ⟨d, r2, -, -, h2⟩ | ⟨e, h2⟩
  rotate_left
  · exact .inr ⟨.inr (.inl e), _, (bind_ok rfl).trans ((bind_ok h1).trans (bind_error h2))⟩
  rcases rngF32_cases E s.cfg.susLo s.cfg.susHi ((s.setRng r1).setRng r2) with ⟨u, r3, -, -, h3⟩ | ⟨e, h3⟩
  rotate_left
  · exact .inr ⟨.inr (.inr (.inl e)), _, (bind_ok rfl).trans ((bind_ok h1).trans ((bind_ok h2).trans (bind_error h3)))⟩
  rcases rngF32_cases E s.cfg.relLo s.cfg.relHi (((s.setRng r1).setRng r2).setRng r3) with
    ⟨r, r4, -, -, h4⟩ | ⟨e, h4⟩
  rotate_left
  · exact .inr ⟨.inr (.inr (.inr e)), _,
      (bind_ok rfl).trans ((bind_ok h1).trans ((bind_ok h2).trans ((bind_ok h3).trans (bind_error h4))))⟩
  exact .inl ⟨a, d, u, r, r4,
    (bind_ok rfl).trans ((bind_ok h1).trans ((bind_ok h2).trans ((bind_ok h3).trans (bind_ok h4))))⟩

/-- The ADSR that ADSR.START leaves. -/
def playedAdsr (N : Numerics) (a : Adsr) (length : Word) : Adsr :=
  { startedAdsr a length with delta := fdiv N fOne (fmul N (u2f length) a.attack) }

@[simp] theorem adsrStart_run (E : Env) (length : Word) (s : State) :
    adsrStart E length s = .ok () ((s.setAdsr (playedAdsr E.num s.syn.adsr length)).setClock 2
      ⟨0, f2u (fmul E.num (u2f length) s.syn.adsr.attack)⟩) := by
  simp [adsrStart, playedAdsr, startedAdsr, segAttack, State.setAdsr]

/-- Everything a transition of the envelope can do. -/
theorem adsrTransition_cases (E : Env) (s : State) :
    (∃ st delta c, adsrTransition E s =
      .ok () ((s.setAdsr { s.syn.adsr with state := st, delta := delta }).setClock 2 c) ∧
      (s.syn.adsr.state = 1 ∧ st = 2 ∨ s.syn.adsr.state = 2 ∧ st = 3 ∨ s.syn.adsr.state = 3 ∧ st = 4)) ∨
    ((s.syn.adsr.state = 0 ∨ s.syn.adsr.state = 4) ∧ adsrTransition E s =
      .ok () (s.setAdsr { s.syn.adsr with state := 0, delta := fZero, value := fZero })) ∨
    (4 < s.syn.adsr.state.toNat ∧ adsrTransition E s = .error (.fault .reservedAdsrState) s) := by
  have hc : ∀ x : BitVec 3, x = 0 ∨ x = 1 ∨ x = 2 ∨ x = 3 ∨ x = 4 ∨ x = 5 ∨ x = 6 ∨ x = 7 := by decide
  have hr : adsrTransition E s = (match adsrStateOf s.syn.adsr.state with
    | some .attack => adsrEnter .decay
        (fdiv E.num (fsub E.num s.syn.adsr.sustain s.syn.adsr.value) (segDecay E.num s.syn.adsr))
        (segDecay E.num s.syn.adsr) s
    | some .decay => adsrEnter .sustain fZero (segSustain E.num s.syn.adsr) s
    | some .sustain => adsrEnter .release
        (fdiv E.num (fsub E.num fZero s.syn.adsr.value) (segRelease E.num s.syn.adsr))
        (segRelease E.num s.syn.adsr) s
    | some .release => adsrOff s
    | some .off => adsrOff s
    | none => (stopWith .reservedAdsrState : M Unit) s) := by
    refine (bind_ok rfl).trans ?_
    cases adsrStateOf s.syn.adsr.state with
    | none => rfl
    | some x => cases x <;> rfl
  rw [hr]
  rcases hc s.syn.adsr.state with h | h | h | h | h | h | h | h <;> rw [h]
  · exact .inr (.inl ⟨.inl rfl, rfl⟩)
  · exact .inl ⟨2, _, _, rfl, .inl ⟨rfl, rfl⟩⟩
  · exact .inl ⟨3, _, _, rfl, .inr (.inl ⟨rfl, rfl⟩)⟩
  · exact .inl ⟨4, _, _, rfl, .inr (.inr ⟨rfl, rfl⟩)⟩
  · exact .inr (.inl ⟨.inr rfl, rfl⟩)
  all_goals exact .inr (.inr ⟨by decide, rfl⟩)

/-- The ADSR that a fired phase Clock leaves, with the Clock, before the delta is added; `none` for a
reserved state. -/
def adsrMoved (N : Numerics) (a : Adsr) (c : Clock) : Option (Adsr × Clock) :=
  match adsrStateOf a.state with
  | some .attack => some ({ a with state := 2, delta := fdiv N (fsub N a.sustain a.value) (segDecay N a) },
      ⟨0, f2u (segDecay N a)⟩)
  | some .decay => some ({ a with state := 3, delta := fZero }, ⟨0, f2u (segSustain N a)⟩)
  | some .sustain => some ({ a with state := 4, delta := fdiv N (fsub N fZero a.value) (segRelease N a) },
      ⟨0, f2u (segRelease N a)⟩)
  | some .release => some ({ a with state := 0, delta := fZero, value := fZero }, c)
  | some .off => some ({ a with state := 0, delta := fZero, value := fZero }, c)
  | none => none

/-- The ADSR and its phase Clock after one sample. -/
def adsrAfter (N : Numerics) (a : Adsr) (c : Clock) : Option (Adsr × Clock) :=
  (if c.ticked.isReady then adsrMoved N a c.ticked else some (a, c.ticked)).map fun (b, d) =>
    ({ b with value := fadd N b.value b.delta }, d)

theorem adsrTransition_run (E : Env) (s : State) (c : Clock) :
    adsrTransition E (s.setClock 2 c) = match adsrMoved E.num s.syn.adsr c with
      | some (a, d) => .ok () ((s.setClock 2 d).setAdsr a)
      | none => .error (.fault .reservedAdsrState) (s.setClock 2 c) := by
  unfold adsrTransition adsrMoved
  refine (readState_bind _ _).trans ?_
  simp only [setClock_syn]
  cases adsrStateOf s.syn.adsr.state with
  | none => rfl
  | some x => cases x <;> simp [adsrEnter, adsrOff, AdsrState.code, State.setClock, State.setAdsr]

/-- ADSR.NEXT as a function of the ADSR and its phase Clock. -/
theorem adsrNext_run (E : Env) (s : State) :
    adsrNext E s = match adsrAfter E.num s.syn.adsr (s.clock 2) with
      | some (a, c) => .ok a.value ((s.setClock 2 c).setAdsr a)
      | none => .error (.fault .reservedAdsrState) (s.setClock 2 (s.clock 2).ticked) := by
  have ht := clkTick_run 2 s
  refine (bind_ok ht).trans ?_
  unfold adsrAfter
  cases hf : (s.clock 2).ticked.isReady
  · rfl
  · simp only [doWhen_true, if_true, bind_run, adsrTransition_run]
    cases adsrMoved E.num s.syn.adsr (s.clock 2).ticked <;> rfl

/-- Everything ADSR.NEXT can do, as far as the states of the envelope go. -/
theorem adsrNext_cases (E : Env) (s : State) :
    (∃ st v delta c, adsrNext E s =
      .ok v ((s.setAdsr { s.syn.adsr with state := st, value := v, delta := delta }).setClock 2 c) ∧
      (st = s.syn.adsr.state ∨ s.syn.adsr.state = 1 ∧ st = 2 ∨ s.syn.adsr.state = 2 ∧ st = 3 ∨
        s.syn.adsr.state = 3 ∧ st = 4 ∨ s.syn.adsr.state = 4 ∧ st = 0)) ∨
    (4 < s.syn.adsr.state.toNat ∧ ∃ u, adsrNext E s = .error (.fault .reservedAdsrState) u) := by
  have htick := clkTick_run 2 s
  cases hf : (s.clock 2).ticked.isReady <;> rw [hf] at htick
  · exact .inl ⟨s.syn.adsr.state, fadd E.num s.syn.adsr.value s.syn.adsr.delta, s.syn.adsr.delta,
      (s.clock 2).ticked, (bind_ok htick).trans ((bind_ok rfl).trans ((bind_ok rfl).trans rfl)), .inl rfl⟩
  · rcases adsrTransition_cases E (s.setClock 2 (s.clock 2).ticked) with
      ⟨st, delta, c, h, hst⟩ | ⟨hst, h⟩ | ⟨hst, h⟩
    · refine .inl ⟨st, fadd E.num s.syn.adsr.value delta, delta, c, ?_, .inr ?_⟩
      · refine (bind_ok htick).trans ((bind_ok h).trans ((bind_ok rfl).trans ?_))
        simp [State.setAdsr, State.setClock]
      · rcases hst with e | e | e
        · exact .inl e
        · exact .inr (.inl e)
        · exact .inr (.inr (.inl e))
    · refine .inl ⟨0, fadd E.num fZero fZero, fZero, (s.clock 2).ticked,
        (bind_ok htick).trans ((bind_ok h).trans ((bind_ok rfl).trans ?_)), ?_⟩
      · simp [State.setAdsr, State.setClock]
      rcases hst with e | e
      · exact .inl e.symm
      · exact .inr (.inr (.inr (.inr ⟨e, rfl⟩)))
    · exact .inr ⟨hst, _, (bind_ok htick).trans (bind_error h)⟩

/-! ### Filter -/

/-- Everything FLT.NEW can do. -/
theorem fltNew_cases (E : Env) (sr : Word) (s : State) :
    (∃ cutoff q st, fltNew E sr s = .ok () ((s.setRng st).setFlt (newFilter E.num cutoff q sr))) ∨
    ((flt s.cfg.cutoffLo s.cfg.cutoffHi = false ∨ flt s.cfg.qLo s.cfg.qHi = false) ∧
      ∃ u, fltNew E sr s = .error (.fault .drawDomain) u) := by
  rcases rngF32_cases E s.cfg.cutoffLo s.cfg.cutoffHi s with ⟨a, r1, -, -, h1⟩ | ⟨e, h1⟩
  rotate_left
  · exact .inr ⟨.inl e, _, (bind_ok rfl).trans (bind_error h1)⟩
  rcases rngF32_cases E s.cfg.qLo s.cfg.qHi (s.setRng r1) with ⟨d, r2, -, -, h2⟩ | ⟨e, h2⟩
  rotate_left
  · exact .inr ⟨.inr e, _, (bind_ok rfl).trans ((bind_ok h1).trans (bind_error h2))⟩
  exact .inl ⟨a, d, r2, (bind_ok rfl).trans ((bind_ok h1).trans (bind_ok h2))⟩

@[simp] theorem fltGen_run (E : Env) (x : F32) (s : State) :
    fltGen E x s = .ok ((filterAfter E.num s.syn.flt x).s[3]) (s.setFlt (filterAfter E.num s.syn.flt x)) := rfl

theorem filterAfter_px (N : Numerics) (f : Filter) (x : F32) : (filterAfter N f x).px = filterX N f x := rfl

/-- The sample is the last stage's output: the tangent of the stage equation on the third output. -/
theorem filterAfter_sample (N : Numerics) (f : Filter) (x : F32) : (filterAfter N f x).s[3] =
    numTanh N (filterStage N f (filterAfter N f x).s[2] f.ps[2] f.s[3]) := by
  simp [filterAfter]

/-! ### Note and Sequence -/

theorem scaleTone_some {c : Cfg} {scale : BitVec 5} (h : scale.toNat < 21) (t : Fin 8) :
    scaleTone c scale t = some ((c.scales[scale.toNat]'h)[t]) := by
  simp [scaleTone, h]

theorem scaleTone_none {c : Cfg} {scale : BitVec 5} (h : ¬ scale.toNat < 21) (t : Fin 8) :
    scaleTone c scale t = none := by
  simp [scaleTone, h]

/-- Everything NOTE.NEW can do. -/
theorem noteNew_cases (E : Env) (i : Fin 8) (s : State) :
    (∃ n st tone, 1 ≤ n.dur.toNat ∧ n.dur.toNat ≤ s.seq.length.toNat ∧
      scaleTone s.cfg s.seq.scale tone = some n.freq ∧
      noteNew E i s = .ok () ((s.setRng st).setNote i n)) ∨
    (s.seq.length = 0 ∧ noteNew E i s = .error (.fault .drawDomain) s) ∨
    (20 < s.seq.scale.toNat ∧ ∃ u, noteNew E i s = .error (.fault .illegalScale) u) := by
  have hl := s.seq.length.isLt
  rcases rngU32_cases E 1 (s.seq.length.setWidth 32 + 1) s with ⟨d, r1, hlo, hhi, h1⟩ | ⟨e, h1⟩
  rotate_left
  · refine .inr (.inl ⟨?_, (bind_ok rfl).trans (bind_error h1)⟩)
    rw [BitVec.lt_def] at e
    apply BitVec.eq_of_toNat_eq
    simp at e ⊢
    omega
  rw [BitVec.le_def] at hlo
  rw [BitVec.lt_def] at hhi
  simp at hlo hhi
  have h2 := rngIndex_run E (by decide : 0 < 8) (s.setRng r1)
  by_cases hs : s.seq.scale.toNat < 21
  · refine .inl ⟨⟨d.setWidth 4, (s.cfg.scales[s.seq.scale.toNat]'hs)[indexAnswer E.rng r1 8 (by decide)]⟩,
      (E.rng.index r1 8).2, indexAnswer E.rng r1 8 (by decide), ?_, ?_, scaleTone_some hs _, ?_⟩
    · simp; omega
    · simp; omega
    · refine (bind_ok rfl).trans ((bind_ok h1).trans ((bind_ok h2).trans ?_))
      rw [show (s.setRng r1).rng = r1 from rfl, scaleTone_some hs]
      rfl
  · refine .inr (.inr ⟨by omega, (s.setRng r1).setRng (E.rng.index r1 8).2,
      (bind_ok rfl).trans ((bind_ok h1).trans ((bind_ok h2).trans ?_))⟩)
    rw [scaleTone_none hs]
    rfl

@[simp] theorem noteDefault_run (i : Fin 8) (s : State) :
    noteDefault i s = .ok () (s.setNote i ⟨0, fZero⟩) := rfl

/-- The slot of a mutation is below the active length and is not the playing one. -/
theorem mutatedSlot_spec {k length : Nat} {cursor : BitVec 3} (h : k < length - 1) :
    mutatedSlot k cursor < length ∧ mutatedSlot k cursor ≠ cursor.toNat := by
  unfold mutatedSlot
  split <;> omega

/-- Everything SEQ.MUTATE can do on a legal length. -/
theorem seqMutate_cases (E : Env) (s : State) (h1 : 1 ≤ s.seq.length.toNat) (h8 : s.seq.length.toNat ≤ 8) :
    (∃ i n st d tone, i.val ≠ s.seq.cursor.toNat ∧ i.val < s.seq.length.toNat ∧ 1 ≤ n.dur.toNat ∧
      n.dur.toNat ≤ s.seq.length.toNat ∧ scaleTone s.cfg s.seq.scale tone = some n.freq ∧
      seqMutate E s = .ok () (((s.setRng st).setNote i n).setClock 0 ⟨0, d⟩)) ∨
    (s.seq.length = 1 ∧ seqMutate E s = .error (.raise .errSelect) s) ∨
    (¬ s.cfg.seqMutLo < s.cfg.seqMutHi ∧ ∃ u, seqMutate E s = .error (.fault .drawDomain) u) ∨
    (20 < s.seq.scale.toNat ∧ ∃ u, seqMutate E s = .error (.fault .illegalScale) u) := by
  have hne : s.seq.length ≠ 0 := fun e => by simp [e] at h1
  have hr : seqMutate E s = (rngIndex E (s.seq.length.toNat - 1) >>= fun k =>
      if h : mutatedSlot k.val s.seq.cursor < 8 then (do
        noteNew E ⟨mutatedSlot k.val s.seq.cursor, h⟩
        let d ← rngU32 E s.cfg.seqMutLo s.cfg.seqMutHi
        clkReset 0 d)
      else stopWith .illegalLength) s := by
    refine (bind_ok rfl).trans ?_
    simp only [if_neg hne]
  rw [hr]
  rcases rngIndex_cases E (s.seq.length.toNat - 1) s with ⟨k, r1, hk⟩ | ⟨hz, hk⟩
  rotate_left
  · refine .inr (.inl ⟨?_, bind_error hk⟩)
    apply BitVec.eq_of_toNat_eq
    simp
    omega
  obtain ⟨hlt, hcur⟩ := mutatedSlot_spec (cursor := s.seq.cursor) k.isLt
  have hslot : mutatedSlot k.val s.seq.cursor < 8 := by omega
  rcases noteNew_cases E ⟨mutatedSlot k.val s.seq.cursor, hslot⟩ (s.setRng r1) with
    ⟨n, st, tone, hn1, hn2, ht, hn⟩ | ⟨hl, -⟩ | ⟨hs, u, hn⟩
  · rcases rngU32_cases E s.cfg.seqMutLo s.cfg.seqMutHi
      (((s.setRng r1).setRng st).setNote ⟨mutatedSlot k.val s.seq.cursor, hslot⟩ n) with
      ⟨d, r2, -, -, hd⟩ | ⟨e, hd⟩
    · refine .inl ⟨⟨_, hslot⟩, n, r2, d, tone, hcur, hlt, hn1, hn2, ht, (bind_ok hk).trans ?_⟩
      rw [dif_pos hslot]
      exact (bind_ok hn).trans (bind_ok hd)
    · refine .inr (.inr (.inl ⟨e, ((s.setRng r1).setRng st).setNote ⟨_, hslot⟩ n, (bind_ok hk).trans ?_⟩))
      rw [dif_pos hslot]
      exact (bind_ok hn).trans (bind_error hd)
  · exact absurd hl hne
  · refine .inr (.inr (.inr ⟨hs, u, (bind_ok hk).trans ?_⟩))
    rw [dif_pos hslot]
    exact bind_error hn

theorem nextCursor_toNat {cursor : BitVec 3} {length : BitVec 4} (h1 : 1 ≤ length.toNat)
    (h8 : length.toNat ≤ 8) : (nextCursor cursor length).toNat = (cursor.toNat + 1) % length.toNat := by
  have hc := cursor.isLt
  have := Nat.mod_lt (cursor.toNat + 1) h1
  have h : (nextCursor cursor length).toNat = (cursor.toNat + 1) % 2 ^ 4 % length.toNat % 2 ^ 3 := by
    simp [nextCursor]
  rw [h, Nat.mod_eq_of_lt (by omega : cursor.toNat + 1 < 2 ^ 4), Nat.mod_eq_of_lt (by omega)]

/-- The step Clock's half of SEQ.NEXT when it fires, on a legal length. -/
theorem seqStep_run (s : State) (h1 : 1 ≤ s.seq.length.toNat) (h8 : s.seq.length.toNat ≤ 8) :
    ∃ i : Fin 8, i.val = (s.seq.cursor.toNat + 1) % s.seq.length.toNat ∧
      seqStep s = .ok ((s.note i).dur.setWidth 32 * s.seq.tempo, (s.note i).freq)
        ((s.setSeq { s.seq with cursor := BitVec.ofNat 3 i.val }).setClock 1
          ⟨0, (s.note i).dur.setWidth 32 * s.seq.tempo⟩) := by
  have hne : s.seq.length ≠ 0 := fun e => by simp [e] at h1
  have hc := nextCursor_toNat (cursor := s.seq.cursor) h1 h8
  refine ⟨⟨(nextCursor s.seq.cursor s.seq.length).toNat, (nextCursor s.seq.cursor s.seq.length).isLt⟩, hc, ?_⟩
  simp only [seqStep, bind_run, readState_run, hne, if_false, updateState_run, clkReset_run, pure_run,
    BitVec.ofNat_toNat, BitVec.setWidth_eq]
  rfl

/-! ### Synth -/

/-- Everything SYN.MUTATE can do. -/
theorem synMutate_cases (E : Env) (s : State) :
    (∃ j k ratio st d, j ≠ 0 ∧ (poolEntry s.cfg k).weight ≠ 0 ∧ fle (poolEntry s.cfg k).ratioLo ratio = true ∧
      flt ratio (poolEntry s.cfg k).ratioHi = true ∧
      synMutate E s = .ok () (((s.setRng st).setOper j
        (newOper s.syn.sr ratio (poolEntry s.cfg k).wave)).setClock 3 ⟨0, d⟩)) ∨
    ((∀ k : Fin s.cfg.nPool.val, (poolEntry s.cfg k).weight = 0) ∧
      synMutate E s = .error (.raise .errSelect) (s.setRng (E.rng.index s.rng 2).2)) ∨
    (((∃ k : Fin s.cfg.nPool.val, flt (poolEntry s.cfg k).ratioLo (poolEntry s.cfg k).ratioHi = false) ∨
      ¬ s.cfg.synMutLo < s.cfg.synMutHi) ∧ ∃ u, synMutate E s = .error (.fault .drawDomain) u) := by
  have h1 := rngIndex_run E (by decide : 0 < 2) s
  have hj : modulator (indexAnswer E.rng s.rng 2 (by decide)) ≠ 0 := by
    simp [modulator, Fin.succ_ne_zero]
  rcases opRandom_cases E (modulator (indexAnswer E.rng s.rng 2 (by decide))) s.syn.sr
    (s.setRng (E.rng.index s.rng 2).2) with ⟨k, ratio, r, hw, hlo, hhi, h2⟩ | ⟨hw, h2⟩ | ⟨k, u, hd, h2⟩
  · rcases rngU32_cases E s.cfg.synMutLo s.cfg.synMutHi
      (((s.setRng (E.rng.index s.rng 2).2).setRng r).setOper
        (modulator (indexAnswer E.rng s.rng 2 (by decide))) (newOper s.syn.sr ratio (poolEntry s.cfg k).wave)) with
      ⟨d, r2, -, -, h3⟩ | ⟨e, h3⟩
    · exact .inl ⟨_, k, ratio, r2, d, hj, hw, hlo, hhi,
        (bind_ok rfl).trans ((bind_ok h1).trans ((bind_ok h2).trans (bind_ok h3)))⟩
    · exact .inr (.inr ⟨.inr e, _,
        (bind_ok rfl).trans ((bind_ok h1).trans ((bind_ok h2).trans (bind_error h3)))⟩)
  · exact .inr (.inl ⟨hw, (bind_ok rfl).trans ((bind_ok h1).trans (bind_error h2))⟩)
  · exact .inr (.inr ⟨.inl ⟨k, hd⟩, u, (bind_ok rfl).trans ((bind_ok h1).trans (bind_error h2))⟩)

end Sys2Proof.Machine
end

