-- ==== Sys2Proof/Laws/Legal.lean ====
section
/-! SUPPORT. The legal register values as a condition on the few elements that have one, and what each step
does from a legal state: it stays legal, and under a well-formed configuration stops for a Square's zero
divisor only. -/

namespace Sys2Proof.Machine

variable {α β : Type}

/-- The elements whose legal values are fewer than their width (spec/10_state.md R46). -/
structure Legal (s : State) : Prop where
  scale : s.seq.scale.toNat ≤ 20
  length : 1 ≤ s.seq.length.toNat ∧ s.seq.length.toNat ≤ 8
  dur : ∀ i, (s.note i).dur.toNat ≤ 8
  wave : ∀ j, (s.oper j).wave.toNat ≤ 2
  adsr : s.syn.adsr.state.toNat ≤ 4

theorem registersLegal_iff (s : State) : RegistersLegal s ↔ Legal s := by
  constructor
  · intro h
    have h1 := h .seqScale
    have h2 := h .seqLength
    have h3 := fun i => h (.noteDur i)
    have h4 := fun j => h (.opWave j)
    have h5 := h .adsrState
    simp [Reg.read, Reg.legal] at h1 h2 h3 h4 h5
    refine ⟨by omega, by omega, fun i => ?_, fun j => ?_, by omega⟩
    · have := h3 i; omega
    · have := h4 j; omega
  · intro h r
    obtain ⟨h1, h2, h3, h4, h5⟩ := h
    cases r with
    | engStatus =>
      cases hr : s.ready <;> cases ht : s.testEn <;> simp [Reg.read, Reg.legal, engStatus, hr, ht]
    | seqScale => simp [Reg.read, Reg.legal]; omega
    | seqLength => simp [Reg.read, Reg.legal]; omega
    | seqCursor => have := s.seq.cursor.isLt; simp [Reg.read, Reg.legal]; omega
    | noteDur i => have := h3 i; simp [Reg.read, Reg.legal]; omega
    | opWave j => have := h4 j; simp [Reg.read, Reg.legal]; omega
    | adsrState => simp [Reg.read, Reg.legal]; omega
    | _ => rfl

theorem waveCode_le (w : WaveKind) : (waveCode w).toNat ≤ 2 := by cases w <;> decide

theorem waveOf_some {x : BitVec 2} (h : x.toNat ≤ 2) : ∃ w, waveOf x = some w := by
  have hc : ∀ y : BitVec 2, y.toNat ≤ 2 → (waveOf y).isSome = true := by decide
  exact Option.isSome_iff_exists.mp (hc x h)

theorem adsrStateOf_some {x : BitVec 3} (h : x.toNat ≤ 4) : ∃ a, adsrStateOf x = some a := by
  have hc : ∀ y : BitVec 3, y.toNat ≤ 4 → (adsrStateOf y).isSome = true := by decide
  exact Option.isSome_iff_exists.mp (hc x h)

theorem metreAt_mem (c : Cfg) (m : Fin c.nMetres.val) : (metreAt c m).toNat ∈ [3, 4, 5, 7, 8] := by
  have h : ∀ k : Fin 5, (Config.metres[k.val]).toNat ∈ [3, 4, 5, 7, 8] := by decide
  have := c.nMetres.isLt
  exact h ⟨m.val, by omega⟩

theorem metreAt_range (c : Cfg) (m : Fin c.nMetres.val) :
    1 ≤ (metreAt c m).toNat ∧ (metreAt c m).toNat ≤ 8 := by
  have h := metreAt_mem c m
  generalize (metreAt c m).toNat = x at h
  simp at h
  omega

/-- From a legal state of configuration `c` an action stays among those, and under a well-formed `c` its one
model-level fault is a Square's zero divisor. -/
def Safe (c : Cfg) (m : M α) : Prop :=
  ∀ s, Legal s → s.cfg = c →
    (∀ a t, m s = .ok a t → Legal t ∧ t.cfg = c) ∧
    (∀ e t, m s = .error (.raise e) t → Legal t ∧ t.cfg = c) ∧
    (∀ f t, CfgWellFormed c → m s = .error (.fault f) t → f = .squareZeroDivisor)

theorem Safe.bind {c : Cfg} {x : M α} {f : α → M β} (hx : Safe c x) (hf : ∀ a, Safe c (f a)) :
    Safe c (x >>= f) := by
  intro s hl hc
  obtain ⟨h1, h2, h3⟩ := hx s hl hc
  rw [bind_run]
  cases h : x s with
  | ok a u => exact hf a u (h1 a u h).1 (h1 a u h).2
  | error e u =>
    refine ⟨fun _ _ g => (by cases g), fun e t g => ?_, fun f t w g => ?_⟩
    · cases g; exact h2 _ _ h
    · cases g; exact h3 _ _ w h

theorem Safe.read {c : Cfg} {f : State → M β} (hf : ∀ s, Legal s → s.cfg = c → Safe c (f s)) :
    Safe c (readState >>= f) := by
  intro s hl hc
  rw [readState_bind]
  exact hf s hl hc s hl hc

theorem Safe.pure {c : Cfg} (a : α) : Safe c (Pure.pure a : M α) :=
  fun _ hl hc =>
    ⟨fun _ _ g => (by cases g; exact ⟨hl, hc⟩), fun _ _ g => (by cases g), fun _ _ _ g => (by cases g)⟩

theorem Safe.raise {c : Cfg} (e : Status) : Safe c (Machine.raise e : M α) :=
  fun _ hl hc => ⟨fun _ _ g => (by cases g), fun _ _ g => (by cases g; exact ⟨hl, hc⟩), fun _ _ _ g => (by cases g)⟩

theorem Safe.square {c : Cfg} : Safe c (Machine.stopWith .squareZeroDivisor : M α) :=
  fun _ _ _ => ⟨fun _ _ g => (by cases g), fun _ _ g => (by cases g), fun _ _ _ g => (by cases g; rfl)⟩

theorem Safe.update {c : Cfg} {f : State → State} (h : ∀ s, Legal s → s.cfg = c → Legal (f s) ∧ (f s).cfg = c) :
    Safe c (updateState f) :=
  fun s hl hc => ⟨fun _ _ g => (by cases g; exact h s hl hc), fun _ _ g => (by cases g), fun _ _ _ g => (by cases g)⟩

theorem Safe.doWhen {c : Cfg} {a : M Unit} (b : Bool) (h : Safe c a) : Safe c (Machine.doWhen b a) := by
  cases b
  · exact Safe.pure ()
  · exact h

/-! ### The updates -/

theorem Legal.setRng {s : State} (h : Legal s) (r : RngState) : Legal (s.setRng r) :=
  ⟨h.scale, h.length, h.dur, h.wave, h.adsr⟩

theorem Legal.setReady {s : State} (h : Legal s) (b : Bool) : Legal (s.setReady b) :=
  ⟨h.scale, h.length, h.dur, h.wave, h.adsr⟩

theorem Legal.setClock {s : State} (h : Legal s) (k : Fin 4) (c : Clock) : Legal (s.setClock k c) :=
  ⟨h.scale, h.length, h.dur, h.wave, h.adsr⟩

theorem Legal.setSynSr {s : State} (h : Legal s) (r : Word) : Legal (s.setSynSr r) :=
  ⟨h.scale, h.length, h.dur, h.wave, h.adsr⟩

theorem Legal.setFlt {s : State} (h : Legal s) (f : Filter) : Legal (s.setFlt f) :=
  ⟨h.scale, h.length, h.dur, h.wave, h.adsr⟩

theorem Legal.setAdsr {s : State} (h : Legal s) {a : Adsr} (ha : a.state.toNat ≤ 4) : Legal (s.setAdsr a) :=
  ⟨h.scale, h.length, h.dur, h.wave, ha⟩

theorem Legal.setNote {s : State} (h : Legal s) (i : Fin 8) {n : Note} (hn : n.dur.toNat ≤ 8) :
    Legal (s.setNote i n) :=
  ⟨h.scale, h.length, fun k => by rw [setNote_note]; split <;> [exact hn; exact h.dur k], h.wave, h.adsr⟩

theorem Legal.setOper {s : State} (h : Legal s) (j : Fin 3) {o : Oper} (ho : o.wave.toNat ≤ 2) :
    Legal (s.setOper j o) :=
  ⟨h.scale, h.length, h.dur, fun k => by rw [setOper_oper]; split <;> [exact ho; exact h.wave k], h.adsr⟩

theorem Legal.setSeqRegs {s : State} (h : Legal s) (tp : Word) {sc : BitVec 5} {l : BitVec 4} (cu : BitVec 3)
    (hs : sc.toNat ≤ 20) (hl : 1 ≤ l.toNat ∧ l.toNat ≤ 8) :
    Legal (s.setSeq { s.seq with tempo := tp, scale := sc, length := l, cursor := cu }) :=
  ⟨hs, hl, h.dur, h.wave, h.adsr⟩

/-! ### The draws -/

theorem safe_rngIndex (c : Cfg) (E : Env) (n : Nat) : Safe c (rngIndex E n) := by
  intro s hl hc
  rcases rngIndex_cases E n s with ⟨k, r, h⟩ | ⟨-, h⟩ <;> rw [h]
  · exact ⟨fun _ _ g => (by cases g; exact ⟨hl.setRng r, hc⟩), fun _ _ g => (by cases g), fun _ _ _ g => (by cases g)⟩
  · exact ⟨fun _ _ g => (by cases g), fun _ _ g => (by cases g; exact ⟨hl, hc⟩), fun _ _ _ g => (by cases g)⟩

theorem safe_rngU32 (c : Cfg) (E : Env) {lo hi : Word} (hr : CfgWellFormed c → lo < hi) : Safe c (rngU32 E lo hi) := by
  intro s hl hc
  rcases rngU32_cases E lo hi s with ⟨k, r, -, -, h⟩ | ⟨e, h⟩ <;> rw [h]
  · exact ⟨fun _ _ g => (by cases g; exact ⟨hl.setRng r, hc⟩), fun _ _ g => (by cases g), fun _ _ _ g => (by cases g)⟩
  · exact ⟨fun _ _ g => (by cases g), fun _ _ g => (by cases g), fun _ _ w _ => absurd (hr w) e⟩

theorem safe_rngF32 (c : Cfg) (E : Env) {lo hi : F32} (hr : CfgWellFormed c → floatRange lo hi) :
    Safe c (rngF32 E lo hi) := by
  intro s hl hc
  rcases rngF32_cases E lo hi s with ⟨k, r, -, -, h⟩ | ⟨e, h⟩ <;> rw [h]
  · exact ⟨fun _ _ g => (by cases g; exact ⟨hl.setRng r, hc⟩), fun _ _ g => (by cases g), fun _ _ _ g => (by cases g)⟩
  · exact ⟨fun _ _ g => (by cases g), fun _ _ g => (by cases g), fun _ _ w _ => absurd (hr w) (by simp [floatRange, e])⟩

/-! ### The steps -/

theorem safe_setClock (c : Cfg) (k : Fin 4) (x : Clock) : Safe c (updateState (·.setClock k x)) :=
  Safe.update fun _ hl hc => ⟨hl.setClock k x, hc⟩

theorem safe_clkTick (c : Cfg) (k : Fin 4) : Safe c (clkTick k) :=
  Safe.read fun _ _ _ => Safe.bind (safe_setClock c k _) fun _ => Safe.pure _

theorem safe_clkReady (c : Cfg) (k : Fin 4) : Safe c (clkReady k) := Safe.read fun _ _ _ => Safe.pure _

theorem safe_signal (c : Cfg) (E : Env) (w : WaveKind) (sr : Word) (f : F32) (i : Word) :
    Safe c (signal E w sr f i) := by
  cases w with
  | sine => exact Safe.pure _
  | saw => exact Safe.pure _
  | square =>
    unfold signal sigSquare
    cases signalSquare sr f i
    · exact Safe.square
    · exact Safe.pure _

theorem safe_opNew (c : Cfg) (j : Fin 3) (ratio : F32) (w : WaveKind) (sr : Word) : Safe c (opNew j ratio w sr) :=
  Safe.update fun _ hl hc => ⟨hl.setOper j (waveCode_le w), hc⟩

theorem safe_opRandom (c : Cfg) (E : Env) (j : Fin 3) (sr : Word) : Safe c (opRandom E j sr) := by
  intro s hl hc
  rcases opRandom_cases E j sr s with ⟨k, ratio, r, -, -, -, h⟩ | ⟨-, h⟩ | ⟨k, u, hd, h⟩ <;> rw [h]
  · exact ⟨fun _ _ g => (by cases g; exact ⟨(hl.setRng r).setOper j (waveCode_le _), hc⟩), fun _ _ g => (by cases g),
      fun _ _ _ g => (by cases g)⟩
  · exact ⟨fun _ _ g => (by cases g), fun _ _ g => (by cases g; exact ⟨hl, hc⟩), fun _ _ _ g => (by cases g)⟩
  · refine ⟨fun _ _ g => (by cases g), fun _ _ g => (by cases g), fun f t w _ => ?_⟩
    subst hc
    have h5 := s.cfg.nPool.isLt
    have hk := k.isLt
    have h5' := w.counts.2.2
    have hr := w.ratios ⟨k.val, by omega⟩
    have hp : poolEntry s.cfg k = s.cfg.pool[(⟨k.val, by omega⟩ : Fin 5)] := rfl
    rw [← hp] at hr
    exact absurd hr (by simp [floatRange, hd])

theorem safe_opSetf (c : Cfg) (E : Env) (j : Fin 3) (base : F32) : Safe c (opSetf E j base) :=
  Safe.update fun s hl hc => ⟨hl.setOper j (by exact hl.wave j), hc⟩

theorem safe_opNext (c : Cfg) (E : Env) (j : Fin 3) : Safe c (opNext E j) :=
  Safe.bind (Safe.update fun _ hl hc => ⟨hl.setOper j (by exact hl.wave j), hc⟩) fun _ => Safe.read fun s hl _ => by
    obtain ⟨w, h⟩ := waveOf_some (hl.wave j)
    simp only [h]
    exact safe_signal _ _ _ _ _ _

theorem safe_adsrNew (c : Cfg) (E : Env) : Safe c (adsrNew E) :=
  Safe.read fun _ _ hc => by
    subst hc
    exact Safe.bind (safe_rngF32 _ E fun w => w.att) fun _ => Safe.bind (safe_rngF32 _ E fun w => w.dec) fun _ =>
      Safe.bind (safe_rngF32 _ E fun w => w.sus) fun _ => Safe.bind (safe_rngF32 _ E fun w => w.rel) fun _ =>
        Safe.bind (Safe.update fun _ hl hc => ⟨hl.setAdsr (by simp [AdsrState.code]), hc⟩) fun _ => safe_setClock _ 2 _

theorem safe_adsrStart (c : Cfg) (E : Env) (l : Word) : Safe c (adsrStart E l) := by
  intro s hl hc
  rw [adsrStart_run]
  have h : Legal (s.setAdsr (playedAdsr E.num s.syn.adsr l)) := hl.setAdsr (Nat.le_of_ble_eq_true rfl)
  exact ⟨fun _ _ g => (by cases g; exact ⟨h.setClock 2 _, hc⟩), fun _ _ g => (by cases g), fun _ _ _ g => (by cases g)⟩

theorem safe_adsrEnter (c : Cfg) (st : AdsrState) (delta seg : F32) : Safe c (adsrEnter st delta seg) :=
  Safe.bind (Safe.update fun _ hl hc => ⟨hl.setAdsr (by cases st <;> simp [AdsrState.code]), hc⟩) fun _ =>
    safe_setClock _ 2 _

theorem safe_adsrOff (c : Cfg) : Safe c adsrOff :=
  Safe.update fun _ hl hc => ⟨hl.setAdsr (by simp [AdsrState.code]), hc⟩

theorem safe_adsrTransition (c : Cfg) (E : Env) : Safe c (adsrTransition E) :=
  Safe.read fun s hl _ => by
    obtain ⟨a, h⟩ := adsrStateOf_some hl.adsr
    simp only [h]
    cases a
    · exact safe_adsrOff c
    · exact safe_adsrEnter c _ _ _
    · exact safe_adsrEnter c _ _ _
    · exact safe_adsrEnter c _ _ _
    · exact safe_adsrOff c

theorem safe_adsrNext (c : Cfg) (E : Env) : Safe c (adsrNext E) :=
  Safe.bind (safe_clkTick c 2) fun b => Safe.bind (Safe.doWhen b (safe_adsrTransition c E)) fun _ =>
    Safe.bind (Safe.update fun _ hl hc => ⟨hl.setAdsr (by exact hl.adsr), hc⟩) fun _ => Safe.read fun _ _ _ => Safe.pure _

theorem safe_fltNew (c : Cfg) (E : Env) (sr : Word) : Safe c (fltNew E sr) :=
  Safe.read fun _ _ hc => by
    subst hc
    exact Safe.bind (safe_rngF32 _ E fun w => w.cutoff) fun _ => Safe.bind (safe_rngF32 _ E fun w => w.q) fun _ =>
      Safe.update fun _ hl hc => ⟨hl.setFlt _, hc⟩

theorem safe_fltGen (c : Cfg) (E : Env) (x : F32) : Safe c (fltGen E x) :=
  Safe.bind (Safe.update fun _ hl hc => ⟨hl.setFlt _, hc⟩) fun _ => Safe.read fun _ _ _ => Safe.pure _

theorem safe_noteNew (c : Cfg) (E : Env) (i : Fin 8) : Safe c (noteNew E i) := by
  intro s hl hc
  have hlen := hl.length
  have hsc := hl.scale
  rcases noteNew_cases E i s with ⟨n, st, tone, -, h2, -, h⟩ | ⟨e, -⟩ | ⟨e, -⟩
  · rw [h]
    exact ⟨fun _ _ g => (by cases g; exact ⟨(hl.setRng st).setNote i (by omega), hc⟩), fun _ _ g => (by cases g),
      fun _ _ _ g => (by cases g)⟩
  · rw [e] at hlen; simp at hlen
  · omega

theorem safe_noteDefault (c : Cfg) (i : Fin 8) : Safe c (noteDefault i) :=
  Safe.update fun _ hl hc => ⟨hl.setNote i (by decide), hc⟩

theorem safe_fillNotes (c : Cfg) (E : Env) : ∀ l : List (Fin 8), Safe c (fillNotes E l)
  | [] => Safe.pure ()
  | i :: rest => Safe.read fun s _ _ => by
      by_cases h : i.val < s.seq.length.toNat
      · simp only [h, if_true]
        exact Safe.bind (safe_noteNew c E i) fun _ => safe_fillNotes c E rest
      · simp only [h, if_false]
        exact Safe.bind (safe_noteDefault c i) fun _ => safe_fillNotes c E rest

theorem safe_seqNew (c : Cfg) (E : Env) (sr : Word) : Safe c (seqNew E sr) :=
  Safe.read fun s _ hc => by
    subst hc
    refine Safe.bind (safe_rngF32 _ E fun w => w.tempo) fun bpm => Safe.bind
      (Safe.update fun _ hl hc => ⟨hl.setSeqRegs _ _ (by exact hl.scale) (by exact hl.length), hc⟩) fun _ =>
      Safe.bind (safe_rngIndex _ E _) fun k => Safe.bind
        (Safe.update fun _ hl hc => ⟨hl.setSeqRegs _ _ ?_ (by exact hl.length), hc⟩) fun _ =>
        Safe.bind (safe_rngIndex _ E _) fun m => Safe.bind
          (Safe.update fun _ hl hc => ⟨hl.setSeqRegs _ _ (by exact hl.scale) (metreAt_range s.cfg m), hc⟩) fun _ =>
          Safe.bind (safe_fillNotes _ E _) fun _ => Safe.bind (safe_rngU32 _ E fun w => w.seqMut) fun _ =>
            Safe.bind (safe_setClock _ 0 _) fun _ => Safe.bind (safe_setClock _ 1 _) fun _ =>
              Safe.update fun _ hl hc => ⟨hl.setSeqRegs _ _ (by exact hl.scale) (by exact hl.length), hc⟩
    have h1 := s.cfg.nScales.isLt
    have h2 := k.isLt
    rw [BitVec.toNat_ofNat, Nat.mod_eq_of_lt (by omega)]
    omega

theorem safe_seqMutate (c : Cfg) (E : Env) : Safe c (seqMutate E) :=
  Safe.read fun s hl hc => by
    have h1 := hl.length
    have hne : s.seq.length ≠ 0 := fun e => by simp [e] at h1
    simp only [hne, if_false]
    refine Safe.bind (safe_rngIndex _ E _) fun k => ?_
    have hk := (mutatedSlot_spec (cursor := s.seq.cursor) k.isLt).1
    have hslot : mutatedSlot k.val s.seq.cursor < 8 := by omega
    simp only [hslot, dif_pos]
    subst hc
    exact Safe.bind (safe_noteNew _ E _) fun _ => Safe.bind (safe_rngU32 _ E fun w => w.seqMut) fun _ =>
      safe_setClock _ 0 _

theorem safe_seqStep (c : Cfg) : Safe c seqStep :=
  Safe.read fun s hl _ => by
    have h1 := hl.length
    have hne : s.seq.length ≠ 0 := fun e => by simp [e] at h1
    simp only [hne, if_false]
    exact Safe.bind (Safe.update fun _ hl hc => ⟨hl.setSeqRegs _ _ (by exact hl.scale) (by exact hl.length), hc⟩) fun _ =>
      Safe.read fun _ _ _ => Safe.bind (safe_setClock _ 1 _) fun _ => Safe.pure _

theorem safe_seqNext (c : Cfg) (E : Env) : Safe c (seqNext E) :=
  Safe.bind (safe_clkTick c 0) fun b => Safe.bind (Safe.doWhen b (safe_seqMutate c E)) fun _ =>
    Safe.bind (safe_clkTick c 1) fun fired => by
      cases fired
      · exact Safe.pure _
      · exact Safe.bind (safe_seqStep c) fun _ => Safe.pure _

theorem safe_synNew (c : Cfg) (E : Env) (sr : Word) : Safe c (synNew E sr) :=
  Safe.read fun _ _ hc => by
    subst hc
    exact Safe.bind (Safe.update fun _ hl hc => ⟨hl.setSynSr _, hc⟩) fun _ =>
      Safe.bind (safe_opNew _ _ _ _ _) fun _ => Safe.bind (safe_opRandom _ E _ _) fun _ =>
        Safe.bind (safe_opRandom _ E _ _) fun _ => Safe.bind (safe_adsrNew _ E) fun _ =>
          Safe.bind (safe_fltNew _ E _) fun _ => Safe.bind (safe_rngU32 _ E fun w => w.synMut) fun _ =>
            safe_setClock _ 3 _

theorem safe_synMutate (c : Cfg) (E : Env) : Safe c (synMutate E) :=
  Safe.read fun _ _ hc => by
    subst hc
    exact Safe.bind (safe_rngIndex _ E _) fun _ => Safe.bind (safe_opRandom _ E _ _) fun _ =>
      Safe.bind (safe_rngU32 _ E fun w => w.synMut) fun _ => safe_setClock _ 3 _

theorem safe_synPlay (c : Cfg) (E : Env) (f : F32) (l : Word) : Safe c (synPlay E f l) :=
  Safe.bind (safe_clkReady c 3) fun b => Safe.bind (Safe.doWhen b (safe_synMutate c E)) fun _ =>
    Safe.bind (safe_opSetf c E _ _) fun _ => Safe.bind (safe_opSetf c E _ _) fun _ =>
      Safe.bind (safe_opSetf c E _ _) fun _ => safe_adsrStart c E l

theorem safe_synNext (c : Cfg) (E : Env) : Safe c (synNext E) :=
  Safe.bind (safe_clkTick c 3) fun _ => Safe.bind (safe_opNext c E _) fun _ =>
    Safe.bind (safe_opNext c E _) fun _ => Safe.bind (safe_opNext c E _) fun _ =>
      Safe.bind (safe_adsrNext c E) fun _ => safe_fltGen c E _

theorem safe_rngSeed (c : Cfg) (E : Env) (seed : DWord) : Safe c (rngSeed E seed) :=
  Safe.update fun _ hl hc => ⟨hl.setRng _, hc⟩

theorem safe_engNew (c : Cfg) (E : Env) (seed : DWord) (sr : Word) : Safe c (engNew E seed sr) :=
  Safe.bind (Safe.update fun _ hl hc => ⟨hl.setReady _, hc⟩) fun _ => Safe.bind (safe_rngSeed c E seed) fun _ =>
    Safe.bind (safe_seqNew c E sr) fun _ => Safe.bind (safe_synNew c E sr) fun _ =>
      Safe.update fun _ hl hc => ⟨hl.setReady _, hc⟩

theorem safe_engNext (c : Cfg) (E : Env) : Safe c (engNext E) :=
  Safe.read fun s _ _ => by
    cases s.ready
    · exact Safe.raise _
    · refine Safe.bind (safe_seqNext c E) fun ev => Safe.bind ?_ fun _ => safe_synNext c E
      cases ev
      · exact Safe.pure ()
      · exact safe_synPlay c E _ _

end Sys2Proof.Machine
end

