-- ==== Sys2Proof/Laws/Endings.lean ====
section
/-! SUPPORT. Under a well-formed configuration the constructing and mutating steps run to their end from every
legal state: the sequencing law, and one lemma per step. -/

namespace Sys2Proof.Machine

variable {α β : Type}

/-- From every legal state of configuration `c` the action ends normally, in such a state. -/
def Ends (c : Cfg) (m : M α) : Prop :=
  ∀ s, Legal s → s.cfg = c → ∃ a t, m s = .ok a t ∧ Legal t ∧ t.cfg = c

/-- A safe action ends well as soon as it ends. -/
theorem Ends.of_safe {c : Cfg} {m : M α} (hs : Safe c m)
    (h : ∀ s, Legal s → s.cfg = c → ∃ a t, m s = .ok a t) : Ends c m := by
  intro s hl hc
  obtain ⟨a, t, e⟩ := h s hl hc
  exact ⟨a, t, e, (hs s hl hc).1 a t e⟩

theorem Ends.bind {c : Cfg} {x : M α} {f : α → M β} (hx : Ends c x) (hf : ∀ a, Ends c (f a)) :
    Ends c (x >>= f) := by
  intro s hl hc
  obtain ⟨a, t, e, ht, hct⟩ := hx s hl hc
  rw [bind_ok e]
  exact hf a t ht hct

theorem Ends.read {c : Cfg} {f : State → M β} (hf : ∀ s, Legal s → s.cfg = c → Ends c (f s)) :
    Ends c (readState >>= f) := by
  intro s hl hc
  rw [readState_bind]
  exact hf s hl hc s hl hc

theorem Ends.pure {c : Cfg} (a : α) : Ends c (Pure.pure a : M α) := fun s hl hc => ⟨a, s, rfl, hl, hc⟩

theorem Ends.update {c : Cfg} {f : State → State} (h : Safe c (updateState f)) : Ends c (updateState f) :=
  Ends.of_safe h fun _ _ _ => ⟨(), _, rfl⟩

/-! ### The draws -/

theorem ends_rngIndex (c : Cfg) (E : Env) {n : Nat} (hn : 0 < n) : Ends c (rngIndex E n) :=
  Ends.of_safe (safe_rngIndex c E n) fun s _ _ => ⟨_, _, rngIndex_run E hn s⟩

theorem ends_rngU32 (c : Cfg) (E : Env) {lo hi : Word} (h : lo < hi) : Ends c (rngU32 E lo hi) :=
  Ends.of_safe (safe_rngU32 c E fun _ => h) fun s _ _ => ⟨_, _, rngU32_run E h s⟩

/-! ### The steps -/

theorem ends_opRandom {c : Cfg} (wf : CfgWellFormed c) (E : Env) (j : Fin 3) (sr : Word) :
    Ends c (opRandom E j sr) := by
  refine Ends.of_safe (safe_opRandom c E j sr) fun s _ hc => ?_
  subst hc
  have h5 := wf.counts.2.2
  rcases opRandom_cases E j sr s with ⟨_, _, _, _, _, _, g⟩ | ⟨hz, -⟩ | ⟨k, _, hd, -⟩
  · exact ⟨_, _, g⟩
  · obtain ⟨k, hk⟩ := wf.weight
    exact absurd (hz ⟨k.val, by omega⟩) hk
  · have := wf.ratios ⟨k.val, by have := k.isLt; omega⟩
    rw [floatRange, show s.cfg.pool[(⟨k.val, by have := k.isLt; omega⟩ : Fin 5)] = poolEntry s.cfg k from rfl, hd]
      at this
    cases this

theorem ends_adsrNew {c : Cfg} (wf : CfgWellFormed c) (E : Env) : Ends c (adsrNew E) := by
  refine Ends.of_safe (safe_adsrNew c E) fun s _ hc => ?_
  subst hc
  rcases adsrNew_cases E s with ⟨_, _, _, _, _, g⟩ | ⟨h | h | h | h, -⟩
  · exact ⟨_, _, g⟩
  · exact absurd wf.att (by simp [floatRange, h])
  · exact absurd wf.dec (by simp [floatRange, h])
  · exact absurd wf.sus (by simp [floatRange, h])
  · exact absurd wf.rel (by simp [floatRange, h])

theorem ends_fltNew {c : Cfg} (wf : CfgWellFormed c) (E : Env) (sr : Word) : Ends c (fltNew E sr) := by
  refine Ends.of_safe (safe_fltNew c E sr) fun s _ hc => ?_
  subst hc
  rcases fltNew_cases E sr s with ⟨_, _, _, g⟩ | ⟨h | h, -⟩
  · exact ⟨_, _, g⟩
  · exact absurd wf.cutoff (by simp [floatRange, h])
  · exact absurd wf.q (by simp [floatRange, h])

theorem ends_noteNew (c : Cfg) (E : Env) (i : Fin 8) : Ends c (noteNew E i) := by
  refine Ends.of_safe (safe_noteNew c E i) fun s hl _ => ?_
  rcases noteNew_cases E i s with ⟨_, _, _, _, _, _, g⟩ | ⟨h, -⟩ | ⟨h, -⟩
  · exact ⟨_, _, g⟩
  · have := hl.length
    simp [h] at this
  · have := hl.scale
    omega

theorem ends_fillNotes (c : Cfg) (E : Env) : ∀ l : List (Fin 8), Ends c (fillNotes E l)
  | [] => Ends.pure ()
  | i :: rest => by
    refine Ends.read fun s _ _ => ?_
    show Ends c (if i.val < s.seq.length.toNat then _ else _)
    split
    · exact Ends.bind (ends_noteNew c E i) fun _ => ends_fillNotes c E rest
    · exact Ends.bind (Ends.update (safe_noteDefault c i)) fun _ => ends_fillNotes c E rest

theorem ends_rngF32 (c : Cfg) (E : Env) {lo hi : F32} (h : floatRange lo hi) : Ends c (rngF32 E lo hi) := by
  refine Ends.of_safe (safe_rngF32 c E fun _ => h) fun s _ _ => ?_
  rcases rngF32_cases E lo hi s with ⟨_, _, _, _, g⟩ | ⟨e, -⟩
  · exact ⟨_, _, g⟩
  · exact absurd h (by simp [floatRange, e])

theorem ends_setClock (c : Cfg) (k : Fin 4) (x : Clock) : Ends c (updateState (·.setClock k x)) :=
  Ends.update (safe_setClock c k x)

/-- SEQ.NEW: its lists are not empty and its ranges are ranges. -/
theorem ends_seqNew {c : Cfg} (wf : CfgWellFormed c) (E : Env) (sr : Word) : Ends c (seqNew E sr) :=
  Ends.read fun s _ hc => by
    subst hc
    obtain ⟨c1, c2, -⟩ := wf.counts
    refine Ends.bind (ends_rngF32 _ E wf.tempo) fun bpm => Ends.bind (Ends.update
      (Safe.update fun _ hl hc => ⟨hl.setSeqRegs _ _ (by exact hl.scale) (by exact hl.length), hc⟩)) fun _ =>
      Ends.bind (ends_rngIndex _ E (by omega)) fun k => Ends.bind (Ends.update
        (Safe.update fun _ hl hc => ⟨hl.setSeqRegs _ _ ?_ (by exact hl.length), hc⟩)) fun _ =>
        Ends.bind (ends_rngIndex _ E (by omega)) fun m => Ends.bind (Ends.update
          (Safe.update fun _ hl hc => ⟨hl.setSeqRegs _ _ (by exact hl.scale) (metreAt_range s.cfg m), hc⟩)) fun _ =>
          Ends.bind (ends_fillNotes _ E _) fun _ => Ends.bind (ends_rngU32 _ E wf.seqMut) fun _ =>
            Ends.bind (ends_setClock _ 0 _) fun _ => Ends.bind (ends_setClock _ 1 _) fun _ => Ends.update
              (Safe.update fun _ hl hc => ⟨hl.setSeqRegs _ _ (by exact hl.scale) (by exact hl.length), hc⟩)
    have h1 := s.cfg.nScales.isLt
    have h2 := k.isLt
    rw [BitVec.toNat_ofNat, Nat.mod_eq_of_lt (by omega)]
    omega

/-- SYN.NEW: its pool has a weight and its ranges are ranges. -/
theorem ends_synNew {c : Cfg} (wf : CfgWellFormed c) (E : Env) (sr : Word) : Ends c (synNew E sr) :=
  Ends.read fun _ _ hc => by
    subst hc
    exact Ends.bind (Ends.update (Safe.update fun _ hl hc => ⟨hl.setSynSr _, hc⟩)) fun _ =>
      Ends.bind (Ends.update (safe_opNew _ _ _ _ _)) fun _ => Ends.bind (ends_opRandom wf E _ _) fun _ =>
        Ends.bind (ends_opRandom wf E _ _) fun _ => Ends.bind (ends_adsrNew wf E) fun _ =>
          Ends.bind (ends_fltNew wf E _) fun _ => Ends.bind (ends_rngU32 _ E wf.synMut) fun _ =>
            ends_setClock _ 3 _

/-- SYN.MUTATE: as SYN.NEW. -/
theorem ends_synMutate {c : Cfg} (wf : CfgWellFormed c) (E : Env) : Ends c (synMutate E) :=
  Ends.read fun _ _ hc => by
    subst hc
    exact Ends.bind (ends_rngIndex _ E (by decide)) fun _ => Ends.bind (ends_opRandom wf E _ _) fun _ =>
      Ends.bind (ends_rngU32 _ E wf.synMut) fun _ => ends_setClock _ 3 _

/-- SEQ.MUTATE, of a Sequence with two slots or more. -/
theorem seqMutate_ends {s : State} (wf : CfgWellFormed s.cfg) (E : Env) (hl : Legal s)
    (h2 : 2 ≤ s.seq.length.toNat) : ∃ t, seqMutate E s = .ok () t := by
  have h8 := hl.length.2
  have hsc := hl.scale
  rcases seqMutate_cases E s (by omega) h8 with ⟨_, _, _, _, _, _, _, _, _, _, g⟩ | ⟨h, -⟩ | ⟨h, -⟩ | ⟨h, -⟩
  · exact ⟨_, g⟩
  · rw [h] at h2
    exact absurd h2 (by decide)
  · exact absurd wf.seqMut h
  · omega

/-- ENG.NEW: both its constructions. -/
theorem ends_engNew {c : Cfg} (wf : CfgWellFormed c) (E : Env) (seed : DWord) (sr : Word) :
    Ends c (engNew E seed sr) :=
  Ends.bind (Ends.update (Safe.update fun _ hl hc => ⟨hl.setReady _, hc⟩)) fun _ =>
    Ends.bind (Ends.update (safe_rngSeed c E seed)) fun _ => Ends.bind (ends_seqNew wf E sr) fun _ =>
      Ends.bind (ends_synNew wf E sr) fun _ => Ends.update (Safe.update fun _ hl hc => ⟨hl.setReady _, hc⟩)

end Sys2Proof.Machine
end

