-- ==== Sys2Proof/Laws/Errors.lean ====
section
/-! SUPPORT. Which errors the steps of the operations can end in (spec/60_exceptions.md R200): the sequencing
law, and one lemma per step. -/

namespace Sys2Proof.Machine

variable {α β : Type}

/-- An action that raises only statuses of `P`. -/
def Raises (P : Status → Prop) (m : M α) : Prop := ∀ s e t, m s = .error (.raise e) t → P e

/-- SelectFail and nothing else. -/
abbrev RaisesSelect (m : M α) : Prop := Raises (fun e => e = .errSelect) m

/-- No error at all. -/
abbrev NeverRaises (m : M α) : Prop := Raises (fun _ => False) m

theorem Raises.mono {P Q : Status → Prop} {m : M α} (h : Raises P m) (k : ∀ e, P e → Q e) : Raises Q m :=
  fun s e t x => k e (h s e t x)

theorem NeverRaises.select {m : M α} (h : NeverRaises m) : RaisesSelect m := Raises.mono h fun _ => False.elim

theorem Raises.bind {P : Status → Prop} {x : M α} {f : α → M β} (hx : Raises P x) (hf : ∀ a, Raises P (f a)) :
    Raises P (x >>= f) := by
  intro s e t h
  rw [bind_run] at h
  cases hs : x s with
  | ok a u => rw [hs] at h; exact hf a u e t h
  | error y u => rw [hs] at h; cases h; exact hx s e _ hs

theorem Raises.pure {P : Status → Prop} (a : α) : Raises P (Pure.pure a : M α) := fun _ _ _ h => by cases h

theorem Raises.readState {P : Status → Prop} : Raises P Machine.readState := fun _ _ _ h => by cases h

theorem Raises.update {P : Status → Prop} (f : State → State) : Raises P (updateState f) :=
  fun _ _ _ h => by cases h

theorem Raises.stopWith {P : Status → Prop} (f : Fault) : Raises P (Machine.stopWith f : M α) :=
  fun _ _ _ h => by cases h

theorem Raises.raise {P : Status → Prop} {e : Status} (h : P e) : Raises P (Machine.raise e : M α) :=
  fun _ _ _ x => by cases x; exact h

theorem Raises.doWhen {P : Status → Prop} {a : M Unit} (b : Bool) (h : Raises P a) :
    Raises P (Machine.doWhen b a) := by
  cases b
  · exact Raises.pure ()
  · exact h

/-! ### The draws -/

theorem raises_rngU32 (E : Env) (lo hi : Word) : NeverRaises (rngU32 E lo hi) := by
  intro s e t h
  rcases rngU32_cases E lo hi s with ⟨_, _, _, _, g⟩ | ⟨_, g⟩ <;> rw [g] at h <;> cases h

theorem raises_rngF32 (E : Env) (lo hi : F32) : NeverRaises (rngF32 E lo hi) := by
  intro s e t h
  rcases rngF32_cases E lo hi s with ⟨_, _, _, _, g⟩ | ⟨_, g⟩ <;> rw [g] at h <;> cases h

theorem raises_rngIndex (E : Env) (n : Nat) : RaisesSelect (rngIndex E n) := by
  intro s e t h
  rcases rngIndex_cases E n s with ⟨_, _, g⟩ | ⟨_, g⟩ <;> rw [g] at h <;> cases h
  rfl

theorem raises_rngIndex_pos (E : Env) {n : Nat} (hn : 0 < n) : NeverRaises (rngIndex E n) := by
  intro s e t h
  rw [rngIndex_run E hn] at h
  cases h

theorem raises_rngWeighted (E : Env) {n : Nat} (w : Fin n → Word) : RaisesSelect (rngWeighted E w) := by
  intro s e t h
  rcases rngWeighted_cases E w s with ⟨_, _, _, g⟩ | ⟨_, g⟩ <;> rw [g] at h <;> cases h
  rfl

/-! ### The steps -/

theorem raises_clkTick (k : Fin 4) : NeverRaises (clkTick k) := fun s e t h => by
  rw [clkTick_run] at h; cases h

theorem raises_clkReady (k : Fin 4) : NeverRaises (clkReady k) := fun s e t h => by
  rw [clkReady_run] at h; cases h

theorem raises_signal (E : Env) (w : WaveKind) (sr : Word) (f : F32) (i : Word) :
    NeverRaises (signal E w sr f i) := by
  intro s e t h
  rcases signal_cases E w sr f i s with ⟨_, g⟩ | ⟨_, _, g⟩ <;> rw [g] at h <;> cases h

theorem raises_opRandom (E : Env) (j : Fin 3) (sr : Word) : RaisesSelect (opRandom E j sr) := by
  intro s e t h
  rcases opRandom_cases E j sr s with ⟨_, _, _, _, _, _, g⟩ | ⟨_, g⟩ | ⟨_, _, _, g⟩ <;> rw [g] at h <;> cases h
  rfl

theorem raises_opNext (E : Env) (j : Fin 3) : NeverRaises (opNext E j) :=
  Raises.bind (Raises.update _) fun _ => Raises.bind Raises.readState fun s => by
    cases waveOf (s.oper j).wave
    · exact Raises.stopWith _
    · exact raises_signal _ _ _ _ _

theorem raises_adsrNew (E : Env) : NeverRaises (adsrNew E) := by
  intro s e t h
  rcases adsrNew_cases E s with ⟨_, _, _, _, _, g⟩ | ⟨_, _, g⟩ <;> rw [g] at h <;> cases h

theorem raises_adsrStart (E : Env) (l : Word) : NeverRaises (adsrStart E l) := fun s e t h => by
  rw [adsrStart_run] at h; cases h

theorem raises_adsrNext (E : Env) : NeverRaises (adsrNext E) := by
  intro s e t h
  rw [adsrNext_run] at h
  cases g : adsrAfter E.num s.syn.adsr (s.clock 2) <;> rw [g] at h <;> cases h

theorem raises_fltNew (E : Env) (sr : Word) : NeverRaises (fltNew E sr) := by
  intro s e t h
  rcases fltNew_cases E sr s with ⟨_, _, _, g⟩ | ⟨_, _, g⟩ <;> rw [g] at h <;> cases h

theorem raises_fltGen (E : Env) (x : F32) : NeverRaises (fltGen E x) := fun s e t h => by
  rw [fltGen_run] at h; cases h

theorem raises_noteNew (E : Env) (i : Fin 8) : NeverRaises (noteNew E i) := by
  intro s e t h
  rcases noteNew_cases E i s with ⟨_, _, _, _, _, _, g⟩ | ⟨_, g⟩ | ⟨_, _, g⟩ <;> rw [g] at h <;> cases h

theorem raises_fillNotes (E : Env) : ∀ l : List (Fin 8), NeverRaises (fillNotes E l)
  | [] => Raises.pure ()
  | i :: rest => Raises.bind Raises.readState fun s => by
      by_cases h : i.val < s.seq.length.toNat
      · simp only [h, if_true]
        exact Raises.bind (raises_noteNew E i) fun _ => raises_fillNotes E rest
      · simp only [h, if_false]
        exact Raises.bind (Raises.update _) fun _ => raises_fillNotes E rest

theorem raises_seqNew (E : Env) (sr : Word) : RaisesSelect (seqNew E sr) :=
  Raises.bind Raises.readState fun _ => Raises.bind (raises_rngF32 E _ _).select fun _ =>
    Raises.bind (Raises.update _) fun _ => Raises.bind (raises_rngIndex E _) fun _ =>
      Raises.bind (Raises.update _) fun _ => Raises.bind (raises_rngIndex E _) fun _ =>
        Raises.bind (Raises.update _) fun _ => Raises.bind (raises_fillNotes E _).select fun _ =>
          Raises.bind (raises_rngU32 E _ _).select fun _ => Raises.bind (Raises.update _) fun _ =>
            Raises.bind (Raises.update _) fun _ => Raises.update _

theorem raises_seqMutate (E : Env) : RaisesSelect (seqMutate E) :=
  Raises.bind Raises.readState fun s => by
    split
    · exact Raises.stopWith _
    · refine Raises.bind (raises_rngIndex E _) fun k => ?_
      split
      · exact Raises.bind (raises_noteNew E _).select fun _ =>
          Raises.bind (raises_rngU32 E _ _).select fun _ => Raises.update _
      · exact Raises.stopWith _

theorem raises_seqStep : NeverRaises seqStep :=
  Raises.bind Raises.readState fun s => by
    split
    · exact Raises.stopWith _
    · exact Raises.bind (Raises.update _) fun _ => Raises.bind Raises.readState fun _ =>
        Raises.bind (Raises.update _) fun _ => Raises.pure _

theorem raises_seqNext (E : Env) : RaisesSelect (seqNext E) :=
  Raises.bind (raises_clkTick 0).select fun b => Raises.bind (Raises.doWhen b (raises_seqMutate E)) fun _ =>
    Raises.bind (raises_clkTick 1).select fun fired => by
      cases fired
      · exact Raises.pure _
      · exact Raises.bind raises_seqStep.select fun _ => Raises.pure _

theorem raises_synNew (E : Env) (sr : Word) : RaisesSelect (synNew E sr) :=
  Raises.bind Raises.readState fun _ => Raises.bind (Raises.update _) fun _ =>
    Raises.bind (Raises.update _) fun _ => Raises.bind (raises_opRandom E _ _) fun _ =>
      Raises.bind (raises_opRandom E _ _) fun _ => Raises.bind (raises_adsrNew E).select fun _ =>
        Raises.bind (raises_fltNew E _).select fun _ => Raises.bind (raises_rngU32 E _ _).select fun _ =>
          Raises.update _

theorem raises_synMutate (E : Env) : RaisesSelect (synMutate E) :=
  Raises.bind Raises.readState fun _ => Raises.bind (raises_rngIndex E _) fun _ =>
    Raises.bind (raises_opRandom E _ _) fun _ => Raises.bind (raises_rngU32 E _ _).select fun _ => Raises.update _

theorem raises_synPlay (E : Env) (f : F32) (l : Word) : RaisesSelect (synPlay E f l) :=
  Raises.bind (raises_clkReady 3).select fun b => Raises.bind (Raises.doWhen b (raises_synMutate E)) fun _ =>
    Raises.bind (Raises.update _) fun _ => Raises.bind (Raises.update _) fun _ =>
      Raises.bind (Raises.update _) fun _ => (raises_adsrStart E l).select

theorem raises_synNext (E : Env) : NeverRaises (synNext E) :=
  Raises.bind (raises_clkTick 3) fun _ => Raises.bind (raises_opNext E _) fun _ =>
    Raises.bind (raises_opNext E _) fun _ => Raises.bind (raises_opNext E _) fun _ =>
      Raises.bind (raises_adsrNext E) fun _ => raises_fltGen E _

theorem raises_engNew (E : Env) (seed : DWord) (sr : Word) : RaisesSelect (engNew E seed sr) :=
  Raises.bind (Raises.update _) fun _ => Raises.bind (Raises.update _) fun _ =>
    Raises.bind (raises_seqNew E sr) fun _ => Raises.bind (raises_synNew E sr) fun _ => Raises.update _

theorem raises_playEvent (E : Env) (ev : Option (Word × F32)) : RaisesSelect (playEvent E ev) := by
  cases ev
  · exact Raises.pure ()
  · exact raises_synPlay E _ _

end Sys2Proof.Machine
end

