-- ==== Sys2Proof/Laws/Frames.lean ====
section
/-! SUPPORT. What each step of the operations leaves unchanged: a relation between the state before and
after that every part of an action keeps, the action keeps (`Keeps.bind`), and one frame lemma per step. -/

namespace Sys2Proof.Machine

variable {α β : Type}

/-- However an action ends, short of a model-level fault, its states before and after are related. -/
def Keeps (R : State → State → Prop) (m : M α) : Prop :=
  ∀ s, (∀ a t, m s = .ok a t → R s t) ∧ (∀ e t, m s = .error (.raise e) t → R s t)

theorem Keeps.mono {R Q : State → State → Prop} {m : M α} (h : Keeps R m) (hq : ∀ s t, R s t → Q s t) :
    Keeps Q m :=
  fun s => ⟨fun a t e => hq _ _ ((h s).1 a t e), fun x t e => hq _ _ ((h s).2 x t e)⟩

/-- A sequence keeps a transitive relation that its parts keep. -/
theorem Keeps.bind {R : State → State → Prop} (htrans : ∀ {a b c}, R a b → R b c → R a c)
    {x : M α} {f : α → M β} (hx : Keeps R x) (hf : ∀ a, Keeps R (f a)) : Keeps R (x >>= f) := by
  intro s
  rw [bind_run]
  cases h : x s with
  | ok a u =>
    exact ⟨fun b t e => htrans ((hx s).1 a u h) ((hf a u).1 b t e),
      fun b t e => htrans ((hx s).1 a u h) ((hf a u).2 b t e)⟩
  | error e u =>
    refine ⟨fun b t e => by simp at e, fun b t he => ?_⟩
    cases he
    exact (hx s).2 _ _ h

/-- The registers outside `W` read as before; the generator is unchanged unless `d`; the access level,
the configuration, the host's events and the port are unchanged. -/
structure Frame (W : Reg → Bool) (d : Bool) (s t : State) : Prop where
  regs : ∀ r : Reg, W r = false → r.read t = r.read s
  rng : d = false → t.rng = s.rng
  testEn : t.testEn = s.testEn
  cfg : t.cfg = s.cfg
  pending : t.pending = s.pending
  arg0 : t.arg0 = s.arg0
  arg1 : t.arg1 = s.arg1
  resp : t.resp = s.resp

theorem Frame.refl (W : Reg → Bool) (d : Bool) (s : State) : Frame W d s s :=
  ⟨fun _ _ => rfl, fun _ => rfl, rfl, rfl, rfl, rfl, rfl, rfl⟩

theorem Frame.trans {W : Reg → Bool} {d : Bool} {s t u : State} (h : Frame W d s t) (k : Frame W d t u) :
    Frame W d s u where
  regs r hr := (k.regs r hr).trans (h.regs r hr)
  rng hd := (k.rng hd).trans (h.rng hd)
  testEn := k.testEn.trans h.testEn
  cfg := k.cfg.trans h.cfg
  pending := k.pending.trans h.pending
  arg0 := k.arg0.trans h.arg0
  arg1 := k.arg1.trans h.arg1
  resp := k.resp.trans h.resp

theorem Frame.mono {W V : Reg → Bool} {d e : Bool} {s t : State} (h : Frame W d s t)
    (hw : ∀ r, W r = true → V r = true) (hd : d = true → e = true) : Frame V e s t where
  regs r hr := h.regs r (by cases hW : W r with
    | false => rfl
    | true => simp [hw r hW] at hr)
  rng he := h.rng (by cases d with
    | false => rfl
    | true => simp [hd rfl] at he)
  testEn := h.testEn
  cfg := h.cfg
  pending := h.pending
  arg0 := h.arg0
  arg1 := h.arg1
  resp := h.resp

/-- An action that writes the registers of `W` only, and draws only if `d`. -/
abbrev Writes (W : Reg → Bool) (d : Bool) (m : M α) : Prop := Keeps (Frame W d) m

theorem Writes.mono {W V : Reg → Bool} {d e : Bool} {m : M α} (h : Writes W d m)
    (hw : ∀ r, W r = true → V r = true) (hd : d = true → e = true) : Writes V e m :=
  Keeps.mono h fun _ _ hf => hf.mono hw hd

theorem Writes.bind {W : Reg → Bool} {d : Bool} {x : M α} {f : α → M β} (hx : Writes W d x)
    (hf : ∀ a, Writes W d (f a)) : Writes W d (x >>= f) :=
  Keeps.bind (R := Frame W d) (fun h k => Frame.trans h k) hx hf

theorem Writes.pure (W : Reg → Bool) (d : Bool) (a : α) : Writes W d (Pure.pure a : M α) := by
  intro s
  exact ⟨fun _ t e => (by cases e; exact Frame.refl W d s), fun _ _ e => (by cases e)⟩

theorem Writes.readState (W : Reg → Bool) (d : Bool) : Writes W d Machine.readState := by
  intro s
  exact ⟨fun _ t e => (by cases e; exact Frame.refl W d s), fun _ _ e => (by cases e)⟩

theorem Writes.raise (W : Reg → Bool) (d : Bool) (e : Status) : Writes W d (Machine.raise e : M α) := by
  intro s
  exact ⟨fun _ _ h => (by cases h), fun _ _ h => (by cases h; exact Frame.refl W d s)⟩

theorem Writes.stopWith (W : Reg → Bool) (d : Bool) (f : Fault) : Writes W d (Machine.stopWith f : M α) := by
  intro s
  exact ⟨fun _ _ h => (by cases h), fun _ _ h => (by cases h)⟩

theorem Writes.doWhen {W : Reg → Bool} {d b : Bool} {a : M Unit} (h : Writes W d a) :
    Writes W d (Machine.doWhen b a) := by
  cases b
  · exact Writes.pure W d ()
  · exact h

theorem Writes.update {W : Reg → Bool} {d : Bool} {f : State → State} (h : ∀ s, Frame W d s (f s)) :
    Writes W d (updateState f) := by
  intro s
  exact ⟨fun _ t e => (by cases e; exact h s), fun _ _ e => (by cases e)⟩

theorem Writes.selectInst (W : Reg → Bool) (d : Bool) (n : Nat) (inst : Byte) :
    Writes W d (Machine.selectInst n inst) := by
  unfold Machine.selectInst
  split
  · exact Writes.pure W d _
  · exact Writes.raise W d _

/-! ### The updates -/

theorem frame_setRng (W : Reg → Bool) (s : State) (r : RngState) : Frame W true s (s.setRng r) :=
  ⟨fun x _ => by cases x <;> rfl, fun h => by simp at h, rfl, rfl, rfl, rfl, rfl, rfl⟩

theorem frame_setReady (s : State) (b : Bool) : Frame (fun r => r = .engStatus) false s (s.setReady b) :=
  ⟨fun x hx => by cases x <;> first | rfl | simp at hx, fun _ => rfl, rfl, rfl, rfl, rfl, rfl, rfl⟩

/-- The registers of Clock `k`. -/
def ofClock (k : Fin 4) : Reg → Bool
  | .clkTick j | .clkDeadline j => j = k
  | _ => false

theorem frame_setClock (s : State) (k : Fin 4) (c : Clock) : Frame (ofClock k) false s (s.setClock k c) := by
  refine ⟨fun x hx => ?_, fun _ => rfl, rfl, rfl, rfl, rfl, rfl, rfl⟩
  cases x <;> first
    | rfl
    | (rename_i j; have hj : k ≠ j := fun e => by simp [ofClock, e] at hx
       simp [Reg.read, hj])

theorem frame_setTick (s : State) (k : Fin 4) (v : Word) :
    Frame (fun r => r = .clkTick k) false s (s.setClock k ⟨v, (s.clock k).deadline⟩) := by
  refine ⟨fun x hx => ?_, fun _ => rfl, rfl, rfl, rfl, rfl, rfl, rfl⟩
  cases x with
  | clkTick j =>
    have hj : k ≠ j := fun e => by simp [e] at hx
    simp [Reg.read, hj]
  | clkDeadline j =>
    by_cases hj : k = j
    · subst hj; simp [Reg.read]
    · simp [Reg.read, hj]
  | _ => rfl

/-- The registers of Note slot `i`. -/
def ofNote (i : Fin 8) : Reg → Bool
  | .noteDur j | .noteFreq j => j = i
  | _ => false

theorem frame_setNote (s : State) (i : Fin 8) (n : Note) : Frame (ofNote i) false s (s.setNote i n) := by
  refine ⟨fun x hx => ?_, fun _ => rfl, rfl, rfl, rfl, rfl, rfl, rfl⟩
  cases x <;> first
    | rfl
    | (rename_i j; have hj : i ≠ j := fun e => by simp [ofNote, e] at hx
       simp [Reg.read, hj])

theorem frame_setSynSr (s : State) (v : Word) : Frame (fun r => r = .synSr) false s (s.setSynSr v) :=
  ⟨fun x hx => by cases x <;> first | rfl | simp at hx, fun _ => rfl, rfl, rfl, rfl, rfl, rfl, rfl⟩

theorem frame_setOper (s : State) (j : Fin 3) (o : Oper) : Frame (ofOperator j) false s (s.setOper j o) := by
  refine ⟨fun x hx => ?_, fun _ => rfl, rfl, rfl, rfl, rfl, rfl, rfl⟩
  cases x <;> first
    | rfl
    | (rename_i k; have hk : j ≠ k := fun e => by simp [ofOperator, e] at hx
       simp [Reg.read, hk])

theorem frame_setFreq (s : State) (j : Fin 3) (v : F32) :
    Frame (fun r => r = .opFreq j) false s (s.setOper j { s.oper j with freq := v }) := by
  refine ⟨fun x hx => ?_, fun _ => rfl, rfl, rfl, rfl, rfl, rfl, rfl⟩
  cases x with
  | opFreq k =>
    have hk : j ≠ k := fun e => by simp [e] at hx
    simp [Reg.read, hk]
  | opSr k | opRatio k | opWave k | opPhase k =>
    by_cases hk : j = k
    · subst hk; simp [Reg.read]
    · simp [Reg.read, hk]
  | _ => rfl

theorem frame_setPhase (s : State) (j : Fin 3) (v : Word) :
    Frame (fun r => r = .opPhase j) false s (s.setOper j { s.oper j with phase := v }) := by
  refine ⟨fun x hx => ?_, fun _ => rfl, rfl, rfl, rfl, rfl, rfl, rfl⟩
  cases x with
  | opPhase k =>
    have hk : j ≠ k := fun e => by simp [e] at hx
    simp [Reg.read, hk]
  | opSr k | opRatio k | opWave k | opFreq k =>
    by_cases hk : j = k
    · subst hk; simp [Reg.read]
    · simp [Reg.read, hk]
  | _ => rfl

theorem frame_setAdsr (s : State) (a : Adsr) : Frame writesAdsr false s (s.setAdsr a) :=
  ⟨fun x hx => by cases x <;> first | rfl | simp [writesAdsr] at hx, fun _ => rfl, rfl, rfl, rfl, rfl, rfl, rfl⟩

theorem frame_setAdsrStart (s : State) (v d : F32) (l : Word) (x : BitVec 3) :
    Frame writesAdsrStart false s
      (s.setAdsr { s.syn.adsr with value := v, delta := d, length := l, state := x }) :=
  ⟨fun x hx => by cases x <;> first | rfl | simp [writesAdsrStart] at hx, fun _ => rfl, rfl, rfl, rfl, rfl, rfl, rfl⟩

theorem frame_setAdsrStep (s : State) (v d : F32) (x : BitVec 3) :
    Frame writesAdsrStep false s (s.setAdsr { s.syn.adsr with value := v, delta := d, state := x }) :=
  ⟨fun x hx => by cases x <;> first | rfl | simp [writesAdsrStep] at hx, fun _ => rfl, rfl, rfl, rfl, rfl, rfl, rfl⟩

theorem frame_setFlt (s : State) (f : Filter) : Frame writesFilter false s (s.setFlt f) :=
  ⟨fun x hx => by cases x <;> first | rfl | simp [writesFilter] at hx, fun _ => rfl, rfl, rfl, rfl, rfl, rfl, rfl⟩

theorem frame_setHistory (s : State) (px : F32) (h : Vector F32 4) (p : Vector F32 3) :
    Frame writesFilterHistory false s (s.setFlt { s.syn.flt with px := px, s := h, ps := p }) :=
  ⟨fun x hx => by cases x <;> first | rfl | simp [writesFilterHistory] at hx, fun _ => rfl, rfl, rfl, rfl, rfl, rfl, rfl⟩

/-- The registers of the Sequence itself, its Notes and Clocks left out. -/
def ofSeq : Reg → Bool
  | .seqTempo | .seqScale | .seqLength | .seqCursor => true
  | _ => false

theorem frame_setSeqRegs (s : State) (tp : Word) (sc : BitVec 5) (l : BitVec 4) (c : BitVec 3) :
    Frame ofSeq false s
      (s.setSeq { s.seq with tempo := tp, scale := sc, length := l, cursor := c }) :=
  ⟨fun x hx => by cases x <;> first | rfl | simp [ofSeq] at hx, fun _ => rfl, rfl, rfl, rfl, rfl, rfl, rfl⟩

theorem frame_setCursor (s : State) (c : BitVec 3) :
    Frame (fun r => r = .seqCursor) false s (s.setSeq { s.seq with cursor := c }) :=
  ⟨fun x hx => by cases x <;> first | rfl | simp at hx, fun _ => rfl, rfl, rfl, rfl, rfl, rfl, rfl⟩

/-! ### The draws -/

theorem writes_rngIndex (W : Reg → Bool) (E : Env) (n : Nat) : Writes W true (rngIndex E n) := by
  intro s
  rcases rngIndex_cases E n s with ⟨k, r, h⟩ | ⟨-, h⟩ <;> rw [h] <;>
    refine ⟨fun _ t e => ?_, fun _ t e => ?_⟩ <;> cases e
  · exact frame_setRng W s r
  · exact Frame.refl W true s

theorem writes_rngWeighted (W : Reg → Bool) (E : Env) {n : Nat} (w : Fin n → Word) :
    Writes W true (rngWeighted E w) := by
  intro s
  rcases rngWeighted_cases E w s with ⟨k, r, -, h⟩ | ⟨-, h⟩ <;> rw [h] <;>
    refine ⟨fun _ t e => ?_, fun _ t e => ?_⟩ <;> cases e
  · exact frame_setRng W s r
  · exact Frame.refl W true s

theorem writes_rngU32 (W : Reg → Bool) (E : Env) (lo hi : Word) : Writes W true (rngU32 E lo hi) := by
  intro s
  rcases rngU32_cases E lo hi s with ⟨k, r, -, -, h⟩ | ⟨-, h⟩ <;> rw [h] <;>
    refine ⟨fun _ t e => ?_, fun _ t e => ?_⟩ <;> cases e
  · exact frame_setRng W s r

theorem writes_rngF32 (W : Reg → Bool) (E : Env) (lo hi : F32) : Writes W true (rngF32 E lo hi) := by
  intro s
  rcases rngF32_cases E lo hi s with ⟨k, r, -, -, h⟩ | ⟨-, h⟩ <;> rw [h] <;>
    refine ⟨fun _ t e => ?_, fun _ t e => ?_⟩ <;> cases e
  · exact frame_setRng W s r

/-! ### The steps -/

theorem writes_clkDeadline (k : Fin 4) (d : Word) : Writes (ofClock k) false (clkDeadline k d) :=
  Writes.update fun s => frame_setClock s k _

theorem writes_clkReset (k : Fin 4) (d : Word) : Writes (ofClock k) false (clkReset k d) :=
  Writes.update fun s => frame_setClock s k _

theorem writes_clkDefault (k : Fin 4) : Writes (ofClock k) false (clkDefault k) :=
  Writes.update fun s => frame_setClock s k _

/-- CLK.TICK writes the tick only. -/
theorem writes_clkTick (k : Fin 4) : Writes (fun r => r = .clkTick k) false (clkTick k) := by
  intro s
  refine ⟨fun b t h => ?_, fun e t h => ?_⟩ <;> simp [clkTick] at h
  obtain ⟨-, rfl⟩ := h
  exact frame_setTick s k _

theorem writes_clkReady (W : Reg → Bool) (k : Fin 4) : Writes W false (clkReady k) :=
  Writes.bind (Writes.readState _ _) fun _ => Writes.pure _ _ _

theorem writes_sigSquare (W : Reg → Bool) (d : Bool) (sr : Word) (f : F32) (i : Word) :
    Writes W d (sigSquare sr f i) := by
  unfold sigSquare
  split
  · exact Writes.pure _ _ _
  · exact Writes.stopWith _ _ _

theorem writes_signal (W : Reg → Bool) (d : Bool) (E : Env) (w : WaveKind) (sr : Word) (f : F32) (i : Word) :
    Writes W d (signal E w sr f i) := by
  cases w
  · exact Writes.pure _ _ _
  · exact writes_sigSquare _ _ _ _ _
  · exact Writes.pure _ _ _

theorem writes_opNew (j : Fin 3) (ratio : F32) (w : WaveKind) (sr : Word) :
    Writes (ofOperator j) false (opNew j ratio w sr) :=
  Writes.update fun s => frame_setOper s j _

theorem writes_opRandom (E : Env) (j : Fin 3) (sr : Word) : Writes (ofOperator j) true (opRandom E j sr) :=
  Writes.bind (Writes.readState _ _) fun _ =>
    Writes.bind (writes_rngWeighted _ E _) fun _ =>
      Writes.bind (writes_rngF32 _ E _ _) fun _ =>
        (writes_opNew j _ _ sr).mono (fun _ h => h) (fun _ => rfl)

theorem writes_opSetf (E : Env) (j : Fin 3) (base : F32) :
    Writes (fun r => r = .opFreq j) false (opSetf E j base) :=
  Writes.update fun s => frame_setFreq s j _

theorem writes_opNext (E : Env) (j : Fin 3) : Writes (fun r => r = .opPhase j) false (opNext E j) := by
  refine Writes.bind (Writes.update fun s => frame_setPhase s j _) fun _ =>
    Writes.bind (Writes.readState _ _) fun s => ?_
  split
  · exact writes_signal _ _ E _ _ _ _
  · exact Writes.stopWith _ _ _

theorem ofClock_two (r : Reg) : ofClock 2 r = true →
    writesAdsrStep r = true ∧ writesAdsrStart r = true ∧ writesAdsr r = true := by
  cases r <;> simp [ofClock, writesAdsrStep, writesAdsrStart, writesAdsr]

theorem writes_adsrNew (E : Env) : Writes writesAdsr true (adsrNew E) :=
  Writes.bind (Writes.readState _ _) fun _ =>
    Writes.bind (writes_rngF32 _ E _ _) fun _ =>
      Writes.bind (writes_rngF32 _ E _ _) fun _ =>
        Writes.bind (writes_rngF32 _ E _ _) fun _ =>
          Writes.bind (writes_rngF32 _ E _ _) fun _ =>
            Writes.bind (Writes.update fun s => (frame_setAdsr s _).mono (fun _ h => h) fun _ => rfl)
              fun _ => (writes_clkDefault 2).mono (fun r h => (ofClock_two r h).2.2) fun _ => rfl

/-- A part may write less and need not draw. -/
theorem Writes.weaken {W V : Reg → Bool} {m : M α} (d : Bool) (h : Writes W false m)
    (hw : ∀ r, W r = true → V r = true) : Writes V d m :=
  Writes.mono h hw fun h => by cases h

theorem writes_adsrStart (E : Env) (l : Word) : Writes writesAdsrStart false (adsrStart E l) :=
  Writes.bind (Writes.update fun s => frame_setAdsrStart s fZero s.syn.adsr.delta l _) fun _ =>
    Writes.bind (Writes.update fun s => frame_setAdsrStart s s.syn.adsr.value _ s.syn.adsr.length
      s.syn.adsr.state) fun _ =>
      Writes.bind (Writes.readState _ _) fun _ =>
        (writes_clkReset 2 _).weaken _ fun r h => (ofClock_two r h).2.1

theorem writes_adsrEnter (st : AdsrState) (delta seg : F32) :
    Writes writesAdsrStep false (adsrEnter st delta seg) :=
  Writes.bind (Writes.update fun s => frame_setAdsrStep s s.syn.adsr.value _ _) fun _ =>
    (writes_clkReset 2 _).weaken _ fun r h => (ofClock_two r h).1

theorem writes_adsrOff : Writes writesAdsrStep false adsrOff :=
  Writes.update fun s => frame_setAdsrStep s _ _ _

theorem writes_adsrTransition (E : Env) : Writes writesAdsrStep false (adsrTransition E) :=
  Writes.bind (Writes.readState _ _) fun s => by
    dsimp only
    split
    · exact writes_adsrEnter _ _ _
    · exact writes_adsrEnter _ _ _
    · exact writes_adsrEnter _ _ _
    · exact writes_adsrOff
    · exact writes_adsrOff
    · exact Writes.stopWith _ _ _

theorem writes_adsrNext (E : Env) : Writes writesAdsrStep false (adsrNext E) :=
  Writes.bind ((writes_clkTick 2).weaken _ fun r h => by
      have hr : r = .clkTick 2 := by simpa using h
      subst hr; rfl) fun _ =>
    Writes.bind (writes_adsrTransition E).doWhen fun _ =>
      Writes.bind (Writes.update fun s => frame_setAdsrStep s _ s.syn.adsr.delta s.syn.adsr.state) fun _ =>
        Writes.bind (Writes.readState _ _) fun _ => Writes.pure _ _ _

theorem writes_fltNew (E : Env) (sr : Word) : Writes writesFilter true (fltNew E sr) :=
  Writes.bind (Writes.readState _ _) fun _ =>
    Writes.bind (writes_rngF32 _ E _ _) fun _ =>
      Writes.bind (writes_rngF32 _ E _ _) fun _ =>
        Writes.update fun s => (frame_setFlt s _).mono (fun _ h => h) fun _ => rfl

theorem writes_fltGen (E : Env) (x : F32) : Writes writesFilterHistory false (fltGen E x) :=
  Writes.bind (Writes.update fun s => frame_setHistory s _ _ _) fun _ =>
    Writes.bind (Writes.readState _ _) fun _ => Writes.pure _ _ _

theorem writes_noteNew (E : Env) (i : Fin 8) : Writes (ofNote i) true (noteNew E i) :=
  Writes.bind (Writes.readState _ _) fun _ =>
    Writes.bind (writes_rngU32 _ E _ _) fun _ =>
      Writes.bind (writes_rngIndex _ E _) fun _ => by
        split
        · exact Writes.update fun s => (frame_setNote s i _).mono (fun _ h => h) fun _ => rfl
        · exact Writes.stopWith _ _ _

theorem writes_noteDefault (i : Fin 8) : Writes (ofNote i) false (noteDefault i) :=
  Writes.update fun s => frame_setNote s i _

/-- The Notes of the array. -/
def ofNotes : Reg → Bool
  | .noteDur _ | .noteFreq _ => true
  | _ => false

theorem ofNote_le (i : Fin 8) (r : Reg) (h : ofNote i r = true) : ofNotes r = true := by
  cases r <;> simp_all [ofNote, ofNotes]

theorem writes_fillNotes (E : Env) : ∀ l : List (Fin 8), Writes ofNotes true (fillNotes E l)
  | [] => Writes.pure _ _ _
  | i :: rest =>
    Writes.bind (Writes.readState _ _) fun s => by
      dsimp only
      split
      · exact Writes.bind ((writes_noteNew E i).mono (ofNote_le i) fun h => h) fun _ => writes_fillNotes E rest
      · exact Writes.bind ((writes_noteDefault i).weaken _ (ofNote_le i)) fun _ => writes_fillNotes E rest

theorem ofSeq_le (r : Reg) (h : ofSeq r = true) : writesSequence r = true := by
  cases r <;> simp_all [ofSeq, writesSequence]

theorem ofNotes_le (r : Reg) (h : ofNotes r = true) : writesSequence r = true ∧ writesSequenceStep r = true ∧
    writesMutation r = true := by
  cases r <;> simp_all [ofNotes, writesSequence, writesSequenceStep, writesMutation]

theorem ofClock_zero (r : Reg) (h : ofClock 0 r = true) : writesSequence r = true ∧
    writesSequenceStep r = true ∧ writesMutation r = true := by
  cases r <;> simp_all [ofClock, writesSequence, writesSequenceStep, writesMutation]

theorem ofClock_one (r : Reg) (h : ofClock 1 r = true) : writesSequence r = true ∧
    writesSequenceStep r = true := by
  cases r <;> simp_all [ofClock, writesSequence, writesSequenceStep]

theorem writes_seqNew (E : Env) (sr : Word) : Writes writesSequence true (seqNew E sr) :=
  have set (f : State → Seq) (h : ∀ s, (f s).note = s.seq.note) :
      Writes writesSequence true (updateState fun s => s.setSeq (f s)) :=
    Writes.update fun s => by
      have hs : s.setSeq (f s) = s.setSeq { s.seq with
          tempo := (f s).tempo, scale := (f s).scale, length := (f s).length, cursor := (f s).cursor } := by
        simp [← h s]
      rw [hs]
      exact (frame_setSeqRegs s _ _ _ _).mono ofSeq_le fun h => by cases h
  Writes.bind (Writes.readState _ _) fun _ =>
    Writes.bind (writes_rngF32 _ E _ _) fun _ =>
      Writes.bind (set _ fun _ => rfl) fun _ =>
        Writes.bind (writes_rngIndex _ E _) fun _ =>
          Writes.bind (set _ fun _ => rfl) fun _ =>
            Writes.bind (writes_rngIndex _ E _) fun _ =>
              Writes.bind (set _ fun _ => rfl) fun _ =>
                Writes.bind ((writes_fillNotes E _).mono (fun r h => (ofNotes_le r h).1) fun h => h) fun _ =>
                  Writes.bind (writes_rngU32 _ E _ _) fun d =>
                    Writes.bind ((writes_clkDeadline 0 d).weaken _ fun r h => (ofClock_zero r h).1) fun _ =>
                      Writes.bind ((writes_clkDefault 1).weaken _ fun r h => (ofClock_one r h).1) fun _ =>
                        set _ fun _ => rfl

theorem writes_seqMutate (E : Env) : Writes writesMutation true (seqMutate E) :=
  Writes.bind (Writes.readState _ _) fun s => by
    split
    · exact Writes.stopWith _ _ _
    · refine Writes.bind (writes_rngIndex _ E _) fun k => ?_
      split
      · exact Writes.bind ((writes_noteNew E _).mono
            (fun r h => (ofNotes_le r (ofNote_le _ r h)).2.2) fun h => h) fun _ =>
          Writes.bind (writes_rngU32 _ E _ _) fun d =>
            (writes_clkReset 0 d).weaken _ fun r h => (ofClock_zero r h).2.2
      · exact Writes.stopWith _ _ _

theorem writes_seqStep : Writes writesSequenceStep false seqStep :=
  Writes.bind (Writes.readState _ _) fun s => by
    split
    · exact Writes.stopWith _ _ _
    · refine Writes.bind (Writes.update fun s => (frame_setCursor s _).mono (fun r h => ?_) fun h => h) fun _ =>
        Writes.bind (Writes.readState _ _) fun _ =>
          Writes.bind ((writes_clkReset 1 _).weaken _ fun r h => (ofClock_one r h).2) fun _ =>
            Writes.pure _ _ _
      have hr : r = .seqCursor := by simpa using h
      subst hr; rfl

theorem writesMutation_le (r : Reg) (h : writesMutation r = true) : writesSequenceStep r = true := by
  cases r <;> simp_all [writesMutation, writesSequenceStep]

theorem tick_le (k : Fin 4) (r : Reg) (h : decide (r = .clkTick k) = true) : ofClock k r = true := by
  have hr : r = .clkTick k := by simpa using h
  subst hr; simp [ofClock]

theorem writes_seqNext (E : Env) : Writes writesSequenceStep true (seqNext E) :=
  Writes.bind ((writes_clkTick 0).weaken _ fun r h => (ofClock_zero r (tick_le 0 r h)).2.1) fun _ =>
    Writes.bind (Writes.doWhen ((writes_seqMutate E).mono writesMutation_le fun h => h)) fun _ =>
      Writes.bind ((writes_clkTick 1).weaken _ fun r h => (ofClock_one r (tick_le 1 r h)).2) fun _ => by
        split
        · exact Writes.bind (writes_seqStep.weaken _ fun _ h => h) fun _ => Writes.pure _ _ _
        · exact Writes.pure _ _ _

theorem ofClock_three (r : Reg) (h : ofClock 3 r = true) :
    writesVoice r = true ∧ writesVoiceMutation r = true := by
  cases r <;> simp_all [ofClock, writesVoice, writesVoiceMutation, ofOperator]

theorem ofOperator_le (j : Fin 3) (r : Reg) (h : ofOperator j r = true) : writesVoice r = true := by
  fin_cases j <;> simp_all [writesVoice]

theorem writesAdsr_le (r : Reg) (h : writesAdsr r = true) : writesVoice r = true := by
  simp [writesVoice, h]

theorem writesFilter_le (r : Reg) (h : writesFilter r = true) : writesVoice r = true := by
  simp [writesVoice, h]

theorem writes_synNew (E : Env) (sr : Word) : Writes writesVoice true (synNew E sr) :=
  Writes.bind (Writes.readState _ _) fun _ =>
    Writes.bind (Writes.update fun s => (frame_setSynSr s sr).mono
        (fun r h => by simp_all [writesVoice]) fun h => by cases h) fun _ =>
      Writes.bind ((writes_opNew 0 _ _ sr).weaken _ (ofOperator_le 0)) fun _ =>
        Writes.bind ((writes_opRandom E 1 sr).mono (ofOperator_le 1) fun h => h) fun _ =>
          Writes.bind ((writes_opRandom E 2 sr).mono (ofOperator_le 2) fun h => h) fun _ =>
            Writes.bind ((writes_adsrNew E).mono writesAdsr_le fun h => h) fun _ =>
              Writes.bind ((writes_fltNew E sr).mono writesFilter_le fun h => h) fun _ =>
                Writes.bind (writes_rngU32 _ E _ _) fun d =>
                  (writes_clkDeadline 3 d).weaken _ fun r h => (ofClock_three r h).1

theorem ofModulator_le (k : Fin 2) (r : Reg) (h : ofOperator (modulator k) r = true) :
    writesVoiceMutation r = true := by
  cases r with
  | opSr j | opFreq j | opRatio j | opWave j | opPhase j =>
    have hj : j = modulator k := by simpa [ofOperator] using h
    subst hj
    fin_cases k <;> rfl
  | _ => cases h

theorem writes_synMutate (E : Env) : Writes writesVoiceMutation true (synMutate E) :=
  Writes.bind (Writes.readState _ _) fun _ =>
    Writes.bind (writes_rngIndex _ E _) fun k =>
      Writes.bind ((writes_opRandom E _ _).mono (ofModulator_le k) fun h => h) fun _ =>
        Writes.bind (writes_rngU32 _ E _ _) fun d =>
          (writes_clkReset 3 d).weaken _ fun r h => (ofClock_three r h).2

theorem writes_synPlay (E : Env) (f : F32) (l : Word) : Writes writesPlay true (synPlay E f l) := by
  have freq (j : Fin 3) : Writes writesPlay true (opSetf E j f) :=
    (writes_opSetf E j f).weaken _ fun r h => by
      have hr : r = .opFreq j := by simpa using h
      subst hr
      fin_cases j <;> rfl
  exact Writes.bind (writes_clkReady _ 3 |>.weaken _ fun _ h => h) fun _ =>
    Writes.bind (Writes.doWhen ((writes_synMutate E).mono (fun r h => by simp [writesPlay, h]) fun h => h)) fun _ =>
      Writes.bind (freq 0) fun _ => Writes.bind (freq 1) fun _ => Writes.bind (freq 2) fun _ =>
        (writes_adsrStart E l).weaken _ fun r h => by simp [writesPlay, h]

theorem writes_synNext (E : Env) : Writes writesVoiceStep false (synNext E) := by
  have phase (j : Fin 3) : Writes writesVoiceStep false (opNext E j) :=
    (writes_opNext E j).weaken _ fun r h => by
      have hr : r = .opPhase j := by simpa using h
      subst hr
      fin_cases j <;> rfl
  exact Writes.bind ((writes_clkTick 3).weaken _ fun r h => by simp_all [writesVoiceStep]) fun _ =>
    Writes.bind (phase 0) fun _ => Writes.bind (phase 1) fun _ => Writes.bind (phase 2) fun _ =>
      Writes.bind ((writes_adsrNext E).weaken _ fun r h => by simp [writesVoiceStep, h]) fun _ =>
        (writes_fltGen E _).weaken _ fun r h => by simp [writesVoiceStep, h]

theorem writes_rngSeed (W : Reg → Bool) (E : Env) (seed : DWord) : Writes W true (rngSeed E seed) :=
  Writes.update fun s => frame_setRng W s _

/-- The registers ENG.NEW writes. -/
def writesEngine (r : Reg) : Bool := r = .engStatus || writesSequence r || writesVoice r

theorem writes_engNew (E : Env) (seed : DWord) (sr : Word) : Writes writesEngine true (engNew E seed sr) := by
  have ready (b : Bool) : Writes writesEngine true (updateState (·.setReady b)) :=
    Writes.update fun s => (frame_setReady s b).mono (fun r h => by simp_all [writesEngine]) fun h => by cases h
  exact Writes.bind (ready false) fun _ =>
    Writes.bind (writes_rngSeed _ E seed) fun _ =>
      Writes.bind ((writes_seqNew E sr).mono (fun r h => by simp [writesEngine, h]) fun h => h) fun _ =>
        Writes.bind ((writes_synNew E sr).mono (fun r h => by simp [writesEngine, h]) fun h => h) fun _ =>
          ready true

/-- The registers ENG.NEXT writes. -/
def writesEngineStep (r : Reg) : Bool := writesSequenceStep r || writesPlay r || writesVoiceStep r

theorem writes_engNext (E : Env) : Writes writesEngineStep true (engNext E) :=
  Writes.bind (Writes.readState _ _) fun s => by
    split
    · refine Writes.bind ((writes_seqNext E).mono (fun r h => by simp [writesEngineStep, h]) fun h => h)
        fun ev => Writes.bind ?_ fun _ =>
          (writes_synNext E).weaken _ fun r h => by simp [writesEngineStep, h]
      cases ev with
      | none => exact Writes.pure _ _ _
      | some e => exact (writes_synPlay E e.2 e.1).mono (fun r h => by simp [writesEngineStep, h]) fun h => h
    · exact Writes.raise _ _ _

end Sys2Proof.Machine
end

