-- ==== Sys2Proof/Laws/PerInstr.lean ====
section
/-! SUPPORT. The per-instruction families of LAWS.json. `EncodedFields`: the encoder puts the operation's
opcode, `inst` and `addr` in the three fields of the word (spec/30_encoding.md R81, R83). -/

namespace Sys2Proof.Laws.EncodedFields

/-- The fields of the operation's word, read as the decoder reads them. -/
def Statement (i : Instr) : Prop :=
  opcodeField (encode i) = i.opcode ∧ instField (encode i) = i.inst ∧ addrField (encode i) = i.addr

theorem encoded (i : Instr) : Statement i :=
  ⟨opcodeField_fields _ _ _, instField_fields _ _ _, addrField_fields _ _ _⟩

theorem engNew : Statement .engNew := encoded _
theorem engNext : Statement .engNext := encoded _
theorem clkDeadline (inst : Byte) : Statement (.clkDeadline inst) := encoded _
theorem clkDefault (inst : Byte) : Statement (.clkDefault inst) := encoded _
theorem clkTick (inst : Byte) : Statement (.clkTick inst) := encoded _
theorem clkReady (inst : Byte) : Statement (.clkReady inst) := encoded _
theorem clkReset (inst : Byte) : Statement (.clkReset inst) := encoded _
theorem sigSine : Statement .sigSine := encoded _
theorem sigSquare : Statement .sigSquare := encoded _
theorem sigSaw : Statement .sigSaw := encoded _
theorem opNew (inst : Byte) : Statement (.opNew inst) := encoded _
theorem opRandom (inst : Byte) : Statement (.opRandom inst) := encoded _
theorem opSetf (inst : Byte) : Statement (.opSetf inst) := encoded _
theorem opNext (inst : Byte) : Statement (.opNext inst) := encoded _
theorem adsrNew : Statement .adsrNew := encoded _
theorem adsrStart : Statement .adsrStart := encoded _
theorem adsrNext : Statement .adsrNext := encoded _
theorem fltNew : Statement .fltNew := encoded _
theorem fltGen : Statement .fltGen := encoded _
theorem noteNew (inst : Byte) : Statement (.noteNew inst) := encoded _
theorem noteDefault (inst : Byte) : Statement (.noteDefault inst) := encoded _
theorem seqNew : Statement .seqNew := encoded _
theorem seqNext : Statement .seqNext := encoded _
theorem seqMutate : Statement .seqMutate := encoded _
theorem synNew : Statement .synNew := encoded _
theorem synPlay : Statement .synPlay := encoded _
theorem synNext : Statement .synNext := encoded _
theorem synMutate : Statement .synMutate := encoded _
theorem rngSeed : Statement .rngSeed := encoded _
theorem rdreg (addr : Addr) : Statement (.rdreg addr) := encoded _
theorem wrreg (addr : Addr) : Statement (.wrreg addr) := encoded _

end Sys2Proof.Laws.EncodedFields
end

