-- ==== Sys2Proof/Laws/Port.lean ====
section
/-! SUPPORT. The steps of the operations do not look at the command port, the access level or what the host
will do: they run alike on two states that differ there only. -/

namespace Sys2Proof.Machine

variable {α β : Type}

/-- The state without the access level, the host's plan, the arguments and the response. -/
def State.bare (s : State) : State :=
  { s with testEn := false, pending := [], arg0 := 0, arg1 := 0, resp := none }

/-- A result with its state bare. -/
def bareResult : EStateM.Result Stop State α → EStateM.Result Stop State α
  | .ok a s => .ok a s.bare
  | .error e s => .error e s.bare

@[simp] theorem bareResult_ok (a : α) (s : State) :
    bareResult (.ok a s : EStateM.Result Stop State α) = .ok a s.bare := rfl

@[simp] theorem bareResult_error (e : Stop) (s : State) :
    bareResult (.error e s : EStateM.Result Stop State α) = .error e s.bare := rfl

/-- An action that does not look at the port. -/
def PortFree (m : M α) : Prop := ∀ s, m s.bare = bareResult (m s)

theorem PortFree.pure (a : α) : PortFree (Pure.pure a : M α) := fun _ => rfl

theorem PortFree.raise (e : Status) : PortFree (Machine.raise e : M α) := fun _ => rfl

theorem PortFree.stopWith (f : Fault) : PortFree (Machine.stopWith f : M α) := fun _ => rfl

theorem PortFree.update {f : State → State} (h : ∀ s, f s.bare = (f s).bare) : PortFree (updateState f) := by
  intro s
  simp [h]

theorem PortFree.bind {x : M α} {f : α → M β} (hx : PortFree x) (hf : ∀ a, PortFree (f a)) :
    PortFree (x >>= f) := by
  intro s
  rw [bind_run, bind_run, hx s]
  cases x s with
  | ok a t => exact hf a t
  | error e t => rfl

/-- A statement that reads the state and goes on from what is not the port. -/
theorem PortFree.read {f : State → M β} (h : ∀ s, f s.bare = f s) (hf : ∀ s, PortFree (f s)) :
    PortFree (readState >>= f) := by
  intro s
  rw [readState_bind, readState_bind, h]
  exact hf s s

theorem PortFree.doWhen {a : M Unit} (b : Bool) (h : PortFree a) : PortFree (Machine.doWhen b a) := by
  cases b
  · exact PortFree.pure ()
  · exact h

/-- Two states that differ at the port only run alike. -/
theorem PortFree.congr {m : M α} (h : PortFree m) {s t : State} (e : s.bare = t.bare) :
    bareResult (m s) = bareResult (m t) := by
  rw [← h s, ← h t, e]

/-! ### The draws -/

theorem portFree_rngIndex (E : Env) (n : Nat) : PortFree (rngIndex E n) := by
  intro s
  by_cases h : 0 < n <;> simp [rngIndex, h]
  exact ⟨rfl, rfl⟩

theorem portFree_rngWeighted (E : Env) {n : Nat} (w : Fin n → Word) : PortFree (rngWeighted E w) := by
  intro s
  cases h : firstWeighted w <;> simp [rngWeighted, h]
  exact ⟨rfl, rfl⟩

theorem portFree_rngU32 (E : Env) (lo hi : Word) : PortFree (rngU32 E lo hi) := by
  intro s
  by_cases h : lo < hi <;> simp [rngU32, h]
  exact ⟨rfl, rfl⟩

theorem portFree_rngF32 (E : Env) (lo hi : F32) : PortFree (rngF32 E lo hi) := by
  intro s
  by_cases h : flt lo hi = true <;> simp [rngF32, h]
  exact ⟨rfl, rfl⟩

/-! ### The steps -/

theorem portFree_clkDeadline (k : Fin 4) (d : Word) : PortFree (clkDeadline k d) := PortFree.update fun _ => rfl

theorem portFree_clkReset (k : Fin 4) (d : Word) : PortFree (clkReset k d) := PortFree.update fun _ => rfl

theorem portFree_clkDefault (k : Fin 4) : PortFree (clkDefault k) := PortFree.update fun _ => rfl

theorem portFree_clkTick (k : Fin 4) : PortFree (clkTick k) := by
  intro s
  rw [clkTick_run, clkTick_run]
  rfl

theorem portFree_clkReady (k : Fin 4) : PortFree (clkReady k) := by
  intro s
  rw [clkReady_run, clkReady_run]
  rfl

theorem portFree_signal (E : Env) (w : WaveKind) (sr : Word) (f : F32) (i : Word) : PortFree (signal E w sr f i) := by
  cases w with
  | sine => exact PortFree.pure _
  | saw => exact PortFree.pure _
  | square =>
    unfold signal sigSquare
    cases signalSquare sr f i
    · exact PortFree.stopWith _
    · exact PortFree.pure _

theorem portFree_opNew (j : Fin 3) (ratio : F32) (w : WaveKind) (sr : Word) : PortFree (opNew j ratio w sr) :=
  PortFree.update fun _ => rfl

theorem portFree_opRandom (E : Env) (j : Fin 3) (sr : Word) : PortFree (opRandom E j sr) :=
  PortFree.read (fun _ => rfl) fun _ =>
    PortFree.bind (portFree_rngWeighted E _) fun _ =>
      PortFree.bind (portFree_rngF32 E _ _) fun _ => portFree_opNew _ _ _ _

theorem portFree_opSetf (E : Env) (j : Fin 3) (base : F32) : PortFree (opSetf E j base) :=
  PortFree.update fun _ => rfl

theorem portFree_opNext (E : Env) (j : Fin 3) : PortFree (opNext E j) :=
  PortFree.bind (PortFree.update fun _ => rfl) fun _ =>
    PortFree.read (fun _ => rfl) fun s => by
      cases waveOf (s.oper j).wave
      · exact PortFree.stopWith _
      · exact portFree_signal _ _ _ _ _

theorem portFree_adsrNew (E : Env) : PortFree (adsrNew E) :=
  PortFree.read (fun _ => rfl) fun _ =>
    PortFree.bind (portFree_rngF32 E _ _) fun _ => PortFree.bind (portFree_rngF32 E _ _) fun _ =>
      PortFree.bind (portFree_rngF32 E _ _) fun _ => PortFree.bind (portFree_rngF32 E _ _) fun _ =>
        PortFree.bind (PortFree.update fun _ => rfl) fun _ => portFree_clkDefault 2

theorem portFree_adsrStart (E : Env) (l : Word) : PortFree (adsrStart E l) := by
  intro s
  rw [adsrStart_run, adsrStart_run]
  rfl

theorem portFree_adsrNext (E : Env) : PortFree (adsrNext E) := by
  intro s
  rw [adsrNext_run, adsrNext_run, show s.bare.syn = s.syn from rfl, show s.bare.clock 2 = s.clock 2 from rfl]
  cases adsrAfter E.num s.syn.adsr (s.clock 2) <;> rfl

theorem portFree_fltNew (E : Env) (sr : Word) : PortFree (fltNew E sr) :=
  PortFree.read (fun _ => rfl) fun _ =>
    PortFree.bind (portFree_rngF32 E _ _) fun _ => PortFree.bind (portFree_rngF32 E _ _) fun _ =>
      PortFree.update fun _ => rfl

theorem portFree_fltGen (E : Env) (x : F32) : PortFree (fltGen E x) := by
  intro s
  rw [fltGen_run, fltGen_run]
  rfl

theorem portFree_noteNew (E : Env) (i : Fin 8) : PortFree (noteNew E i) :=
  PortFree.read (fun _ => rfl) fun s =>
    PortFree.bind (portFree_rngU32 E _ _) fun _ => PortFree.bind (portFree_rngIndex E _) fun t => by
      cases scaleTone s.cfg s.seq.scale t
      · exact PortFree.stopWith _
      · exact PortFree.update fun _ => rfl

theorem portFree_noteDefault (i : Fin 8) : PortFree (noteDefault i) := PortFree.update fun _ => rfl

theorem portFree_fillNotes (E : Env) : ∀ l : List (Fin 8), PortFree (fillNotes E l)
  | [] => PortFree.pure ()
  | i :: rest =>
    PortFree.read (fun _ => rfl) fun s => by
      by_cases h : i.val < s.seq.length.toNat
      · simp only [h, if_true]
        exact PortFree.bind (portFree_noteNew E i) fun _ => portFree_fillNotes E rest
      · simp only [h, if_false]
        exact PortFree.bind (portFree_noteDefault i) fun _ => portFree_fillNotes E rest

theorem portFree_seqNew (E : Env) (sr : Word) : PortFree (seqNew E sr) :=
  PortFree.read (fun _ => rfl) fun _ =>
    PortFree.bind (portFree_rngF32 E _ _) fun _ => PortFree.bind (PortFree.update fun _ => rfl) fun _ =>
      PortFree.bind (portFree_rngIndex E _) fun _ => PortFree.bind (PortFree.update fun _ => rfl) fun _ =>
        PortFree.bind (portFree_rngIndex E _) fun _ => PortFree.bind (PortFree.update fun _ => rfl) fun _ =>
          PortFree.bind (portFree_fillNotes E _) fun _ => PortFree.bind (portFree_rngU32 E _ _) fun _ =>
            PortFree.bind (portFree_clkDeadline 0 _) fun _ => PortFree.bind (portFree_clkDefault 1) fun _ =>
              PortFree.update fun _ => rfl

theorem portFree_seqMutate (E : Env) : PortFree (seqMutate E) :=
  PortFree.read (fun _ => rfl) fun s => by
    by_cases h : s.seq.length = 0
    · simp only [h, if_true]
      exact PortFree.stopWith _
    · simp only [h, if_false]
      refine PortFree.bind (portFree_rngIndex E _) fun k => ?_
      by_cases hk : mutatedSlot k.val s.seq.cursor < 8
      · simp only [hk, dif_pos]
        exact PortFree.bind (portFree_noteNew E _) fun _ =>
          PortFree.bind (portFree_rngU32 E _ _) fun _ => portFree_clkReset 0 _
      · simp only [hk, dif_neg, not_false_eq_true]
        exact PortFree.stopWith _

theorem portFree_seqStep : PortFree seqStep :=
  PortFree.read (fun _ => rfl) fun s => by
    by_cases h : s.seq.length = 0
    · simp only [h, if_true]
      exact PortFree.stopWith _
    · simp only [h, if_false]
      exact PortFree.bind (PortFree.update fun _ => rfl) fun _ => PortFree.read (fun _ => rfl) fun _ =>
        PortFree.bind (portFree_clkReset 1 _) fun _ => PortFree.pure _

theorem portFree_seqNext (E : Env) : PortFree (seqNext E) :=
  PortFree.bind (portFree_clkTick 0) fun b => PortFree.bind (PortFree.doWhen b (portFree_seqMutate E)) fun _ =>
    PortFree.bind (portFree_clkTick 1) fun fired => by
      cases fired
      · exact PortFree.pure _
      · exact PortFree.bind portFree_seqStep fun _ => PortFree.pure _

theorem portFree_synNew (E : Env) (sr : Word) : PortFree (synNew E sr) :=
  PortFree.read (fun _ => rfl) fun _ =>
    PortFree.bind (PortFree.update fun _ => rfl) fun _ => PortFree.bind (portFree_opNew _ _ _ _) fun _ =>
      PortFree.bind (portFree_opRandom E _ _) fun _ => PortFree.bind (portFree_opRandom E _ _) fun _ =>
        PortFree.bind (portFree_adsrNew E) fun _ => PortFree.bind (portFree_fltNew E _) fun _ =>
          PortFree.bind (portFree_rngU32 E _ _) fun _ => portFree_clkDeadline 3 _

theorem portFree_synMutate (E : Env) : PortFree (synMutate E) :=
  PortFree.read (fun _ => rfl) fun _ =>
    PortFree.bind (portFree_rngIndex E _) fun _ => PortFree.bind (portFree_opRandom E _ _) fun _ =>
      PortFree.bind (portFree_rngU32 E _ _) fun _ => portFree_clkReset 3 _

theorem portFree_synPlay (E : Env) (f : F32) (l : Word) : PortFree (synPlay E f l) :=
  PortFree.bind (portFree_clkReady 3) fun b => PortFree.bind (PortFree.doWhen b (portFree_synMutate E)) fun _ =>
    PortFree.bind (portFree_opSetf E _ _) fun _ => PortFree.bind (portFree_opSetf E _ _) fun _ =>
      PortFree.bind (portFree_opSetf E _ _) fun _ => portFree_adsrStart E l

theorem portFree_synNext (E : Env) : PortFree (synNext E) :=
  PortFree.bind (portFree_clkTick 3) fun _ => PortFree.bind (portFree_opNext E _) fun _ =>
    PortFree.bind (portFree_opNext E _) fun _ => PortFree.bind (portFree_opNext E _) fun _ =>
      PortFree.bind (portFree_adsrNext E) fun _ => portFree_fltGen E _

theorem portFree_rngSeed (E : Env) (seed : DWord) : PortFree (rngSeed E seed) := PortFree.update fun _ => rfl

theorem portFree_engNew (E : Env) (seed : DWord) (sr : Word) : PortFree (engNew E seed sr) :=
  PortFree.bind (PortFree.update fun _ => rfl) fun _ => PortFree.bind (portFree_rngSeed E seed) fun _ =>
    PortFree.bind (portFree_seqNew E sr) fun _ => PortFree.bind (portFree_synNew E sr) fun _ =>
      PortFree.update fun _ => rfl

theorem portFree_engNext (E : Env) : PortFree (engNext E) :=
  PortFree.read (fun _ => rfl) fun s => by
    cases s.ready
    · exact PortFree.raise _
    · refine PortFree.bind (portFree_seqNext E) fun ev => PortFree.bind ?_ fun _ => portFree_synNext E
      cases ev
      · exact PortFree.pure ()
      · exact portFree_synPlay E _ _

end Sys2Proof.Machine
end

