-- ==== Sys2Proof/Laws/Rounding.lean ====
section
/-! SUPPORT. Binary32 rounding (spec/00_scope.md R10, R17): what the patterns say of signs and
magnitudes, all that the shared rounding does, and that a quotient of at least 1.0 rounds to at least 1.0. -/

namespace Sys2Proof.Machine

theorem magBits_withSign {neg : Bool} {m : Nat} (h : m < 2 ^ 31) : magBits (withSign neg m) = m := by
  cases neg <;> simp [magBits, withSign] <;> omega

theorem signBit_withSign {neg : Bool} {m : Nat} (h : m < 2 ^ 31) : signBit (withSign neg m) = neg := by
  cases neg <;> simp [signBit, withSign, BitVec.msb_eq_decide] <;> omega

@[simp] theorem signBit_fneg (x : F32) : signBit (fneg x) = !signBit x := by
  have h : (2147483648#32).msb = true := by decide
  simp [signBit, fneg, h]

@[simp] theorem magBits_fneg (x : F32) : magBits (fneg x) = magBits x := by
  have h : ∀ n : Nat, (n ^^^ 2 ^ 31) % 2 ^ 31 = n % 2 ^ 31 := fun n => by
    rw [Nat.xor_mod_two_pow, Nat.mod_self, Nat.xor_zero]
  rw [magBits, magBits, fneg, BitVec.toNat_xor]
  exact h _

@[simp] theorem signedUnits_fneg (x : F32) : signedUnits (fneg x) = -signedUnits x := by
  unfold signedUnits units
  rw [magBits_fneg, signBit_fneg]
  cases signBit x <;> simp

theorem isNaN_nanOf (N : Numerics) (op : FloatOp) (a b : F32) : isNaN (nanOf N op a b) = true := by
  unfold nanOf
  split
  · assumption
  · decide

theorem roundUnits_le (n d : Nat) : roundUnits n d ≤ 0x7F800000 := Nat.min_le_right _ _

theorem le_roundDiv (n d : Nat) : n / d ≤ roundDiv n d := by
  unfold roundDiv
  split
  · exact Nat.le_refl _
  · split
    · exact Nat.le_succ _
    · split
      · exact Nat.le_refl _
      · exact Nat.le_succ _

/-- All that `roundDiv` does: the whole number is within half of the quotient, and even where it is half away. -/
theorem roundDiv_spec (n d : Nat) (h : 0 < d) :
    2 * (roundDiv n d * d) ≤ 2 * n + d ∧ 2 * n ≤ 2 * (roundDiv n d * d) + d ∧
    (2 * (roundDiv n d * d) = 2 * n + d ∨ 2 * n = 2 * (roundDiv n d * d) + d → roundDiv n d % 2 = 0) := by
  have hm := Nat.div_add_mod n d
  have hl := Nat.mod_lt n h
  have hs : (n / d + 1) * d = n / d * d + d := Nat.succ_mul _ _
  rw [Nat.mul_comm] at hm
  unfold roundDiv
  split
  · omega
  · split
    · omega
    · split <;> omega

/-- A quotient of at least 1.0 (2^149 units) rounds to the pattern of 1.0 or above. -/
theorem one_le_roundUnits {n d : Nat} (hd : 0 < d) (h : 2 ^ 149 * d ≤ n) : 0x3F800000 ≤ roundUnits n d := by
  have hq : 2 ^ 149 ≤ n / d := (Nat.le_div_iff_mul_le hd).mpr h
  have hne : n / d ≠ 0 := by
    have : 0 < 2 ^ 149 := by decide
    omega
  have hlog : 149 ≤ Nat.log2 (n / d) := (Nat.le_log2 hne).mpr hq
  have hself : 2 ^ Nat.log2 (n / d) ≤ n / d := Nat.log2_self_le hne
  have he : 126 ≤ Nat.log2 (n / d) - 23 := by omega
  have hsplit : 2 ^ 23 * 2 ^ (Nat.log2 (n / d) - 23) = 2 ^ Nat.log2 (n / d) := by
    rw [← pow_add]
    congr 1
    omega
  have hpos : 0 < d * 2 ^ (Nat.log2 (n / d) - 23) := Nat.mul_pos hd (Nat.two_pow_pos _)
  have hdiv : 2 ^ 23 ≤ n / (d * 2 ^ (Nat.log2 (n / d) - 23)) := by
    rw [← Nat.div_div_eq_div_mul, Nat.le_div_iff_mul_le (Nat.two_pow_pos _), hsplit]
    exact hself
  have hr := le_roundDiv n (d * 2 ^ (Nat.log2 (n / d) - 23))
  have h1 : 126 * 2 ^ 23 ≤ (Nat.log2 (n / d) - 23) * 2 ^ 23 := Nat.mul_le_mul_right _ he
  refine Nat.le_min.mpr ⟨?_, by decide⟩
  show 0x3F800000 ≤ (Nat.log2 (n / d) - 23) * 2 ^ 23 + roundDiv n (d * 2 ^ (Nat.log2 (n / d) - 23))
  omega

/-- A normal pattern of at least 1.0 has at least 2^149 units. -/
theorem one_le_units {x : F32} (h : 0x3F800000 ≤ magBits x) : 2 ^ 149 ≤ units x := by
  have he : 127 ≤ magBits x / 2 ^ 23 := by omega
  unfold units
  rw [if_neg (by omega)]
  calc 2 ^ 149 = 2 ^ 23 * 2 ^ 126 := by norm_num
    _ ≤ (2 ^ 23 + magBits x % 2 ^ 23) * 2 ^ (magBits x / 2 ^ 23 - 1) :=
      Nat.mul_le_mul (by omega) (Nat.pow_le_pow_right (by decide) (by omega))

end Sys2Proof.Machine
end

