-- ==== Sys2Proof/Tests/Toy.lean ====
section
/-! SUPPORT. The data of the tests: the toy configuration and the scripted generator of
spec/95_test_vectors.md section 0, and that the toy configuration is a well-formed one. -/

namespace Sys2Proof.Tests

open Sys2Proof.Machine

/-- The pool of `CFG_TOY`. -/
def toyPool : Vector PoolEntry 5 :=
  #v[⟨1, .sine, 0x3F000000, 0x40000000⟩, ⟨1, .sine, 0x3F800000, 0x40800000⟩,
    ⟨1, .square, 0x3F800000, 0x40000000⟩, ⟨2, .saw, 0x3F000000, 0x40000000⟩,
    ⟨1, .saw, 0x3E800000, 0x3F800000⟩]

/-- `SCALES[a][b]` of `CFG_TOY`: 1.0 + a + 0.5 b Hz. -/
def toyScales : Vector (Vector F32 8) 21 :=
  Vector.ofFn fun a => Vector.ofFn fun b => withSign false (roundUnits ((2 + 2 * a.val + b.val) * 2 ^ 148) 1)

/-- `CFG_TOY`. -/
def toyCfg : Cfg where
  tempoLo := 0x42700000
  tempoHi := 0x43700000
  seqMutLo := 4
  seqMutHi := 200
  synMutLo := 8
  synMutHi := 2000
  attLo := 0x3E000000
  attHi := 0x3EA00000
  decLo := 0x3E000000
  decHi := 0x3EA00000
  susLo := 0x3E800000
  susHi := 0x3F400000
  relLo := 0x3E000000
  relHi := 0x3EA00000
  cutoffLo := 0x3F000000
  cutoffHi := 0x40800000
  qLo := 0x00000000
  qHi := 0x40000000
  pool := toyPool
  scales := toyScales
  nScales := 21
  nMetres := 5
  nPool := 5

/-- A script as a generator: every draw answers the value at the position and moves on by one. -/
def scripted (script : List Nat) : Rng where
  seed _ := ⟨0⟩
  index st _ := (script.getD st.code 0, ⟨st.code + 1⟩)
  weighted st _ := (script.getD st.code 0, ⟨st.code + 1⟩)
  u32 st _ _ := (BitVec.ofNat 32 (script.getD st.code 0), ⟨st.code + 1⟩)
  f32 st _ _ := (BitVec.ofNat 32 (script.getD st.code 0), ⟨st.code + 1⟩)

/-- Numerics of no accuracy: the tests that use them read no value that depends on it. -/
def toyNum : Numerics where
  sin _ := 0x3F800000
  tan _ := 0x3F800000
  atan _ := 0x3F800000
  tanh _ := 0x3F800000
  nan _ _ _ := 0x7FC00000

/-- The environment of a test that draws. -/
def toyEnv (script : List Nat) : Env := ⟨scripted script, toyNum⟩

/-- A state of the toy configuration at TEST level with nothing constructed. -/
def toy : State := State.resetWith true toyCfg

/-- The same with a configuration of an empty pool. -/
def toyNoPool : State := State.resetWith true { toyCfg with nPool := 0 }

/-- What is read of the next state; none where the step stops. -/
def next {α : Type} (o : Host.Outcome State Fault Refusal) (f : State → α) : Option α :=
  match o with
  | .next t => some (f t)
  | .fault _ => none
  | .refused _ => none

/-- The data of the response. -/
def data (s : State) : Option DWord := s.resp.map (·.data)

/-- The status and the flag of the response. -/
def statusFlag (s : State) : Option (Status × Bool) := s.resp.map fun r => (r.status, r.flag)

/-! ### The toy configuration is well-formed -/

theorem fmul_atLeastOne (N : Numerics) {x y : F32} (hx : signBit x = false) (hy : signBit y = false)
    (fx : magBits x < 0x7F800000) (fy : magBits y < 0x7F800000) (ux : 2 ^ 149 ≤ units x) (uy : 2 ^ 149 ≤ units y) :
    atLeastOne (fmul N x y) := by
  have hpos : 0 < 2 ^ 149 := by decide
  have zx : isZero x = false := by
    by_contra h
    have h0 : magBits x = 0 := by simpa [isZero] using h
    simp [units, h0] at ux
  have zy : isZero y = false := by
    by_contra h
    have h0 : magBits y = 0 := by simpa [isZero] using h
    simp [units, h0] at uy
  have ix : isInf x = false := by simp [isInf]; omega
  have iy : isInf y = false := by simp [isInf]; omega
  have nx : isNaN x = false := by simp [isNaN]; omega
  have ny : isNaN y = false := by simp [isNaN]; omega
  have hr : 0x3F800000 ≤ roundUnits (units x * units y) (2 ^ 149) := one_le_roundUnits hpos (Nat.mul_le_mul ux uy)
  have hi := roundUnits_le (units x * units y) (2 ^ 149)
  have hm : fmul N x y = withSign false (roundUnits (units x * units y) (2 ^ 149)) := by
    simp [fmul, nx, ny, ix, iy, zx, zy, hx, hy]
  rw [hm]
  generalize roundUnits (units x * units y) (2 ^ 149) = m at hr hi
  by_cases e : m = 0x7F800000
  · left
    rw [e]
    decide
  · right
    have hb : magBits (withSign false m) = m := magBits_withSign (by omega)
    have hs : signBit (withSign false m) = false := signBit_withSign (by omega)
    have hu : 2 ^ 149 ≤ units (withSign false m) := one_le_units (by rw [hb]; exact hr)
    have h1 : signedUnits fOne = 2 ^ 149 := by decide +kernel
    have hf : isFinite (withSign false m) = true := by simp [isFinite, hb]; omega
    have ho : isFinite fOne = true := by decide
    simp only [fle, hf, ho, h1, Bool.and_self, Bool.true_and, decide_eq_true_eq]
    simp only [signedUnits, hs, Bool.false_eq_true, if_false]
    exact_mod_cast hu

theorem toy_scale_one : ∀ (a : Fin 21) (b : Fin 8), signBit (toyScales[a][b]) = false ∧
    magBits (toyScales[a][b]) < 0x7F800000 ∧ 0x3F800000 ≤ magBits (toyScales[a][b]) := by decide +kernel

/-- A finite value of at least 1.0, as the draw of a ratio gives it. -/
theorem one_le_of_fle {x : F32} (h : fle 0x3F800000 x = true) :
    signBit x = false ∧ magBits x < 0x7F800000 ∧ 2 ^ 149 ≤ units x := by
  have h1 : signedUnits 0x3F800000 = 2 ^ 149 := by decide +kernel
  simp only [fle, Bool.and_eq_true, decide_eq_true_eq, h1] at h
  obtain ⟨⟨-, hf⟩, hle⟩ := h
  have hs : signBit x = false := by
    by_contra hs
    have : (0 : Int) < 2 ^ 149 := by decide
    simp only [signedUnits, Bool.not_eq_false] at hle hs
    rw [hs] at hle
    simp only [if_true] at hle
    omega
  refine ⟨hs, by simpa [isFinite] using hf, ?_⟩
  simp only [signedUnits, hs, Bool.false_eq_true, if_false] at hle
  exact_mod_cast hle

theorem toyCfg_wellFormed : CfgWellFormed toyCfg where
  counts := by decide
  weight := ⟨0, by decide⟩
  tempo := by unfold floatRange; decide +kernel
  seqMut := by decide
  synMut := by decide
  att := by unfold floatRange; decide +kernel
  dec := by unfold floatRange; decide +kernel
  sus := by unfold floatRange; decide +kernel
  rel := by unfold floatRange; decide +kernel
  cutoff := by unfold floatRange; decide +kernel
  q := by unfold floatRange; decide +kernel
  ratios := by unfold floatRange; decide +kernel
  tempoPositive := by unfold positive; decide +kernel
  fractions := by unfold nonNegative; decide +kernel
  ramps := by unfold positive; decide +kernel
  ratioPositive := by unfold positive; decide +kernel
  scalePositive := by unfold positive; decide +kernel
  square := by
    intro k hk x hd N a b
    have h2 : ∀ k : Fin 5, (toyCfg.pool[k]).wave = .square → (toyCfg.pool[k]).ratioLo = 0x3F800000 := by decide
    obtain ⟨hs, hf, hu⟩ := one_le_of_fle (x := x) (h2 k hk ▸ hd.1)
    obtain ⟨h1, h3, h4⟩ := toy_scale_one a b
    exact fmul_atLeastOne N h1 hs h3 hf (one_le_units h4) hu
  filter := by unfold nonNegative; decide +kernel

theorem toy_legal : Legal toy := by
  refine ⟨by decide, by decide, ?_, ?_, by decide⟩ <;> decide

end Sys2Proof.Tests
end

