-- ==== Sys2Proof/Tests/Slice0.lean ====
section
/-! SUPPORT. The tests of the model. Expected values are those of spec/95_test_vectors.md (its vector is named
in each comment) or are written out from the tables of spec/30_encoding.md. -/

namespace Sys2Proof.Tests

open Sys2Proof.Machine

set_option Elab.async false

/-! ## Well-formedness and decoding -/

/-- Clocks 0 to 3 exist (30_encoding.md R86). -/
theorem test_clock_range : (Instr.clkTick 3).wellFormed = true ∧ (Instr.clkTick 4).wellFormed = false ∧
    (Instr.clkDeadline 4).wellFormed = false ∧ (Instr.clkDefault 4).wellFormed = false ∧
    (Instr.clkReady 0xFF).wellFormed = false ∧ (Instr.clkReset 4).wellFormed = false := by decide

/-- Operators 0 to 2 exist. -/
theorem test_operator_range : (Instr.opNext 2).wellFormed = true ∧ (Instr.opNew 3).wellFormed = false ∧
    (Instr.opRandom 3).wellFormed = false ∧ (Instr.opSetf 3).wellFormed = false ∧
    (Instr.opNext 3).wellFormed = false := by decide

/-- Note slots 0 to 7 exist. -/
theorem test_note_range : (Instr.noteNew 7).wellFormed = true ∧ (Instr.noteNew 8).wellFormed = false ∧
    (Instr.noteDefault 8).wellFormed = false := by decide

/-- K17, O4, N2: an instance that does not exist is refused by name. -/
theorem test_decode_instRange : decode 0x10040000 = .error .instRange ∧
    decode 0x30030000 = .error .instRange ∧ decode 0x61080000 = .error .instRange := by decide

/-- Fields that must be 0, and words of no row (30_encoding.md R84, R87). -/
theorem test_decode_refused : decode 0x02010000 = .error .instNotZero ∧
    decode 0x02000001 = .error .addrNotZero ∧ decode 0x12000001 = .error .addrNotZero ∧
    decode 0xF0010249 = .error .instNotZero ∧ decode 0x00000000 = .error .noOperation ∧
    decode 0xFFFFFFFF = .error .noOperation ∧ decode 0x15000000 = .error .noOperation ∧
    decodeBytes [0x00, 0x00, 0x00] = .error .truncated := by decide

/-- One word a family, bit by bit: opcode in bits 31:24, inst in 23:16, addr in 15:0. -/
theorem test_decode_bits :
    decode 0b00000001000000000000000000000000 = .ok .engNew ∧
    decode 0b00010010000000110000000000000000 = .ok (.clkTick 3) ∧
    decode 0b00100001000000000000000000000000 = .ok .sigSquare ∧
    decode 0b00110010000000010000000000000000 = .ok (.opSetf 1) ∧
    decode 0b01000001000000000000000000000000 = .ok .adsrStart ∧
    decode 0b01010001000000000000000000000000 = .ok .fltGen ∧
    decode 0b01100000000001110000000000000000 = .ok (.noteNew 7) ∧
    decode 0b01100100000000000000000000000000 = .ok .seqMutate ∧
    decode 0b01110001000000000000000000000000 = .ok .synPlay ∧
    decode 0b10000000000000000000000000000000 = .ok .rngSeed ∧
    decode 0b11110001000000000000001001001001 = .ok (.wrreg 0x0249) := by decide

theorem test_decode_engine : decode 0x01000000 = .ok .engNew ∧ decode 0x02000000 = .ok .engNext := by decide

theorem test_decode_clock : decode 0x10020000 = .ok (.clkDeadline 2) ∧
    decode 0x11030000 = .ok (.clkDefault 3) ∧ decode 0x12010000 = .ok (.clkTick 1) ∧
    decode 0x13020000 = .ok (.clkReady 2) ∧ decode 0x14000000 = .ok (.clkReset 0) := by decide

theorem test_decode_signal : decode 0x20000000 = .ok .sigSine ∧ decode 0x21000000 = .ok .sigSquare ∧
    decode 0x22000000 = .ok .sigSaw := by decide

theorem test_decode_operator : decode 0x30020000 = .ok (.opNew 2) ∧ decode 0x31010000 = .ok (.opRandom 1) ∧
    decode 0x32010000 = .ok (.opSetf 1) ∧ decode 0x33000000 = .ok (.opNext 0) := by decide

theorem test_decode_adsr_filter : decode 0x40000000 = .ok .adsrNew ∧ decode 0x41000000 = .ok .adsrStart ∧
    decode 0x42000000 = .ok .adsrNext ∧ decode 0x50000000 = .ok .fltNew ∧
    decode 0x51000000 = .ok .fltGen := by decide

theorem test_decode_sequence : decode 0x60010000 = .ok (.noteNew 1) ∧ decode 0x61070000 = .ok (.noteDefault 7) ∧
    decode 0x62000000 = .ok .seqNew ∧ decode 0x63000000 = .ok .seqNext ∧
    decode 0x64000000 = .ok .seqMutate := by decide

theorem test_decode_synth : decode 0x70000000 = .ok .synNew ∧ decode 0x71000000 = .ok .synPlay ∧
    decode 0x72000000 = .ok .synNext ∧ decode 0x73000000 = .ok .synMutate := by decide

theorem test_decode_system : decode 0x80000000 = .ok .rngSeed ∧ decode 0xF0000104 = .ok (.rdreg 0x0104) ∧
    decode 0xF1000240 = .ok (.wrreg 0x0240) ∧ decode 0xF000FFFF = .ok (.rdreg 0xFFFF) := by decide

/-- 20_memory.md R63: byte 0 of a bus is bits 7:0. -/
theorem test_decode_bytes : decodeBytes [0x49, 0x02, 0x00, 0xF0, 0xAA] = .ok (.rdreg 0x0249, [0xAA]) := by decide

/-- The host's presentation of a word is performed by the next step (30_encoding.md R80). -/
theorem test_step_runs_word : next (step (toy.withFetchWord 32 0x12020000)) (fun t => (t.clock 2, t.pending)) =
    some (⟨1, 0⟩, []) := by decide

/-! ## Binary32 (95_test_vectors.md section 2.2) -/

theorem test_u2f : u2f 8 = 0x41000000 ∧ u2f 48000 = 0x473B8000 ∧ u2f 16777217 = 0x4B800000 ∧
    u2f 16777219 = 0x4B800002 ∧ u2f 4294967295 = 0x4F800000 := by decide +kernel

theorem test_f2u : f2u 0x4039999A = 2 ∧ f2u 0x3F7FFFFF = 0 ∧ f2u 0xBFC00000 = 0 ∧ f2u 0x80000000 = 0 ∧
    f2u 0x7FC00000 = 0 ∧ f2u 0x4F7FFFFF = 4294967040 ∧ f2u 0x4F800000 = 4294967295 ∧
    f2u 0x7F800000 = 4294967295 := by decide +kernel

/-- N3, A4, O5, A2: a quotient, an inexact quotient, a product, a difference. -/
theorem test_float_results : fdiv toyNum 0x42700000 0x42F00000 = 0x3F000000 ∧
    fdiv toyNum 0x3F800000 0x40200000 = 0x3ECCCCCD ∧ fmul toyNum 0x43DC0000 0x3FC00000 = 0x44250000 ∧
    fsub toyNum 0x3F000000 0x3F400000 = 0xBE800000 ∧ fadd toyNum 0x3F400000 0xBD800000 = 0x3F300000 := by
  decide +kernel

/-- 00_scope.md R17: `x/0`, the sign of a zero sum, `inf - inf`, `0/0`, and overflow. -/
theorem test_float_corners : fdiv toyNum 0xBF800000 0x00000000 = 0xFF800000 ∧
    fadd toyNum 0x3F800000 0xBF800000 = 0x00000000 ∧ fadd toyNum 0x80000000 0x80000000 = 0x80000000 ∧
    isNaN (fsub toyNum 0x7F800000 0x7F800000) = true ∧ isNaN (fdiv toyNum 0x00000000 0x80000000) = true ∧
    fmul toyNum 0x7F7FFFFF 0x40000000 = 0x7F800000 := by decide +kernel

/-! ## Clock (section 2.1) -/

/-- K16 -/
theorem test_clkDeadline : next (exec (.clkDeadline 1) { toy with arg1 := 0xFFFFFFFF }) (·.clock 1) =
    some ⟨0, 0xFFFFFFFF⟩ := by decide

/-- K15 -/
theorem test_clkDefault : next (exec (.clkDefault 3) (toy.setClock 3 ⟨17, 3⟩)) (·.clock 3) =
    some ⟨0, 0⟩ := by decide

/-- K4: the comparison follows the advance. -/
theorem test_clkTick_fires : next (exec (.clkTick 3) (toy.setClock 3 ⟨4, 5⟩)) (fun t => (statusFlag t, t.clock 3)) =
    some (some (.ok, true), ⟨5, 5⟩) := by decide

/-- K7: the tick wraps. -/
theorem test_clkTick_wraps : next (exec (.clkTick 1) (toy.setClock 1 ⟨0xFFFFFFFF, 5⟩))
    (fun t => (statusFlag t, t.clock 1)) = some (some (.ok, false), ⟨0, 5⟩) := by decide

/-- K13: the comparison is unsigned. -/
theorem test_clkReady_unsigned : next (exec (.clkReady 2) (toy.setClock 2 ⟨0x80000000, 0x7FFFFFFF⟩))
    (fun t => (statusFlag t, t.clock 2)) = some (some (.ok, true), ⟨0x80000000, 0x7FFFFFFF⟩) := by decide

/-- K12 -/
theorem test_clkReady_before : next (exec (.clkReady 2) (toy.setClock 2 ⟨2, 3⟩)) statusFlag =
    some (some (.ok, false)) := by decide

/-- K14 -/
theorem test_clkReset : next (exec (.clkReset 0) { toy.setClock 0 ⟨17, 3⟩ with arg1 := 5 }) (·.clock 0) =
    some ⟨0, 5⟩ := by decide

/-! ## Signal (section 2.2) -/

/-- G9: exact for any NUM. -/
theorem test_sigSine_silent : next (exec .sigSine { toy with arg0 := 0x0000000700000000, arg1 := 8 }) data =
    some (some 0) := by decide +kernel

/-- Q1: the frequency is truncated, not rounded. -/
theorem test_sigSquare_truncates : next (exec .sigSquare { toy with arg0 := 0x000000054039999A, arg1 := 4 }) data =
    some (some 0xBF800000) := by decide +kernel

/-- Q12: the frequency saturates. -/
theorem test_sigSquare_saturates : next (exec .sigSquare { toy with arg0 := 0x0000000850000000, arg1 := 4 }) data =
    some (some 0xBF800000) := by decide +kernel

/-- W1: exact for any NUM. -/
theorem test_sigSaw_start : next (exec .sigSaw { toy with arg0 := 0x0000000040000000, arg1 := 8 }) data =
    some (some 0x3FC90FDB) := by decide +kernel

/-! ## Operator (section 2.3) -/

/-- O2 -/
theorem test_opNew : next (exec (.opNew 2) { toy with arg0 := 0x000000023FC00000, arg1 := 48000 }) (·.oper 2) =
    some ⟨48000, 0x00000000, 0x3FC00000, 2, 0⟩ := by decide

/-- O3: the reserved waveform. -/
theorem test_opNew_reserved : next (exec (.opNew 1) { toy with arg0 := 0x000000033F800000, arg1 := 8 })
    (fun t => (statusFlag t, t.oper 1)) = some (some (.errValue, false), toy.oper 1) := by decide

/-- O11: two draws, the pool entry, then the ratio. -/
theorem test_opRandom : next (testCommand (Cmd.opRandom (toyEnv [3, 0x3FA00000]) 1) { toy with arg1 := 48000 })
    (fun t => (t.oper 1, t.rng)) = some (⟨48000, 0x00000000, 0x3FA00000, 2, 0⟩, ⟨2⟩) := by decide +kernel

/-- O12: an empty pool. -/
theorem test_opRandom_empty : next (exec (.opRandom 1) { toyNoPool with arg1 := 8 })
    (fun t => (statusFlag t, t.oper 1, t.rng)) = some (some (.errSelect, false), toy.oper 1, toy.rng) := by
  decide +kernel

/-- O5: the counter is not touched. -/
theorem test_opSetf : next (exec (.opSetf 1) { toy.setOper 1 ⟨8, 0, 0x3FC00000, 0, 7⟩ with arg0 := 0x43DC0000 })
    (·.oper 1) = some ⟨8, 0x44250000, 0x3FC00000, 0, 7⟩ := by decide +kernel

/-- O9, fourth call: the advanced counter is the index. -/
theorem test_opNext_square : next (exec (.opNext 2) (toy.setOper 2 ⟨4, 0x40000000, 0x3F800000, 1, 3⟩))
    (fun t => (data t, (t.oper 2).phase)) = some (some 0xBF800000, 4) := by decide +kernel

/-- O10: the counter wraps to the sine's index 0. -/
theorem test_opNext_wraps : next (exec (.opNext 0) (toy.setOper 0 ⟨8, 0x3F800000, 0x3F800000, 0, 0xFFFFFFFF⟩))
    (fun t => (data t, (t.oper 0).phase)) = some (some 0x00000000, 0) := by decide +kernel

/-! ## ADSR (section 2.4) -/

/-- The fractions of A1. -/
def a1 : Adsr := ⟨0x3E800000, 0x3E800000, 0x3F000000, 0x3E800000, 0, 0, 0, 0⟩

/-- A1 -/
theorem test_adsrNew : next (testCommand (Cmd.adsrNew (toyEnv [0x3E800000, 0x3E800000, 0x3F000000, 0x3E800000])) toy)
    (fun t => (t.syn.adsr, t.rng)) = some (a1, ⟨4⟩) := by decide +kernel

/-- A4: a segment of 2.5 samples is truncated. -/
theorem test_adsrStart : next (exec .adsrStart { toy.setAdsr { a1 with value := 0x3F000000, state := 4 } with arg1 := 10 })
    (fun t => (t.syn.adsr, t.clock 2)) =
    some ({ a1 with state := 1, length := 10, delta := 0x3ECCCCCD }, ⟨0, 2⟩) := by decide +kernel

/-- A4, call 6: from Sustain to Release. -/
theorem test_adsrNext_release : next (exec .adsrNext ((toy.setAdsr
      { a1 with value := 0x3EF5C28F, length := 10, delta := 0, state := 3 }).setClock 2 ⟨1, 2⟩))
    (fun t => (t.syn.adsr.value, t.syn.adsr.delta, t.syn.adsr.state, t.clock 2)) =
    some (0x3E9374BC, 0xBE449BA6, 4, ⟨0, 2⟩) := by decide +kernel

/-- A4, call 8: off Release, the Clock is not rearmed. -/
theorem test_adsrNext_off : next (exec .adsrNext ((toy.setAdsr
      { a1 with value := 0x3DC49BA4, length := 10, delta := 0xBE449BA6, state := 4 }).setClock 2 ⟨1, 2⟩))
    (fun t => (t.syn.adsr.value, t.syn.adsr.delta, t.syn.adsr.state, t.clock 2)) =
    some (0x00000000, 0x00000000, 0, ⟨2, 2⟩) := by decide +kernel

/-! ## Filter (section 2.5) -/

/-- F1, second column: the coefficients that do not pass through NUM. -/
theorem test_fltNew : next (testCommand (Cmd.fltNew (toyEnv [0x3F800000, 0x3F800000])) { toy with arg1 := 8 })
    (fun t => (t.syn.flt.p, t.syn.flt.res, t.syn.flt.cutoff, t.syn.flt.q)) =
    some (0x3ECCCCCC, 0x4012F1DD, 0x3F800000, 0x3F800000) := by decide +kernel

/-- F2, call 2: the stages before the tangent, on the history of call 1. -/
theorem test_fltGen : next (testCommand (Cmd.fltGen (toyEnv [])) (toy.setFlt
      { cutoff := 0x3F800000, q := 0x3F800000, res := 0x4012F1DD, p := 0x3ECCCCCC, k := 0xBE7043A8
        px := 0x3F800000, s := #v[0x3ECCCCCC, 0x3E23D709, 0x3D83126D, 0x3CD1AB5A]
        ps := #v[0x3ECCCCCC, 0x3E23D709, 0x3D83126D] })) (fun t => (t.syn.flt.px, t.syn.flt.ps)) =
    some (0xBD70B3A1, #v[0x3EF0D159, 0x3EC577DF, 0x3E6EE333]) := by decide +kernel

/-- F4 (a): silence on an empty history. -/
theorem test_fltGen_silent : next (exec .fltGen toy) (fun t => (data t, t.syn.flt)) =
    some (some 0, toy.syn.flt) := by decide +kernel

/-! ## Note and Sequence (section 2.6) -/

/-- N1 -/
theorem test_noteNew : next (testCommand (Cmd.noteNew (toyEnv [3, 5]) 1) { toy with seq.length := 4, seq.scale := 2 })
    (fun t => (t.note 1, t.rng)) = some (⟨3, 0x40B00000⟩, ⟨2⟩) := by decide +kernel

/-- N2 -/
theorem test_noteDefault : next (exec (.noteDefault 7) (toy.setNote 7 ⟨3, 0x3F800000⟩)) (·.note 7) =
    some ⟨0, 0x00000000⟩ := by decide

/-- The script of N4. -/
def n4 : List Nat := [0x42F00000, 0, 0, 1, 0, 2, 2, 1, 4, 6]

/-- N4 -/
theorem test_seqNew : next (testCommand (Cmd.seqNew (toyEnv n4)) { toy with arg1 := 8 }) (fun t => (t.seq, t.rng)) =
    some (⟨4, 0, 3, 2, #v[⟨1, 0x3F800000⟩, ⟨2, 0x40000000⟩, ⟨1, 0x40400000⟩, ⟨0, 0⟩, ⟨0, 0⟩, ⟨0, 0⟩, ⟨0, 0⟩,
      ⟨0, 0⟩]⟩, ⟨10⟩) := by decide +kernel

/-- N5: no scales; the tempo is written, nothing else. -/
theorem test_seqNew_noScales : next (testCommand (Cmd.seqNew (toyEnv n4))
      { State.resetWith true { toyCfg with nScales := 0 } with arg1 := 8 })
    (fun t => (statusFlag t, t.seq.tempo, t.seq.length, t.rng)) = some (some (.errSelect, false), 4, 3, ⟨1⟩) := by
  decide +kernel

/-- The state of N7. -/
def n7 : State :=
  { toy with
    seq := ⟨4, 0, 3, 0, #v[⟨1, 0x3F800000⟩, ⟨2, 0x40000000⟩, ⟨1, 0x40400000⟩, ⟨0, 0⟩, ⟨0, 0⟩, ⟨0, 0⟩, ⟨0, 0⟩, ⟨0, 0⟩]⟩
    clk := #v[⟨5, 6⟩, ⟨3, 4⟩, ⟨0, 0⟩, ⟨0, 10⟩] }

/-- N7: the event carries the Note written in the same call. -/
theorem test_seqNext_mutates_first : next (testCommand (Cmd.seqNext (toyEnv [0, 3, 6, 100])) n7)
    (fun t => (statusFlag t, data t, t.clock 0, t.note 1)) =
    some (some (.ok, true), some 0x0000000C40800000, ⟨0, 100⟩, ⟨3, 0x40800000⟩) := by decide +kernel

/-- S11, call 3: between two boundaries. -/
theorem test_seqNext_between : next (exec .seqNext { n7 with clk := #v[⟨1, 6⟩, ⟨0, 4⟩, ⟨0, 0⟩, ⟨0, 0⟩] })
    (fun t => (statusFlag t, data t, t.clock 1, t.seq.cursor)) = some (some (.ok, false), some 0, ⟨1, 4⟩, 0) := by
  decide +kernel

/-- N6, first line: the playing slot is skipped. -/
theorem test_seqMutate_skips : next (testCommand (Cmd.seqMutate (toyEnv [1, 2, 7, 50]))
      { toy with seq.length := 4, seq.cursor := 1 }) (fun t => (t.note 2, t.clock 0)) =
    some (⟨2, 0x40900000⟩, ⟨0, 50⟩) := by decide +kernel

/-- N6, one active slot. -/
theorem test_seqMutate_single : next (exec .seqMutate { toy with seq.length := 1 }) statusFlag =
    some (some (.errSelect, false)) := by decide +kernel

/-! ## Synth (section 2.7) -/

/-- The script of Y1. -/
def y1Script : List Nat :=
  [0, 0x3F800000, 2, 0x3F800000, 0x3E800000, 0x3E800000, 0x3F000000, 0x3E800000, 0x3F800000, 0x3F800000, 10]

/-- The Operators, the ADSR and the Clock of Y1. -/
def y1 : State :=
  (((((toy.setSynSr 8).setOper 0 ⟨8, 0, 0x3F800000, 0, 0⟩).setOper 1 ⟨8, 0, 0x3F800000, 0, 0⟩).setOper 2
    ⟨8, 0, 0x3F800000, 1, 0⟩).setAdsr a1).setClock 3 ⟨0, 10⟩

/-- Y1 -/
theorem test_synNew : next (testCommand (Cmd.synNew (toyEnv y1Script)) { toy with arg1 := 8 })
    (fun t => (t.syn.op, t.syn.adsr, t.clock 3, t.rng)) = some (y1.syn.op, a1, ⟨0, 10⟩, ⟨11⟩) := by decide +kernel

/-- Y2: no mutation is due. -/
theorem test_synPlay : next (exec .synPlay { y1 with arg0 := 0x000000043F800000 })
    (fun t => ((t.oper 2).freq, t.syn.adsr.delta, t.clock 2)) = some (0x3F800000, 0x3F800000, ⟨0, 1⟩) := by
  decide +kernel

/-- Y6: a mutation that is due precedes the frequencies. -/
theorem test_synPlay_mutates : next (testCommand (Cmd.synPlay (toyEnv [0, 3, 0x3F000000, 1000]))
      { y1.setClock 3 ⟨10, 10⟩ with arg0 := 0x0000000C40800000 })
    (fun t => (t.oper 1, t.syn.adsr.delta, t.clock 3)) =
    some (⟨8, 0x40000000, 0x3F000000, 2, 0⟩, 0x3EAAAAAB, ⟨0, 1000⟩) := by decide +kernel

/-- Y8, with three Sine Operators: silence, exact for any NUM. -/
theorem test_synNext_silent : next (exec .synNext (y1.setOper 2 ⟨8, 0, 0x3F800000, 0, 0⟩))
    (fun t => (data t, t.clock 3, (t.oper 2).phase)) = some (some 0, ⟨1, 10⟩, 1) := by decide +kernel

/-- Y5, second script. -/
theorem test_synMutate : next (testCommand (Cmd.synMutate (toyEnv [1, 2, 0x3FC00000, 9])) y1)
    (fun t => (t.oper 2, t.clock 3, t.rng)) = some (⟨8, 0, 0x3FC00000, 1, 0⟩, ⟨0, 9⟩, ⟨4⟩) := by decide +kernel

/-! ## Engine (section 2.8) -/

/-- The construction of the run: 21 draws, N4 and Y1. -/
theorem test_engNew : next (hostCommand (Cmd.engNew (toyEnv (n4 ++ y1Script))) { toy with arg0 := 1, arg1 := 8 })
    (fun t => (t.ready, t.seq.cursor, t.oper 2, t.rng)) = some (true, 2, ⟨8, 0, 0x3F800000, 1, 0⟩, ⟨21⟩) := by
  decide +kernel

/-- E2: a construction that fails leaves the engine not ready, the Sequence built. -/
theorem test_engNew_fails : next (hostCommand (Cmd.engNew (toyEnv n4)) { toyNoPool with ready := true, arg1 := 8 })
    (fun t => (statusFlag t, t.ready, t.seq.cursor, t.rng)) = some (some (.errSelect, false), false, 2, ⟨10⟩) := by
  decide +kernel

/-- E1 -/
theorem test_engNext_notReady : next (exec .engNext toy) (fun t => (statusFlag t, t.clk)) =
    some (some (.errState, false), toy.clk) := by decide

/-- Call 1 of the run: the first Note is started. -/
theorem test_engNext_first : next (hostCommand (Cmd.engNext (toyEnv []))
      { n7 with ready := true, seq.cursor := 2, syn := y1.syn, clk := #v[⟨0, 6⟩, ⟨0, 0⟩, ⟨0, 0⟩, ⟨0, 10⟩] })
    (fun t => (t.seq.cursor, t.clock 1, t.syn.adsr.state, t.clock 2)) = some (0, ⟨0, 4⟩, 2, ⟨0, 1⟩) := by
  decide +kernel

/-! ## System (sections 1, 2.9) -/

/-- S2: a Clock's registers. -/
theorem test_rdreg : next (exec (.rdreg 0x0105) (toy.setClock 0 ⟨0, 5⟩)) data = some (some 5) ∧
    next (exec (.rdreg 0x0000) { toy with ready := true }) data = some (some 3) := by decide

theorem test_rdreg_unmapped : next (exec (.rdreg 0x026D) toy) statusFlag = some (some (.errValue, false)) := by
  decide

/-- S4: the attack fraction. -/
theorem test_wrreg : next (exec (.wrreg 0x0240) { toy with arg0 := 0x000000003F000000 }) (·.syn.adsr.attack) =
    some 0x3F000000 := by decide

/-- A8: a reserved envelope state cannot be written. -/
theorem test_wrreg_reserved : next (exec (.wrreg 0x0249) { toy with arg0 := 5 })
    (fun t => (statusFlag t, t.syn.adsr.state)) = some (some (.errValue, false), 0) := by decide

theorem test_rngSeed : next (testCommand (Cmd.rngSeed (toyEnv [])) { toy with rng := ⟨9⟩, arg0 := 1 }) (·.rng) =
    some ⟨0⟩ := by decide

/-- At HOST level a TEST operation answers ERR_ILLEGAL and does nothing (30_encoding.md R88). -/
theorem test_host_level : next (exec (.clkTick 0) { toy with testEn := false })
    (fun t => (statusFlag t, t.clock 0)) = some (some (.errIllegal, false), ⟨0, 0⟩) := by decide

/-! ## Witnesses: concrete states and operands that meet the hypotheses of each statement -/

/-- A state whose one pending event is a command. -/
def presenting (s : State) (word : Word) (arg0 : DWord) (arg1 : Word) : State :=
  { s with pending := [.command ⟨word, arg0, arg1⟩] }

theorem witness_StepPerformsTheDecodedCommand :
    (presenting toy 0x12020000 0 0).pending = [.command ⟨0x12020000, 0, 0⟩] ∧
    decode 0x12020000 = .ok (.clkTick 2) := by decide

theorem witness_StepAnswersIllegalToUnmatchedWords :
    (presenting toy 0x12040000 0 0).pending = [.command ⟨0x12040000, 0, 0⟩] ∧
    (∀ r ∈ opcodeTable, r.matches 0x12040000 = false) ∧ (∀ r ∈ opcodeTable, r.matches 0x02000001 = false) := by
  decide

theorem witness_HostLevelAdmitsTwoWords :
    (presenting { toy with testEn := false } 0xF0000000 0 0).pending = [.command ⟨0xF0000000, 0, 0⟩] ∧
    (presenting { toy with testEn := false } 0xF0000000 0 0).testEn = false ∧
    (0xF0000000 : Word) ≠ 0x01000000 ∧ (0xF0000000 : Word) ≠ 0x02000000 := by decide

theorem witness_ResetLeavesNoEngine : toy.pending = [] ∧
    ({ toy with pending := [.reset false, .reset true] } : State).pending = [.reset false, .reset true] := by decide

theorem witness_CommandsKeepLevelAndConfiguration :
    (presenting toy 0x12020000 0 0).pending = [.command ⟨0x12020000, 0, 0⟩] ∧
    ∃ t, step (presenting toy 0x12020000 0 0) = .next t := ⟨by decide, _, rfl⟩

theorem witness_ResponsesFollowTheStatusTable :
    (∃ t, exec (.clkTick 3) toy = .next t) ∧
    ∃ t, exec .engNext toy = .next t ∧ t.resp = some ⟨.errState, false, 0⟩ := ⟨⟨_, rfl⟩, _, rfl, rfl⟩

theorem witness_CheckedErrorsChangeNoState :
    (∃ t, exec .engNext toy = .next t ∧ t.resp = some ⟨.errState, false, 0⟩) ∧
    (∃ t, exec .rngSeed { toy with testEn := false } = .next t ∧ t.resp = some ⟨.errIllegal, false, 0⟩) ∧
    ∃ t, exec (.rdreg 0x026D) toy = .next t ∧ t.resp = some ⟨.errValue, false, 0⟩ :=
  ⟨⟨_, rfl, rfl⟩, ⟨_, rfl, rfl⟩, _, rfl, rfl⟩

/-- A pool of five entries of weight 0. -/
def zeroPool : Cfg := { toyCfg with pool := Vector.replicate 5 ⟨0, .sine, 0x3F000000, 0x40000000⟩ }

theorem witness_SelectFailKeepsEarlierWrites_pool :
    toyNoPool.testEn = true ∧ (∀ k : Fin toyNoPool.cfg.nPool.val, (poolEntry toyNoPool.cfg k).weight = 0) ∧
    (∀ k : Fin zeroPool.nPool.val, (poolEntry zeroPool k).weight = 0) ∧
    (toyNoPool.clock 3).deadline ≤ (toyNoPool.clock 3).tick := by decide

theorem witness_SelectFailKeepsEarlierWrites_slot :
    let s : State := { toy.setClock 0 ⟨4, 5⟩ with seq.length := 1, ready := true }
    s.testEn = true ∧ s.seq.length = 1 ∧ (s.clock 0).deadline ≤ (s.clock 0).tick + 1 ∧ s.ready = true := by decide

theorem witness_SelectFailKeepsEarlierWrites_scale :
    let s := State.resetWith true { toyCfg with nScales := 0 }
    s.testEn = true ∧ flt s.cfg.tempoLo s.cfg.tempoHi = true ∧ s.cfg.nScales.val = 0 := by decide +kernel

theorem witness_ErrorsComeFromTheirOperations :
    (∃ t, exec .engNext toy = .next t ∧ t.resp = some ⟨.errState, false, 0⟩) ∧
    (∃ t, exec .rngSeed { toy with testEn := false } = .next t ∧ t.resp = some ⟨.errIllegal, false, 0⟩) ∧
    (∃ t, exec (.opNew 1) { toy with arg0 := 0x0000000300000000 } = .next t ∧
      t.resp = some ⟨.errValue, false, 0⟩) ∧
    ∃ t, exec .seqMutate { toy with seq.length := 1 } = .next t ∧ t.resp = some ⟨.errSelect, false, 0⟩ :=
  ⟨⟨_, rfl, rfl⟩, ⟨_, rfl, rfl⟩, ⟨_, rfl, rfl⟩, _, rfl, rfl⟩

theorem witness_OnlySquareStopsOnLegalRegisters :
    RegistersLegal (presenting toy 0x21000000 0 0) ∧ CfgWellFormed (presenting toy 0x21000000 0 0).cfg ∧
    step (presenting toy 0x21000000 0 0) = .fault .squareZeroDivisor :=
  ⟨(registersLegal_iff _).mpr ⟨toy_legal.scale, toy_legal.length, toy_legal.dur, toy_legal.wave, toy_legal.adsr⟩,
    toyCfg_wellFormed, rfl⟩

theorem witness_StepKeepsRegistersLegal :
    RegistersLegal (presenting toy 0xF1000102 8 0) ∧ ∃ t, step (presenting toy 0xF1000102 8 0) = .next t :=
  ⟨(registersLegal_iff _).mpr ⟨toy_legal.scale, toy_legal.length, toy_legal.dur, toy_legal.wave, toy_legal.adsr⟩,
    _, rfl⟩

theorem witness_DecodeInvertsEncode : (Instr.clkReset 3).wellFormed = true ∧ (Instr.opNext 2).wellFormed = true ∧
    (Instr.noteNew 7).wellFormed = true ∧ (Instr.rdreg 0xFFFF).wellFormed = true := by decide

theorem witness_EncodeInvertsDecode : decode 0xF100FFFF = .ok (.wrreg 0xFFFF) := by decide

/-- The addresses beside the map's. -/
theorem witness_RdregReadsTheMap : toy.testEn = true ∧ (∀ r : Reg, r.addr ≠ 0x0001) ∧ (∀ r : Reg, r.addr ≠ 0x0215) ∧
    (∀ r : Reg, r.addr ≠ 0x026D) ∧ (∀ r : Reg, r.addr ≠ 0xFFFF) := by
  refine ⟨rfl, ?_, ?_, ?_, ?_⟩ <;> intro r <;> cases r <;> first | decide | (rename_i k; revert k; decide)

/-- Legal values at the ends of `seq.length`'s range, and the values that are refused. -/
theorem witness_WrregWritesOneRegister :
    let s (v : DWord) : State := { toy with arg0 := v }
    (s 1).testEn = true ∧ (s 1).argHigh = 0 ∧ Reg.seqLength.legal (s 1).argLow = true ∧
    (s 8).argHigh = 0 ∧ Reg.seqLength.legal (s 8).argLow = true ∧ Reg.engStatus.legal (s 3).argLow = true ∧
    Reg.seqLength.legal (s 0).argLow = false ∧ Reg.seqLength.legal (s 9).argLow = false ∧
    (s 0x0000000100000000).argHigh ≠ 0 := by decide

theorem witness_RngSeedDependsOnTheSeedAlone : toy.testEn = true := rfl

theorem witness_NumericAnchors : isNaN 0x7F800000 = false ∧ isNaN 0xFF800000 = false := by decide

theorem witness_ClockIsArmed : (3 : Byte).toNat = (3 : Fin 4).val ∧ toy.testEn = true := by decide

theorem witness_ClockTicksAndPeeks : (0 : Byte).toNat = (0 : Fin 4).val ∧ toy.testEn = true := by decide

theorem witness_ArmedClockFiresOnItsDthTick : (2 : Byte).toNat = (2 : Fin 4).val ∧ toy.testEn = true ∧
    ∃ t, exec (.clkDeadline 2) { toy with arg1 := 5 } = .next t := ⟨by decide, rfl, _, rfl⟩

theorem witness_SigSineAndSigSawResults : toy.testEn = true := rfl

/-- The divisors at their smallest, and both that are zero. -/
theorem witness_SigSquareResult :
    let s (f : DWord) (r : Word) : State := { toy with arg0 := f, arg1 := r }
    (s 0x3F800000 1).testEn = true ∧ (s 0x3F800000 1).arg1 ≠ 0 ∧
    (f2u ((s 0x3F800000 1).arg0.setWidth 32)).toNat ≠ 0 ∧ (s 0x3F800000 0).arg1 = 0 ∧
    (f2u ((s 0x3F7FFFFF 1).arg0.setWidth 32)).toNat = 0 := by decide +kernel

theorem witness_OpNewConstructs : (2 : Byte).toNat = (2 : Fin 3).val ∧ toy.testEn = true ∧
    ({ toy with arg0 := 0x0000000200000000 } : State).argWave ≠ 3 ∧
    ({ toy with arg0 := 0x0000000300000000 } : State).argWave = 3 := by decide

theorem witness_OpRandomDrawsFromThePool : (2 : Byte).toNat = (2 : Fin 3).val ∧ toy.testEn = true ∧
    (∃ k : Fin toy.cfg.nPool.val, (poolEntry toy.cfg k).weight ≠ 0) ∧
    (∀ k : Fin toy.cfg.nPool.val, flt (poolEntry toy.cfg k).ratioLo (poolEntry toy.cfg k).ratioHi = true) ∧
    (∀ k : Fin zeroPool.nPool.val, (poolEntry zeroPool k).weight = 0) := by decide +kernel

theorem witness_OpSetfScalesTheBase : (2 : Byte).toNat = (2 : Fin 3).val ∧ toy.testEn = true := by decide

/-- Each waveform, and each stop. -/
theorem witness_OpNextAdvancesThenEvaluates :
    let o (w : BitVec 2) (r : Word) (f : F32) : Oper := (toy.setOper 2 ⟨r, f, 0x3F800000, w, 0⟩).oper 2
    (2 : Byte).toNat = (2 : Fin 3).val ∧ toy.testEn = true ∧ (o 0 8 0).wave = 0 ∧
    ((o 1 1 0x3F800000).wave = 1 ∧ (o 1 1 0x3F800000).sr ≠ 0 ∧ f2u (o 1 1 0x3F800000).freq ≠ 0) ∧
    ((o 1 0 0x3F800000).wave = 1 ∧ (o 1 0 0x3F800000).sr = 0 ∧ f2u (o 1 8 0x3F7FFFFF).freq = 0) ∧
    (o 2 8 0).wave = 2 ∧ (o 3 8 0).wave = 3 := by decide +kernel

theorem witness_AdsrNewDrawsFourFractions : toy.testEn = true ∧ flt toy.cfg.attLo toy.cfg.attHi = true ∧
    flt toy.cfg.decLo toy.cfg.decHi = true ∧ flt toy.cfg.susLo toy.cfg.susHi = true ∧
    flt toy.cfg.relLo toy.cfg.relHi = true := by decide +kernel

theorem witness_AdsrStartEntersAttack : toy.testEn = true := rfl

/-- The Clock just before and at its deadline, with every state. -/
theorem witness_AdsrNextFollowsItsCaseTable :
    let s (tick : Word) (x : BitVec 3) : State := (toy.setAdsr { a1 with state := x }).setClock 2 ⟨tick, 4⟩
    ((s 2 1).clock 2).tick + 1 < ((s 2 1).clock 2).deadline ∧
    (∀ x, ((s 3 x).clock 2).deadline ≤ ((s 3 x).clock 2).tick + 1 ∧ (s 3 x).syn.adsr.state = x ∧
      (s 3 x).testEn = true) := by decide

theorem witness_EnvelopeOnlyAdvancesForward : ∃ t, exec .adsrNext (toy.setAdsr { a1 with state := 1 }) = .next t :=
  ⟨_, rfl⟩

theorem witness_FltNewDerivesCoefficients : toy.testEn = true ∧ flt toy.cfg.cutoffLo toy.cfg.cutoffHi = true ∧
    flt toy.cfg.qLo toy.cfg.qHi = true := by decide +kernel

theorem witness_FltGenRunsTheCascade : toy.testEn = true := rfl

/-- An empty history: no NaN on the way. -/
theorem witness_SamplesAreBounded : ∃ t, exec .fltGen toy = .next t ∧ AnsweredOk t ∧
    isNaN (filterStage Config.env.num toy.syn.flt t.syn.flt.s[2] toy.syn.flt.ps[2] toy.syn.flt.s[3]) = false :=
  ⟨_, rfl, ⟨_, _, rfl⟩, by decide +kernel⟩

theorem witness_NotesAreDrawnOrZero : (7 : Byte).toNat = (7 : Fin 8).val ∧ toy.testEn = true ∧
    ({ toy with seq.scale := 20, seq.length := 1 } : State).seq.scale.toNat < 21 ∧
    1 ≤ ({ toy with seq.scale := 20, seq.length := 1 } : State).seq.length.toNat := by decide

theorem witness_SeqNewConstructsTheSequence : toy.testEn = true ∧ flt toy.cfg.tempoLo toy.cfg.tempoHi = true ∧
    0 < toy.cfg.nScales.val ∧ 0 < toy.cfg.nMetres.val ∧ toy.cfg.seqMutLo < toy.cfg.seqMutHi := by decide +kernel

theorem n7_legal : Legal n7 := by refine ⟨by decide, by decide, ?_, ?_, by decide⟩ <;> decide

/-- A mutation of a Sequence of two slots or more is answered OK. -/
theorem seqMutate_answersOk {s : State} (hs : s.testEn = true) (wf : CfgWellFormed s.cfg) (hl : Legal s)
    (h : 2 ≤ s.seq.length.toNat) : ∃ u, exec .seqMutate s = .next u ∧ AnsweredOk u := by
  obtain ⟨v, hv⟩ := seqMutate_ends wf Config.env hl h
  refine ⟨v.answer ⟨.ok, false, 0⟩, ?_, _, _, rfl⟩
  show testCommand (Cmd.seqMutate Config.env) s = _
  rw [testCommand_test hs]
  exact congrArg respond (bind_ok hv)

theorem witness_SeqNextTicksBothClocks_quiet :
    let s := toy.setClock 0 ⟨3, 5⟩
    s.testEn = true ∧ 1 ≤ s.seq.length.toNat ∧ s.seq.length.toNat ≤ 8 ∧
    (s.clock 0).tick + 1 < (s.clock 0).deadline := by decide

theorem witness_SeqNextTicksBothClocks_ok : n7.testEn = true ∧ (n7.clock 0).deadline ≤ (n7.clock 0).tick + 1 ∧
    ∃ u, exec .seqMutate (n7.setClock 0 ⟨(n7.clock 0).tick + 1, (n7.clock 0).deadline⟩) = .next u ∧ AnsweredOk u :=
  ⟨rfl, by decide, seqMutate_answersOk rfl toyCfg_wellFormed (n7_legal.setClock _ _) (by decide)⟩

theorem witness_SeqNextTicksBothClocks_fail :
    let s : State := { n7 with seq.length := 1 }
    (s.clock 0).deadline ≤ (s.clock 0).tick + 1 ∧ 1 ≤ s.seq.length.toNat ∧
    ∃ u, exec .seqMutate (s.setClock 0 ⟨(s.clock 0).tick + 1, (s.clock 0).deadline⟩) = .next u ∧
      AnsweredSelectFail u := ⟨by decide, by decide, _, rfl, rfl⟩

theorem witness_SeqMutateReplacesAnotherSlot :
    let s (l : BitVec 4) : State := { toy with seq.length := l, seq.scale := 20 }
    (s 2).testEn = true ∧ 2 ≤ (s 2).seq.length.toNat ∧ 2 ≤ (s 8).seq.length.toNat ∧ (s 8).seq.length.toNat ≤ 8 ∧
    (s 2).seq.scale.toNat ≤ 20 ∧ (s 2).cfg.seqMutLo < (s 2).cfg.seqMutHi ∧ (s 1).seq.length = 1 := by decide

/-- A construction under the toy configuration is answered OK. -/
theorem engNew_answersOk {s : State} (hl : Legal s) (hc : s.cfg = toyCfg) :
    ∃ t, exec .engNew s = .next t ∧ AnsweredOk t := by
  obtain ⟨_, v, hv, -, -⟩ := ends_engNew toyCfg_wellFormed Config.env s.arg0 s.arg1 s hl hc
  refine ⟨v.answer ⟨.ok, false, 0⟩, ?_, _, _, rfl⟩
  show respond ((engNew Config.env s.arg0 s.arg1 >>= fun _ => pure Answer.none) s) = _
  exact congrArg respond (bind_ok hv)

/-- An engine between two samples: the state of N7 with the voice of Y1. -/
def running : State := { n7 with ready := true, syn := y1.syn, clk := #v[⟨0, 6⟩, ⟨0, 4⟩, ⟨0, 2⟩, ⟨0, 10⟩] }

theorem n7_sequenceInv : SequenceInv n7 := by unfold SequenceInv; decide

theorem witness_SequenceInvariantHoldsOfAnEngine :
    (∃ t, exec .engNew toy = .next t ∧ AnsweredOk t) ∧
    SequenceInv (running.setOper 2 (running.oper 0)) ∧
    ∃ t, exec .engNext (running.setOper 2 (running.oper 0)) = .next t ∧ AnsweredOk t :=
  ⟨engNew_answersOk toy_legal rfl, n7_sequenceInv, _, rfl, _, _, rfl⟩

theorem witness_ScaleTempoLengthAreFixed : ∃ t, exec .adsrNext toy = .next t := ⟨_, rfl⟩

theorem witness_SynNewConstructsTheVoice : toy.testEn = true ∧ CfgWellFormed toy.cfg := ⟨rfl, toyCfg_wellFormed⟩

theorem witness_SynPlayStartsANote_quiet : y1.testEn = true ∧ (y1.clock 3).tick < (y1.clock 3).deadline := by decide

theorem witness_SynPlayStartsANote_ok : toy.testEn = true ∧ (toy.clock 3).deadline ≤ (toy.clock 3).tick ∧
    ∃ u, exec .synMutate toy = .next u ∧ AnsweredOk u := by
  obtain ⟨_, v, hv, -, -⟩ := ends_synMutate toyCfg_wellFormed Config.env toy toy_legal rfl
  exact ⟨rfl, by decide, v.answer ⟨.ok, false, 0⟩, congrArg respond (bind_ok hv), _, _, rfl⟩

theorem witness_SynPlayStartsANote_fail : (toyNoPool.clock 3).deadline ≤ (toyNoPool.clock 3).tick ∧
    ∃ u, exec .synMutate toyNoPool = .next u ∧ AnsweredSelectFail u := ⟨by decide, _, rfl, rfl⟩

theorem witness_SynNextComposesOneSample :
    let s := y1.setOper 2 ⟨8, 0x3F800000, 0x3F800000, 1, 0⟩
    s.testEn = true ∧ (∀ j, OperatorRuns s j) ∧ s.syn.adsr.state.toNat ≤ 4 := by
  unfold OperatorRuns
  decide +kernel

theorem witness_SynMutateReplacesAModulator : toy.testEn = true ∧ CfgWellFormed toy.cfg := ⟨rfl, toyCfg_wellFormed⟩

theorem witness_EngNewRunsItsSteps : toy.testEn = true ∧ CfgWellFormed toy.cfg := ⟨rfl, toyCfg_wellFormed⟩

theorem witness_EngNewRunsItsSteps_fail :
    let s : State := { State.resetWith true { toyCfg with nScales := 0 } with ready := true, arg1 := 8 }
    ∃ t, exec .engNew s = .next t ∧ ¬ AnsweredOk t := by
  refine ⟨_, rfl, fun h => ?_⟩
  obtain ⟨_, _, h⟩ := h
  cases h

theorem witness_EngNextRunsItsSteps_quiet : toy.ready = false ∧ running.testEn = true ∧ running.ready = true ∧
    ∃ u, exec .seqNext running = .next u ∧ u.resp = some ⟨.ok, false, 0⟩ := ⟨rfl, rfl, rfl, _, rfl, rfl⟩

theorem witness_EngNextRunsItsSteps_event : ∃ u data v, exec .seqNext (running.setClock 1 ⟨3, 4⟩) = .next u ∧
    u.resp = some ⟨.ok, true, data⟩ ∧ exec .synPlay { u with arg0 := data } = .next v ∧ AnsweredOk v :=
  ⟨_, _, _, rfl, rfl, rfl, _, _, rfl⟩

theorem witness_EngNextRunsItsSteps_fail :
    (∃ u data v, exec .seqNext { (running.setClock 1 ⟨3, 4⟩).setClock 3 ⟨9, 9⟩ with cfg := toyNoPool.cfg } = .next u ∧
      u.resp = some ⟨.ok, true, data⟩ ∧ exec .synPlay { u with arg0 := data } = .next v ∧ AnsweredSelectFail v) ∧
    ∃ u, exec .seqNext { running.setClock 0 ⟨5, 6⟩ with seq.length := 1 } = .next u ∧ AnsweredSelectFail u :=
  ⟨⟨_, _, _, rfl, rfl, rfl, rfl⟩, _, rfl, rfl⟩

theorem witness_EngNewEstablishesTheInvariant : CfgWellFormed ({ toy with arg1 := 8 } : State).cfg ∧
    ({ toy with arg1 := 8 } : State).arg1 ≠ 0 := ⟨toyCfg_wellFormed, by decide⟩

/-- The third Operator is a Square: its frequency is above 1 and its ratio is one the pool can draw. -/
theorem witness_EngNextIsInfallible : EngineInv (running.setOper 2 ⟨8, 0x3F800000, 0x3F800000, 1, 0⟩) where
  ready := rfl
  cfg := toyCfg_wellFormed
  sequence := n7_sequenceInv
  scale := by decide
  notes := by unfold NotesInScale; decide +kernel
  sr := by decide
  adsr := by decide
  oper := by
    have hw : ∀ j, ((running.setOper 2 ⟨8, 0x3F800000, 0x3F800000, 1, 0⟩).oper j).wave ≠ 3 ∧
        ((running.setOper 2 ⟨8, 0x3F800000, 0x3F800000, 1, 0⟩).oper j).sr ≠ 0 ∧
        ((running.setOper 2 ⟨8, 0x3F800000, 0x3F800000, 1, 0⟩).oper j).ratio = 0x3F800000 := by decide
    have hd : drawable (toyCfg.pool[(2 : Fin 5)]) 0x3F800000 := by unfold drawable; decide +kernel
    intro j
    obtain ⟨h1, h2, h3⟩ := hw j
    exact ⟨h1, h2, fun _ => by rw [h3]; exact toyCfg_wellFormed.square 2 rfl _ hd⟩
  running := by unfold OperatorRuns; decide +kernel

theorem witness_FirstSampleStartsTheFirstNote : CfgWellFormed ({ toy with arg1 := 1 } : State).cfg ∧
    ({ toy with arg1 := 1 } : State).arg1 ≠ 0 := ⟨toyCfg_wellFormed, by decide⟩

theorem witness_EngNewForgetsEarlierState : running.cfg = toy.cfg ∧ running.arg0 = toy.arg0 ∧
    running.arg1 = toy.arg1 ∧ running ≠ toy ∧ ∃ t, exec .engNew toy = .next t ∧ AnsweredOk t :=
  ⟨rfl, rfl, rfl, by decide, engNew_answersOk toy_legal rfl⟩

theorem witness_EngineRunsAreDeterministic :
    let s : State := { running with pending := engineLife 1 8 18, testEn := false }
    let s' : State := { toy with pending := engineLife 1 8 18 }
    s.cfg = s'.cfg ∧ s.pending = engineLife 1 8 18 ∧ s'.pending = engineLife 1 8 18 ∧ s.ready ≠ s'.ready :=
  ⟨rfl, rfl, rfl, by decide⟩

theorem witness_ClockSignalSystemFrames : (∃ t, exec (.clkTick 3) toy = .next t) ∧
    (∃ t, exec .sigSine toy = .next t) ∧ ∃ t, exec (.wrreg 0x0102) { toy with arg0 := 8 } = .next t :=
  ⟨⟨_, rfl⟩, ⟨_, rfl⟩, _, rfl⟩

theorem witness_OperatorAdsrFilterFrames : (∃ t, exec (.opSetf 2) toy = .next t) ∧
    (∃ t, exec .adsrStart toy = .next t) ∧ ∃ t, exec .fltGen toy = .next t := ⟨⟨_, rfl⟩, ⟨_, rfl⟩, _, rfl⟩

theorem witness_NoteSequenceFrames : (∃ t, exec (.noteDefault 7) toy = .next t) ∧
    (∃ u, exec .seqMutate n7 = .next u ∧ AnsweredOk u) ∧ ∃ t, exec .seqNext running = .next t :=
  ⟨⟨_, rfl⟩, seqMutate_answersOk rfl toyCfg_wellFormed n7_legal (by decide), _, rfl⟩

theorem witness_SynthEngineFrames : (∃ t, exec .synPlay y1 = .next t) ∧
    ∃ t, exec .engNew toy = .next t ∧ AnsweredOk t := ⟨⟨_, rfl⟩, engNew_answersOk toy_legal rfl⟩

/-- A tie between the patterns 0 and 1, and one between 1 and 2; the quotient at which infinity begins, and the
one below it. -/
theorem witness_RoundingIsToNearestEven : 0 < 2 ∧ roundUnits 1 2 < 0x7F800000 ∧ 1 ≠ roundUnits 1 2 ∧
    roundUnits 3 2 = 2 ∧ 1 ≠ roundUnits 3 2 ∧ roundUnits ((2 ^ 25 - 1) * 2 ^ 252) 1 = 0x7F800000 ∧
    roundUnits ((2 ^ 25 - 1) * 2 ^ 252 - 1) 1 = 0x7F7FFFFF := by decide +kernel

/-- 1.0 and the least subnormal, both zeros, an infinity, a NaN, and the ends of `f2u`'s range. -/
theorem witness_ArithmeticRoundsTheExactResult :
    (withSign true (255 * 2 ^ 23 + 1) = 0xFF800001 ∧ withSign false (0 * 2 ^ 23 + (2 ^ 23 - 1)) = 0x007FFFFF) ∧
    (isFinite 0x3F800000 = true ∧ isFinite 0x00000001 = true ∧
      signedUnits 0x3F800000 + signedUnits 0xBF800000 = 0 ∧ signedUnits 0x3F800000 - signedUnits 0x00000001 ≠ 0) ∧
    (isFinite 0x7F7FFFFF = true ∧ isZero 0x00000001 = false ∧ isZero 0x80000000 = true) ∧
    (isInf 0x7F800000 = true ∧ isInf 0xFF800000 = true ∧ signBit 0x7F800000 ≠ signBit 0xFF800000 ∧
      isNaN 0x7F800001 = true ∧ isNaN 0xFF800000 = false) ∧
    (0xFFFFFF#32).toNat < 2 ^ 24 ∧ units 0x4F800000 = 2 ^ 32 * 2 ^ 149 ∧ units 0x4F7FFFFF < 2 ^ 32 * 2 ^ 149 ∧
    signBit 0x4F7FFFFF = false := by decide +kernel

end Sys2Proof.Tests
end

section
/-! The numeric functions `NUM` (spec/00_scope.md R13): the value at each anchor, and the bound of the
hyperbolic tangent. -/

namespace Sys2Proof.Machine

@[simp] theorem numSin_fZero (N : Numerics) : numSin N fZero = fZero := if_pos rfl

@[simp] theorem numTan_fZero (N : Numerics) : numTan N fZero = fZero := if_pos rfl

@[simp] theorem numAtan_fInf (N : Numerics) : numAtan N fInf = fHalfPi := if_pos rfl

@[simp] theorem numTanh_fZero (N : Numerics) : numTanh N fZero = fZero := if_pos rfl

@[simp] theorem numTanh_fNegZero (N : Numerics) : numTanh N fNegZero = fNegZero := if_pos rfl

/-- Away from the two zeros the supplied function answers where it keeps the bound, and `+0` stands in for it
where it does not. -/
theorem numTanh_of_ne_zero (N : Numerics) {x : F32} (hpos : x ≠ fZero) (hneg : x ≠ fNegZero)
    (hx : isNaN x = false) :
    numTanh N x = if magBits (N.tanh x) ≤ 0x3F800000 then N.tanh x else fZero := by
  simp [numTanh, hpos, hneg, hx]

theorem magBits_numTanh_le_one (N : Numerics) {x : F32} (hx : isNaN x = false) :
    magBits (numTanh N x) ≤ 0x3F800000 := by
  by_cases hpos : x = fZero
  · rw [hpos, numTanh_fZero]
    decide
  by_cases hneg : x = fNegZero
  · rw [hneg, numTanh_fNegZero]
    decide
  rw [numTanh_of_ne_zero N hpos hneg hx]
  split
  next hbound => exact hbound
  next => decide

/-- Settles O21: the five anchors, and the bound of the hyperbolic tangent. -/
theorem numericAnchors : Obligations.NumericAnchors := fun N =>
  ⟨numSin_fZero N, numTan_fZero N, numAtan_fInf N, numTanh_fZero N, numTanh_fNegZero N,
    fun _ hx => magBits_numTanh_le_one N hx⟩

end Sys2Proof.Machine
end

section
/-! SUPPORT. A command as an action on the state: `exec` performs it and answers, so what every action of an
operation keeps is kept by the operation (60_exceptions.md R205). -/

namespace Sys2Proof.Machine

variable {α β : Type}

/-! ### Relations that an action keeps -/

/-- The action ends in `t`, short of a model-level fault: with a value, or with an error answer. -/
def Leads (m : M α) (s t : State) : Prop := (∃ a, m s = .ok a t) ∨ ∃ e, m s = .error (.raise e) t

theorem keeps_iff {R : State → State → Prop} {m : M α} : Keeps R m ↔ ∀ s t, Leads m s t → R s t := by
  refine ⟨fun h s t => ?_, fun h s => ⟨fun a t e => h s t (.inl ⟨a, e⟩), fun e t g => h s t (.inr ⟨e, g⟩)⟩⟩
  rintro (⟨a, e⟩ | ⟨e, g⟩)
  · exact (h s).1 a t e
  · exact (h s).2 e t g

/-- A sequence leads where its second part leads after its first, or where the first stops with an error. -/
theorem leads_bind_iff {x : M α} {f : α → M β} {s t : State} :
    Leads (x >>= f) s t ↔ (∃ a u, x s = .ok a u ∧ Leads (f a) u t) ∨ ∃ e, x s = .error (.raise e) t := by
  unfold Leads
  rw [bind_run]
  cases h : x s with
  | ok a u => simp
  | error e u => simp

/-- A sequence whose parts keep `R` and then `Q` keeps what both together, and `R` alone, come to. -/
theorem Keeps.seq {R Q P : State → State → Prop} {x : M α} {f : α → M β} (hx : Keeps R x)
    (hf : ∀ a, Keeps Q (f a)) (hstop : ∀ {s t}, R s t → P s t) (hcomp : ∀ {s t u}, R s t → Q t u → P s u) :
    Keeps P (x >>= f) := by
  refine keeps_iff.mpr fun s u h => ?_
  obtain ⟨a, t, hok, hrest⟩ | ⟨e, hraise⟩ := leads_bind_iff.mp h
  · exact hcomp ((hx s).1 a t hok) (keeps_iff.mp (hf a) t u hrest)
  · exact hstop ((hx s).2 e u hraise)

/-- An action that takes its operands from the state. -/
theorem Keeps.reading {R : State → State → Prop} {m : State → M α} (h : ∀ s, Keeps R (m s)) :
    Keeps R (Machine.readState >>= m) :=
  fun s => h s s

/-- An action and its answer. -/
theorem Keeps.answering {R : State → State → Prop} {m : M α} (h : Keeps R m) (f : α → β) :
    Keeps R (do let a ← m; Pure.pure (f a)) := by
  refine keeps_iff.mpr fun s t hl => keeps_iff.mp h s t ?_
  obtain ⟨a, u, hok, ⟨_, hpure⟩ | ⟨_, hpure⟩⟩ | hraise := leads_bind_iff.mp hl
  · cases hpure
    exact .inl ⟨a, hok⟩
  · cases hpure
  · exact .inr hraise

theorem Keeps.pure {R : State → State → Prop} (hrefl : ∀ s, R s s) (a : α) : Keeps R (Pure.pure a : M α) :=
  fun s => ⟨fun _ _ e => (by cases e; exact hrefl s), fun _ _ e => (by cases e)⟩

theorem Keeps.readState {R : State → State → Prop} (hrefl : ∀ s, R s s) : Keeps R Machine.readState :=
  fun s => ⟨fun _ _ e => (by cases e; exact hrefl s), fun _ _ e => (by cases e)⟩

theorem Keeps.raise {R : State → State → Prop} (hrefl : ∀ s, R s s) (e : Status) :
    Keeps R (Machine.raise e : M α) :=
  fun s => ⟨fun _ _ g => (by cases g), fun _ _ g => (by cases g; exact hrefl s)⟩

theorem Keeps.doWhen {R : State → State → Prop} (hrefl : ∀ s, R s s) (b : Bool) {a : M Unit} (h : Keeps R a) :
    Keeps R (Machine.doWhen b a) := by
  cases b
  · exact Keeps.pure hrefl ()
  · exact h

/-! ### The command of an operation -/

/-- The statements `exec` performs for an operation. -/
def commandOf : Instr → M Answer
  | .engNew => Cmd.engNew Config.env
  | .engNext => Cmd.engNext Config.env
  | .clkDeadline inst => Cmd.clkDeadline inst
  | .clkDefault inst => Cmd.clkDefault inst
  | .clkTick inst => Cmd.clkTick inst
  | .clkReady inst => Cmd.clkReady inst
  | .clkReset inst => Cmd.clkReset inst
  | .sigSine => Cmd.sigSine Config.env
  | .sigSquare => Cmd.sigSquare Config.env
  | .sigSaw => Cmd.sigSaw Config.env
  | .opNew inst => Cmd.opNew inst
  | .opRandom inst => Cmd.opRandom Config.env inst
  | .opSetf inst => Cmd.opSetf Config.env inst
  | .opNext inst => Cmd.opNext Config.env inst
  | .adsrNew => Cmd.adsrNew Config.env
  | .adsrStart => Cmd.adsrStart Config.env
  | .adsrNext => Cmd.adsrNext Config.env
  | .fltNew => Cmd.fltNew Config.env
  | .fltGen => Cmd.fltGen Config.env
  | .noteNew inst => Cmd.noteNew Config.env inst
  | .noteDefault inst => Cmd.noteDefault inst
  | .seqNew => Cmd.seqNew Config.env
  | .seqNext => Cmd.seqNext Config.env
  | .seqMutate => Cmd.seqMutate Config.env
  | .synNew => Cmd.synNew Config.env
  | .synPlay => Cmd.synPlay Config.env
  | .synNext => Cmd.synNext Config.env
  | .synMutate => Cmd.synMutate Config.env
  | .rngSeed => Cmd.rngSeed Config.env
  | .rdreg a => Cmd.rdreg a
  | .wrreg a => Cmd.wrreg a

/-- `exec` performs the command, at HOST level or at TEST level only. -/
theorem exec_eq_command (i : Instr) (s : State) :
    exec i s = hostCommand (commandOf i) s ∨ exec i s = testCommand (commandOf i) s := by
  cases i with
  | engNew | engNext => exact .inl rfl
  | _ => exact .inr rfl

/-- An operation that answers puts its response on a state its command leads to, or, refused at HOST level,
on the state as it was. -/
theorem exec_next {i : Instr} {s t : State} (h : exec i s = .next t) :
    ∃ u r, t = u.answer r ∧ (u = s ∨ Leads (commandOf i) s u) := by
  have leads : respond (commandOf i s) = .next t → ∃ u r, t = u.answer r ∧ (u = s ∨ Leads (commandOf i) s u) := by
    intro g
    obtain ⟨a, u, hu, rfl⟩ | ⟨e, u, hu, rfl⟩ := respond_next_iff.mp g
    · exact ⟨u, _, rfl, .inr (.inl ⟨a, hu⟩)⟩
    · exact ⟨u, _, rfl, .inr (.inr ⟨e, hu⟩)⟩
  obtain e | e := exec_eq_command i s
  · exact leads (e.symm.trans h)
  · cases hT : s.testEn with
    | false =>
      rw [e, testCommand_host hT] at h
      cases h
      exact ⟨s, _, rfl, .inl rfl⟩
    | true =>
      rw [e, testCommand_test hT] at h
      exact leads h

/-- An operation keeps a reflexive relation that its command keeps, if the response has no part in it. -/
theorem Keeps.exec {R : State → State → Prop} {i : Instr} {s t : State} (hk : Keeps R (commandOf i))
    (hrefl : ∀ s, R s s) (hanswer : ∀ {s t} r, R s t → R s (t.answer r)) (h : exec i s = .next t) : R s t := by
  obtain ⟨u, r, rfl, rfl | hu⟩ := exec_next h
  · exact hanswer r (hrefl u)
  · exact hanswer r (keeps_iff.mp hk s u hu)

/-! ### What an operation may write -/

@[simp] theorem read_answer (r : Reg) (s : State) (x : Response) : r.read (s.answer x) = r.read s := by
  cases r <;> rfl

theorem Frame.unchanged {i : Instr} {s t : State} (h : Frame (mayWrite i) (mayDraw i) s t) : Unchanged i s t :=
  ⟨h.regs, h.rng, h.testEn, h.cfg, h.pending, h.arg0, h.arg1⟩

theorem Unchanged.answer {i : Instr} {s t : State} (x : Response) (h : Unchanged i s t) :
    Unchanged i s (t.answer x) :=
  ⟨fun r hr => (read_answer r t x).trans (h.regs r hr), h.rng, h.testEn, h.cfg, h.pending, h.arg0, h.arg1⟩

/-- A command on the unit that its `inst` field names. -/
theorem Writes.selected {W : Reg → Bool} {d : Bool} {n : Nat} {inst : Byte} {f : Fin n → M β}
    (h : ∀ k, names inst k = true → Writes W d (f k)) : Writes W d (Machine.selectInst n inst >>= f) := by
  intro s
  by_cases hn : inst.toNat < n
  · rw [bind_ok (selectInst_run hn s)]
    exact h ⟨_, hn⟩ (by simp [names]) s
  · rw [bind_error (selectInst_run_out hn s)]
    exact Writes.raise W d .errIllegal s

theorem ofClock_mayWrite {inst : Byte} {k : Fin 4} (hk : names inst k = true) (r : Reg) (h : ofClock k r = true) :
    mayWrite (.clkDeadline inst) r = true := by
  cases r with
  | clkTick j | clkDeadline j =>
    obtain rfl : j = k := by simpa [ofClock] using h
    exact hk
  | _ => cases h

theorem ofOperator_mayWrite {inst : Byte} {j : Fin 3} (hj : names inst j = true) (r : Reg)
    (h : ofOperator j r = true) : mayWrite (.opNew inst) r = true := by
  cases r with
  | opSr k | opFreq k | opRatio k | opWave k | opPhase k =>
    obtain rfl : k = j := by simpa [ofOperator] using h
    exact hj
  | _ => cases h

theorem ofNote_mayWrite {inst : Byte} {i : Fin 8} (hi : names inst i = true) (r : Reg) (h : ofNote i r = true) :
    mayWrite (.noteNew inst) r = true := by
  cases r with
  | noteDur k | noteFreq k =>
    obtain rfl : k = i := by simpa [ofNote] using h
    exact hi
  | _ => cases h

/-- A set of one register lies in every set that has it. -/
theorem single_le (W : Reg → Bool) {x : Reg} (hx : W x = true) (r : Reg) (h : decide (r = x) = true) :
    W r = true := by
  rw [of_decide_eq_true h, hx]

theorem writes_cmdSignal (W : Reg → Bool) (d : Bool) (w : WaveKind) : Writes W d (do
    let s ← readState
    let y ← signal Config.env w s.arg1 s.argLow s.argHigh
    pure (Answer.ofWord y)) :=
  Keeps.reading fun _ => (writes_signal W d _ w _ _ _).answering _

/-- Every command but WRREG writes what the register map lets its operation write. -/
theorem writes_commandOf (i : Instr) (hi : ∀ a, i ≠ .wrreg a) : Writes (mayWrite i) (mayDraw i) (commandOf i) := by
  cases i with
  | engNew => exact Keeps.reading fun s => (writes_engNew _ s.arg0 s.arg1).answering _
  | engNext => exact (writes_engNext _).answering _
  | clkDeadline inst =>
    exact Writes.selected fun k hk => Keeps.reading fun s =>
      (Writes.mono (writes_clkDeadline k s.arg1) (ofClock_mayWrite hk) id).answering _
  | clkDefault inst =>
    exact Writes.selected fun k hk => (Writes.mono (writes_clkDefault k) (ofClock_mayWrite hk) id).answering _
  | clkTick inst =>
    exact Writes.selected fun k hk =>
      (Writes.mono (writes_clkTick k) (single_le (mayWrite (.clkTick inst)) hk) id).answering _
  | clkReady inst => exact Writes.selected fun k _ => (writes_clkReady _ k).answering _
  | clkReset inst =>
    exact Writes.selected fun k hk => Keeps.reading fun s =>
      (Writes.mono (writes_clkReset k s.arg1) (ofClock_mayWrite hk) id).answering _
  | sigSine => exact writes_cmdSignal _ _ .sine
  | sigSquare => exact writes_cmdSignal _ _ .square
  | sigSaw => exact writes_cmdSignal _ _ .saw
  | opNew inst =>
    refine Writes.selected fun j hj => Keeps.reading fun s => ?_
    cases waveOf s.argWave with
    | none => exact Writes.raise _ _ _
    | some w => exact (Writes.mono (writes_opNew j _ w _) (ofOperator_mayWrite hj) id).answering _
  | opRandom inst =>
    exact Writes.selected fun j hj => Keeps.reading fun s =>
      (Writes.mono (writes_opRandom _ j s.arg1) (ofOperator_mayWrite hj) id).answering _
  | opSetf inst =>
    exact Writes.selected fun j hj => Keeps.reading fun s =>
      (Writes.mono (writes_opSetf _ j s.argLow) (single_le (mayWrite (.opSetf inst)) hj) id).answering _
  | opNext inst =>
    exact Writes.selected fun j hj =>
      (Writes.mono (writes_opNext _ j) (single_le (mayWrite (.opNext inst)) hj) id).answering _
  | adsrNew => exact (writes_adsrNew _).answering _
  | adsrStart => exact Keeps.reading fun s => (writes_adsrStart _ s.arg1).answering _
  | adsrNext => exact (writes_adsrNext _).answering _
  | fltNew => exact Keeps.reading fun s => (writes_fltNew _ s.arg1).answering _
  | fltGen => exact Keeps.reading fun s => (writes_fltGen _ s.argLow).answering _
  | noteNew inst =>
    exact Writes.selected fun k hk => (Writes.mono (writes_noteNew _ k) (ofNote_mayWrite hk) id).answering _
  | noteDefault inst =>
    exact Writes.selected fun k hk => (Writes.mono (writes_noteDefault k) (ofNote_mayWrite hk) id).answering _
  | seqNew => exact Keeps.reading fun s => (writes_seqNew _ s.arg1).answering _
  | seqNext => exact (writes_seqNext _).answering _
  | seqMutate => exact (writes_seqMutate _).answering _
  | synNew => exact Keeps.reading fun s => (writes_synNew _ s.arg1).answering _
  | synPlay => exact Keeps.reading fun s => (writes_synPlay _ s.argLow s.argHigh).answering _
  | synNext => exact (writes_synNext _).answering _
  | synMutate => exact (writes_synMutate _).answering _
  | rngSeed => exact Keeps.reading fun s => (writes_rngSeed _ _ s.arg0).answering _
  | rdreg a =>
    refine Keeps.reading fun s => ?_
    cases regAt a with
    | none => exact Writes.raise _ _ _
    | some r => exact Writes.pure _ _ _
  | wrreg a => exact absurd rfl (hi a)

/-- Every operation but WRREG that answers leaves unchanged what the register map does not let it write. -/
theorem exec_unchanged {i : Instr} {s t : State} (hi : ∀ a, i ≠ .wrreg a) (h : exec i s = .next t) :
    Unchanged i s t :=
  Keeps.exec (Keeps.mono (writes_commandOf i hi) fun _ _ => Frame.unchanged)
    (fun s => (Frame.refl _ _ s).unchanged) Unchanged.answer h

end Sys2Proof.Machine
end

section
/-! The elements that construction alone writes (spec/10_state.md R32), and the order of the envelope (R33). -/

namespace Sys2Proof.Machine

variable {α β : Type}

/-! ### Registers and elements -/

/-- A narrow register that reads the same holds the same. -/
theorem eq_of_setWidth_eq {n : Nat} (hn : n ≤ 32) {x y : BitVec n} (h : x.setWidth 32 = y.setWidth 32) : x = y := by
  have hx := BitVec.setWidth_setWidth_of_le x hn
  have hy := BitVec.setWidth_setWidth_of_le y hn
  rw [← BitVec.setWidth_eq x, ← BitVec.setWidth_eq y, ← hx, ← hy, h]

/-- Only SEQ.NEW, ENG.NEW and WRREG may write the scale, the tempo and the length. -/
theorem mayWrite_fixed {i : Instr} (hs : i ≠ .seqNew) (he : i ≠ .engNew) (hw : ∀ a, i ≠ .wrreg a) :
    mayWrite i .seqScale = false ∧ mayWrite i .seqTempo = false ∧ mayWrite i .seqLength = false := by
  cases i with
  | seqNew => exact absurd rfl hs
  | engNew => exact absurd rfl he
  | wrreg a => exact absurd rfl (hw a)
  | _ => exact ⟨rfl, rfl, rfl⟩

/-- Settles O43: the frame of every other operation holds the three registers. -/
theorem scaleTempoLengthAreFixed : Obligations.ScaleTempoLengthAreFixed := by
  intro i s t hs he hw h
  obtain ⟨hscale, htempo, hlength⟩ := mayWrite_fixed hs he hw
  have hregs := (exec_unchanged hw h).regs
  exact ⟨eq_of_setWidth_eq (by decide) (hregs .seqScale hscale), hregs .seqTempo htempo,
    eq_of_setWidth_eq (by decide) (hregs .seqLength hlength)⟩

/-! ### The envelope -/

/-- `y` follows `x` in the order Attack, Decay, Sustain, Release, Off (10_state.md R33). -/
def EnvelopeFollows (x y : BitVec 3) : Prop :=
  (x = 1 ∧ y = 2) ∨ (x = 2 ∧ y = 3) ∨ (x = 3 ∧ y = 4) ∨ (x = 4 ∧ y = 0)

/-- The envelope's state is as it was. -/
def EnvelopeStays (s t : State) : Prop := t.syn.adsr.state = s.syn.adsr.state

/-- The envelope's state is as it was or the next one. -/
def EnvelopeAdvances (s t : State) : Prop :=
  EnvelopeStays s t ∨ EnvelopeFollows s.syn.adsr.state t.syn.adsr.state

/-- The envelope's state is as it was or `x`. -/
def EnvelopeSet (x : BitVec 3) (s t : State) : Prop := EnvelopeStays s t ∨ t.syn.adsr.state = x

theorem EnvelopeStays.advances {s t u : State} (h : EnvelopeStays s t) (k : EnvelopeAdvances t u) :
    EnvelopeAdvances s u := by
  rwa [EnvelopeAdvances, EnvelopeStays, h] at k

theorem EnvelopeAdvances.stays {s t u : State} (h : EnvelopeAdvances s t) (k : EnvelopeStays t u) :
    EnvelopeAdvances s u := by
  rw [EnvelopeAdvances, EnvelopeStays, k]
  exact h

theorem EnvelopeSet.trans {x : BitVec 3} {s t u : State} (h : EnvelopeSet x s t) (k : EnvelopeSet x t u) :
    EnvelopeSet x s u := by
  obtain k | k := k
  · rwa [EnvelopeSet, EnvelopeStays, k]
  · exact .inr k

/-- A frame without the state register leaves the envelope's state. -/
theorem Frame.envelopeStays {W : Reg → Bool} {d : Bool} {s t : State} (h : Frame W d s t)
    (hW : W .adsrState = false) : EnvelopeStays s t :=
  eq_of_setWidth_eq (by decide) (h.regs .adsrState hW)

theorem Writes.envelopeStays {W : Reg → Bool} {d : Bool} {m : M α} (h : Writes W d m)
    (hW : W .adsrState = false) : Keeps EnvelopeStays m :=
  Keeps.mono h fun _ _ k => k.envelopeStays hW

theorem Writes.envelopeSet {W : Reg → Bool} {d : Bool} {m : M α} (x : BitVec 3) (h : Writes W d m)
    (hW : W .adsrState = false) : Keeps (EnvelopeSet x) m :=
  Keeps.mono (h.envelopeStays hW) fun _ _ => .inl

theorem Keeps.bindSet {x : BitVec 3} {m : M α} {f : α → M β} (hm : Keeps (EnvelopeSet x) m)
    (hf : ∀ a, Keeps (EnvelopeSet x) (f a)) : Keeps (EnvelopeSet x) (m >>= f) :=
  Keeps.bind (R := EnvelopeSet x) EnvelopeSet.trans hm hf

/-! ### The steps of the envelope -/

/-- A construction sets Off. -/
theorem adsrNew_setsOff (E : Env) : Keeps (EnvelopeSet 0) (adsrNew E) := by
  intro s
  obtain ⟨_, _, _, _, _, h⟩ | ⟨-, _, h⟩ := adsrNew_cases E s <;> rw [h]
  · exact ⟨fun _ _ g => (by cases g; exact .inr rfl), fun _ _ g => (by cases g)⟩
  · exact ⟨fun _ _ g => (by cases g), fun _ _ g => (by cases g)⟩

/-- A start sets Attack. -/
theorem adsrStart_setsAttack (E : Env) (length : Word) : Keeps (EnvelopeSet 1) (adsrStart E length) := by
  intro s
  rw [adsrStart_run]
  exact ⟨fun _ _ g => (by cases g; exact .inr rfl), fun _ _ g => (by cases g)⟩

/-- A sample advances the envelope, if at all. -/
theorem adsrNext_advances (E : Env) : Keeps EnvelopeAdvances (adsrNext E) := by
  intro s
  obtain ⟨_, _, _, _, h, hst⟩ | ⟨-, _, h⟩ := adsrNext_cases E s <;> rw [h]
  · exact ⟨fun _ _ g => (by cases g; exact hst), fun _ _ g => (by cases g)⟩
  · exact ⟨fun _ _ g => (by cases g), fun _ _ g => (by cases g)⟩

/-- Of SYN.NEW's parts, ADSR.NEW alone writes the envelope's state. -/
theorem synNew_setsOff (E : Env) (sr : Word) : Keeps (EnvelopeSet 0) (synNew E sr) :=
  Keeps.reading fun _ =>
    Keeps.bindSet (Writes.envelopeSet 0 (Writes.update fun s => frame_setSynSr s sr) rfl) fun _ =>
    Keeps.bindSet ((writes_opNew 0 _ _ sr).envelopeSet 0 rfl) fun _ =>
    Keeps.bindSet ((writes_opRandom E 1 sr).envelopeSet 0 rfl) fun _ =>
    Keeps.bindSet ((writes_opRandom E 2 sr).envelopeSet 0 rfl) fun _ =>
    Keeps.bindSet (adsrNew_setsOff E) fun _ =>
    Keeps.bindSet ((writes_fltNew E sr).envelopeSet 0 rfl) fun _ =>
    Keeps.bindSet (Writes.envelopeSet 0 (writes_rngU32 (fun _ => false) E _ _) rfl) fun d =>
    (writes_clkDeadline 3 d).envelopeSet 0 rfl

/-- Of ENG.NEW's parts, SYN.NEW alone writes the envelope's state. -/
theorem engNew_setsOff (E : Env) (seed : DWord) (sr : Word) : Keeps (EnvelopeSet 0) (engNew E seed sr) := by
  have ready (b : Bool) : Keeps (EnvelopeSet 0) (updateState (·.setReady b)) :=
    Writes.envelopeSet 0 (Writes.update fun s => frame_setReady s b) rfl
  exact Keeps.bindSet (ready false) fun _ =>
    Keeps.bindSet (Writes.envelopeSet 0 (writes_rngSeed (fun _ => false) E seed) rfl) fun _ =>
    Keeps.bindSet ((writes_seqNew E sr).envelopeSet 0 rfl) fun _ =>
    Keeps.bindSet (synNew_setsOff E sr) fun _ => ready true

/-- Of SYN.PLAY's parts, ADSR.START alone writes the envelope's state. -/
theorem synPlay_setsAttack (E : Env) (f : F32) (length : Word) : Keeps (EnvelopeSet 1) (synPlay E f length) := by
  have freq (j : Fin 3) : Keeps (EnvelopeSet 1) (opSetf E j f) := (writes_opSetf E j f).envelopeSet 1 rfl
  exact Keeps.bindSet (Writes.envelopeSet 1 (writes_clkReady (fun _ => false) 3) rfl) fun b =>
    Keeps.bindSet (Writes.envelopeSet 1 (Writes.doWhen (writes_synMutate E)) rfl) fun _ =>
    Keeps.bindSet (freq 0) fun _ => Keeps.bindSet (freq 1) fun _ => Keeps.bindSet (freq 2) fun _ =>
    adsrStart_setsAttack E length

/-- Of SYN.NEXT's parts, ADSR.NEXT alone writes the envelope's state. -/
theorem synNext_advances (E : Env) : Keeps EnvelopeAdvances (synNext E) := by
  have after {α β : Type} {x : M α} {f : α → M β} (hx : Keeps EnvelopeStays x)
      (hf : ∀ a, Keeps EnvelopeAdvances (f a)) : Keeps EnvelopeAdvances (x >>= f) :=
    Keeps.seq hx hf .inl EnvelopeStays.advances
  have phase (j : Fin 3) : Keeps EnvelopeStays (opNext E j) := (writes_opNext E j).envelopeStays rfl
  exact after ((writes_clkTick 3).envelopeStays rfl) fun _ =>
    after (phase 0) fun _ => after (phase 1) fun _ => after (phase 2) fun _ =>
    Keeps.seq (adsrNext_advances E) (fun _ => (writes_fltGen E _).envelopeStays rfl) id EnvelopeAdvances.stays

/-! ### ENG.NEXT -/

theorem Frame.clock_eq {W : Reg → Bool} {d : Bool} {s t : State} (h : Frame W d s t) {k : Fin 4}
    (ht : W (.clkTick k) = false) (hd : W (.clkDeadline k) = false) : t.clock k = s.clock k := by
  have htick : (t.clock k).tick = (s.clock k).tick := h.regs (.clkTick k) ht
  have hdeadline : (t.clock k).deadline = (s.clock k).deadline := h.regs (.clkDeadline k) hd
  calc t.clock k = ⟨(t.clock k).tick, (t.clock k).deadline⟩ := rfl
    _ = s.clock k := by rw [htick, hdeadline]

/-- SEQ.NEXT yields an event only when the step Clock fires: neither the tick of the mutation Clock nor a
mutation touches it. -/
theorem fires_of_seqNext_some {E : Env} {s t : State} {ev : Word × F32} (h : seqNext E s = .ok (some ev) t) :
    (s.clock 1).fires = true := by
  obtain ⟨b, u, htick, h⟩ := bind_ok_iff.mp h
  obtain ⟨_, v, hmutate, h⟩ := bind_ok_iff.mp h
  have hu : u.clock 1 = s.clock 1 := (((writes_clkTick 0) s).1 b u htick).clock_eq rfl rfl
  have hv : v.clock 1 = u.clock 1 := ((Writes.doWhen (writes_seqMutate E) u).1 _ v hmutate).clock_eq rfl rfl
  rw [bind_run, clkTick_run, hv, hu] at h
  cases hf : (s.clock 1).fires with
  | true => rfl
  | false =>
    rw [show (s.clock 1).ticked.isReady = false from hf] at h
    cases h

/-- What ENG.NEXT does to the envelope: it advances, or a note started in this sample, and the envelope is in
its Attack, or already past it. -/
def EnvelopeSample (s t : State) : Prop :=
  EnvelopeAdvances s t ∨ ((s.clock 1).fires = true ∧ (t.syn.adsr.state = 1 ∨ t.syn.adsr.state = 2))

/-- A start and then a sample. -/
theorem EnvelopeSet.thenAdvances {s t u : State} (h : EnvelopeSet 1 s t) (k : EnvelopeAdvances t u) :
    EnvelopeAdvances s u ∨ u.syn.adsr.state = 1 ∨ u.syn.adsr.state = 2 := by
  obtain h | h := h
  · exact .inl (h.advances k)
  · refine .inr ?_
    obtain k | ⟨-, k⟩ | ⟨k, -⟩ | ⟨k, -⟩ | ⟨k, -⟩ := k
    · exact .inl (Eq.trans k h)
    · exact .inr k
    all_goals rw [h] at k; exact absurd k (by decide)

theorem engNext_samples (E : Env) : Keeps EnvelopeSample (engNext E) := by
  refine Keeps.reading fun r => ?_
  split
  case isFalse => exact Keeps.raise (fun _ => .inl (.inl rfl)) _
  refine keeps_iff.mpr fun s t h => ?_
  have hseq := (writes_seqNext E).envelopeStays rfl s
  obtain ⟨ev, u, hok, h⟩ | ⟨e, hraise⟩ := leads_bind_iff.mp h
  case inr => exact .inl (.inl (hseq.2 e t hraise))
  have hstays : EnvelopeStays s u := hseq.1 ev u hok
  cases ev with
  | none => exact .inl (hstays.advances (keeps_iff.mp (synNext_advances E) u t h))
  | some ev =>
    have hplay := synPlay_setsAttack E ev.2 ev.1 u
    obtain ⟨_, v, hok', h⟩ | ⟨e, hraise⟩ := leads_bind_iff.mp h
    · have hset : EnvelopeSet 1 s v := EnvelopeSet.trans (.inl hstays) (hplay.1 _ v hok')
      have hnext := keeps_iff.mp (synNext_advances E) v t h
      exact (hset.thenAdvances hnext).imp id fun k => ⟨fires_of_seqNext_some hok, k⟩
    · obtain k | k := EnvelopeSet.trans (.inl hstays) (hplay.2 e t hraise)
      · exact .inl (.inl k)
      · exact .inr ⟨fires_of_seqNext_some hok, .inl k⟩

/-- Settles O34: a construction sets Off, a start sets Attack, a sample advances, and the frame of every other
operation holds the state register. -/
theorem envelopeOnlyAdvancesForward : Obligations.EnvelopeOnlyAdvancesForward := by
  intro i s t hw h
  have set {x : BitVec 3} (hk : Keeps (EnvelopeSet x) (commandOf i)) : EnvelopeSet x s t :=
    hk.exec (fun _ => .inl rfl) (fun _ k => k) h
  have stays (hW : mayWrite i .adsrState = false) : EnvelopeStays s t :=
    eq_of_setWidth_eq (by decide) ((exec_unchanged hw h).regs .adsrState hW)
  suffices EnvelopeAdvances s t ∨ ((i = .adsrStart ∨ i = .synPlay) ∧ t.syn.adsr.state = 1) ∨
      (i = .engNext ∧ (s.clock 1).fires = true ∧ (t.syn.adsr.state = 1 ∨ t.syn.adsr.state = 2)) ∨
      ((i = .adsrNew ∨ i = .synNew ∨ i = .engNew) ∧ t.syn.adsr.state = 0) by
    simpa only [EnvelopeAdvances, EnvelopeStays, EnvelopeFollows, or_assoc] using this
  cases i with
  | adsrNew => exact (set ((adsrNew_setsOff _).answering _)).imp .inl fun k => .inr (.inr ⟨.inl rfl, k⟩)
  | synNew =>
    exact (set (Keeps.reading fun s => (synNew_setsOff _ s.arg1).answering _)).imp .inl fun k =>
      .inr (.inr ⟨.inr (.inl rfl), k⟩)
  | engNew =>
    exact (set (Keeps.reading fun s => (engNew_setsOff _ s.arg0 s.arg1).answering _)).imp .inl fun k =>
      .inr (.inr ⟨.inr (.inr rfl), k⟩)
  | adsrStart =>
    exact (set (Keeps.reading fun s => (adsrStart_setsAttack _ s.arg1).answering _)).imp .inl fun k =>
      .inl ⟨.inl rfl, k⟩
  | synPlay =>
    exact (set (Keeps.reading fun s => (synPlay_setsAttack _ s.argLow s.argHigh).answering _)).imp .inl fun k =>
      .inl ⟨.inr rfl, k⟩
  | adsrNext =>
    exact .inl (Keeps.exec (i := .adsrNext) ((adsrNext_advances _).answering _) (fun _ => .inl rfl) (fun _ k => k) h)
  | synNext =>
    exact .inl (Keeps.exec (i := .synNext) ((synNext_advances _).answering _) (fun _ => .inl rfl) (fun _ k => k) h)
  | engNext =>
    have hsample : EnvelopeSample s t :=
      Keeps.exec (i := .engNext) ((engNext_samples _).answering _) (fun _ => .inl (.inl rfl)) (fun _ k => k) h
    exact hsample.imp id fun k => .inr (.inl ⟨rfl, k⟩)
  | wrreg a => exact absurd rfl (hw a)
  | _ => exact .inl (.inl (stays rfl))

end Sys2Proof.Machine
end

section
/-! The Sequence's invariant (spec/10_state.md R31): SEQ.NEW establishes it, and what runs between two samples
keeps it. -/

namespace Sys2Proof.Machine

variable {α β : Type}

/-! ### What the invariant reads -/

/-- If the slot is active, its Note lasts at least one step and at most the Sequence's length. -/
def DurationInRange (s : State) (i : Fin 8) : Prop :=
  i.val < s.seq.length.toNat → 1 ≤ (s.note i).dur.toNat ∧ (s.note i).dur.toNat ≤ s.seq.length.toNat

theorem sequenceInv_iff {s : State} : SequenceInv s ↔
    s.seq.cursor.toNat < s.seq.length.toNat ∧ s.seq.length.toNat ∈ [3, 4, 5, 7, 8] ∧ ∀ i, DurationInRange s i :=
  Iff.rfl

theorem SequenceInv.length_range {s : State} (h : SequenceInv s) :
    1 ≤ s.seq.length.toNat ∧ s.seq.length.toNat ≤ 8 := by
  have hmem := h.2.1
  simp only [List.mem_cons, List.not_mem_nil, or_false] at hmem
  omega

/-- The invariant goes from the state before to the state after. -/
def KeepsSequenceInv (s t : State) : Prop := SequenceInv s → SequenceInv t

/-- The length is as it was, and a duration in range stays in range. -/
def KeepsDurations (s t : State) : Prop :=
  t.seq.length = s.seq.length ∧ ∀ i, DurationInRange s i → DurationInRange t i

theorem KeepsDurations.refl (s : State) : KeepsDurations s s := ⟨rfl, fun _ => id⟩

theorem KeepsDurations.trans {s t u : State} (h : KeepsDurations s t) (k : KeepsDurations t u) :
    KeepsDurations s u :=
  ⟨k.1.trans h.1, fun i hi => k.2 i (h.2 i hi)⟩

/-- A state whose length and durations are those of another. -/
theorem KeepsDurations.of_eq {s t : State} (hl : t.seq.length = s.seq.length)
    (hd : ∀ i, (t.note i).dur = (s.note i).dur) : KeepsDurations s t :=
  ⟨hl, fun i hi => by rwa [DurationInRange, hl, hd]⟩

theorem KeepsDurations.setNote {s : State} (i : Fin 8) {n : Note}
    (hn : i.val < s.seq.length.toNat → 1 ≤ n.dur.toNat ∧ n.dur.toNat ≤ s.seq.length.toNat) :
    KeepsDurations s (s.setNote i n) ∧ DurationInRange (s.setNote i n) i := by
  refine ⟨⟨rfl, fun j hj => ?_⟩, ?_⟩
  · by_cases h : i = j
    · subst h
      simpa [DurationInRange] using hn
    · simpa [DurationInRange, h] using hj
  · simpa [DurationInRange] using hn

theorem KeepsDurations.keepsInv {s t : State} (h : KeepsDurations s t) (hc : t.seq.cursor = s.seq.cursor) :
    KeepsSequenceInv s t := by
  rintro ⟨hcursor, hlength, hnotes⟩
  exact sequenceInv_iff.mpr ⟨by rwa [hc, h.1], by rwa [h.1], fun i => h.2 i (hnotes i)⟩

/-- A frame without the length, the cursor and the durations keeps the invariant. -/
theorem Frame.keepsSequenceInv {W : Reg → Bool} {d : Bool} {s t : State} (h : Frame W d s t)
    (hl : W .seqLength = false) (hc : W .seqCursor = false) (hd : ∀ i, W (.noteDur i) = false) :
    KeepsSequenceInv s t := by
  have narrow {n : Nat} (hn : n ≤ 32) {x y : BitVec n} := eq_of_setWidth_eq (x := x) (y := y) hn
  have hlength : t.seq.length = s.seq.length := narrow (by decide) (h.regs .seqLength hl)
  have hdurs (i : Fin 8) : (t.note i).dur = (s.note i).dur := narrow (by decide) (h.regs (.noteDur i) (hd i))
  exact (KeepsDurations.of_eq hlength hdurs).keepsInv (narrow (by decide) (h.regs .seqCursor hc))

theorem Writes.keepsSequenceInv {W : Reg → Bool} {d : Bool} {m : M α} (h : Writes W d m)
    (hl : W .seqLength = false) (hc : W .seqCursor = false) (hd : ∀ i, W (.noteDur i) = false) :
    Keeps KeepsSequenceInv m :=
  Keeps.mono h fun _ _ k => k.keepsSequenceInv hl hc hd

theorem Keeps.bindInv {x : M α} {f : α → M β} (hx : Keeps KeepsSequenceInv x)
    (hf : ∀ a, Keeps KeepsSequenceInv (f a)) : Keeps KeepsSequenceInv (x >>= f) :=
  Keeps.bind (R := KeepsSequenceInv) (fun h k => k ∘ h) hx hf

/-! ### ENG.NEW -/

/-- One turn of the loop of SEQ.NEW: the slot's duration is in range after it, and the others keep theirs. -/
theorem fillNote_spec {E : Env} {i : Fin 8} {s t : State} {x : Unit}
    (h : (if i.val < s.seq.length.toNat then noteNew E i else noteDefault i) s = .ok x t) :
    KeepsDurations s t ∧ DurationInRange t i := by
  split at h
  next hi =>
    obtain ⟨n, st, _, hlo, hhi, -, hrun⟩ | ⟨-, hrun⟩ | ⟨-, _, hrun⟩ := noteNew_cases E i s <;> rw [hrun] at h <;>
      cases h
    exact KeepsDurations.setNote (s := s.setRng st) i fun _ => ⟨hlo, hhi⟩
  next hi =>
    cases h
    exact KeepsDurations.setNote i fun hlt => absurd hlt hi

theorem fillNotes_cons_run (E : Env) (i : Fin 8) (rest : List (Fin 8)) (s : State) :
    fillNotes E (i :: rest) s = ((if i.val < s.seq.length.toNat then noteNew E i else noteDefault i) >>=
      fun _ => fillNotes E rest) s := by
  rw [fillNotes, readState_bind]
  split <;> rfl

/-- The loop of SEQ.NEW: every slot of the list has its duration in range after it. -/
theorem fillNotes_spec {E : Env} {l : List (Fin 8)} {s t : State} {x : Unit} (h : fillNotes E l s = .ok x t) :
    KeepsDurations s t ∧ ∀ i ∈ l, DurationInRange t i := by
  induction l generalizing s with
  | nil =>
    cases h
    exact ⟨KeepsDurations.refl _, fun _ hi => absurd hi List.not_mem_nil⟩
  | cons i rest ih =>
    rw [fillNotes_cons_run] at h
    obtain ⟨_, u, hi, hrest⟩ := bind_ok_iff.mp h
    obtain ⟨hkeep, hslot⟩ := fillNote_spec hi
    obtain ⟨hkeep', hslots⟩ := ih hrest
    refine ⟨hkeep.trans hkeep', fun j hj => ?_⟩
    obtain rfl | hj := List.mem_cons.mp hj
    · exact hkeep'.2 j hslot
    · exact hslots j hj

/-- The cursor that SEQ.NEW writes is the last active slot. -/
theorem lastSlot_lt {length : BitVec 4} (h : length.toNat ∈ [3, 4, 5, 7, 8]) :
    ((length - 1).setWidth 3).toNat < length.toNat := by
  have all : ∀ l : BitVec 4, l.toNat ∈ [3, 4, 5, 7, 8] → ((l - 1).setWidth 3).toNat < l.toNat := by decide
  exact all length h

/-- SEQ.NEW establishes the invariant: the length is a metre, the loop fills every slot, and the cursor is put on
the last active one. -/
theorem seqNew_establishes {E : Env} {sr : Word} {s t : State} {x : Unit} (h : seqNew E sr s = .ok x t) :
    SequenceInv t := by
  rw [seqNew, readState_bind] at h
  obtain ⟨_, _, -, h⟩ := bind_ok_iff.mp h
  rw [updateState_bind] at h
  obtain ⟨_, _, -, h⟩ := bind_ok_iff.mp h
  rw [updateState_bind] at h
  obtain ⟨m, u, -, h⟩ := bind_ok_iff.mp h
  rw [updateState_bind] at h
  obtain ⟨_, v, hfill, h⟩ := bind_ok_iff.mp h
  obtain ⟨⟨hlength, -⟩, hslots⟩ := fillNotes_spec hfill
  have hmetre : v.seq.length.toNat ∈ [3, 4, 5, 7, 8] := hlength ▸ metreAt_mem s.cfg m
  obtain ⟨d, w, hdraw, h⟩ := bind_ok_iff.mp h
  obtain ⟨_, r, -, -, hrun⟩ | ⟨-, hrun⟩ := rngU32_cases E s.cfg.seqMutLo s.cfg.seqMutHi v <;> rw [hrun] at hdraw <;>
    cases hdraw
  cases h
  exact ⟨lastSlot_lt hmetre, hmetre, fun i => hslots i (List.mem_finRange i)⟩

/-- ENG.NEW: SYN.NEW keeps what SEQ.NEW establishes. -/
theorem engNew_establishes {E : Env} {seed : DWord} {sr : Word} {s t : State} {x : Unit}
    (h : engNew E seed sr s = .ok x t) : SequenceInv t := by
  obtain ⟨_, _, -, h⟩ := bind_ok_iff.mp h
  obtain ⟨_, _, -, h⟩ := bind_ok_iff.mp h
  obtain ⟨_, u, hseq, h⟩ := bind_ok_iff.mp h
  obtain ⟨_, v, hsyn, h⟩ := bind_ok_iff.mp h
  cases h
  have hkeep := (Writes.keepsSequenceInv (writes_synNew E sr) rfl rfl (fun _ => rfl) u).1 _ v hsyn
  exact hkeep (seqNew_establishes hseq)

/-! ### ENG.NEXT -/

/-- A mutation writes one active slot, with a duration in range. -/
theorem seqMutate_keepsInv (E : Env) : Keeps KeepsSequenceInv (seqMutate E) := by
  refine keeps_iff.mpr fun s t h hinv => ?_
  obtain ⟨h1, h8⟩ := hinv.length_range
  obtain ⟨i, n, st, d, _, -, -, hlo, hhi, -, hrun⟩ | ⟨-, hrun⟩ | ⟨-, _, hrun⟩ | ⟨-, _, hrun⟩ :=
    seqMutate_cases E s h1 h8
  all_goals
    rw [Leads, hrun] at h
    obtain ⟨_, h⟩ | ⟨_, h⟩ := h <;> cases h
  · have hkeep := (KeepsDurations.setNote (s := s.setRng st) i fun _ => ⟨hlo, hhi⟩).1
    exact hkeep.keepsInv rfl hinv
  · exact hinv

/-- At a step boundary the cursor goes round below the length. -/
theorem seqStep_keepsInv : Keeps KeepsSequenceInv seqStep := by
  refine keeps_iff.mpr fun s t h hinv => ?_
  obtain ⟨h1, h8⟩ := hinv.length_range
  obtain ⟨i, hi, hrun⟩ := seqStep_run s h1 h8
  rw [Leads, hrun] at h
  obtain ⟨_, h⟩ | ⟨_, h⟩ := h <;> cases h
  obtain ⟨-, hlength, hnotes⟩ := hinv
  have hlt : i.val < s.seq.length.toNat := hi ▸ Nat.mod_lt _ h1
  exact ⟨by simpa using hlt, hlength, hnotes⟩

theorem seqNext_keepsInv (E : Env) : Keeps KeepsSequenceInv (seqNext E) := by
  have tick (k : Fin 4) : Keeps KeepsSequenceInv (clkTick k) :=
    Writes.keepsSequenceInv (writes_clkTick k) rfl rfl fun _ => rfl
  refine Keeps.bindInv (tick 0) fun b => Keeps.bindInv
    (Keeps.doWhen (fun _ => id) b (seqMutate_keepsInv E)) fun _ => Keeps.bindInv (tick 1) fun fired => ?_
  cases fired with
  | false => exact Keeps.pure (fun _ => id) _
  | true => exact seqStep_keepsInv.answering _

/-- Of ENG.NEXT's parts, SEQ.NEXT alone touches what the invariant reads. -/
theorem engNext_keepsInv (E : Env) : Keeps KeepsSequenceInv (engNext E) := by
  refine Keeps.reading fun s => ?_
  split
  case isFalse => exact Keeps.raise (fun _ => id) _
  refine Keeps.bindInv (seqNext_keepsInv E) fun ev => Keeps.bindInv ?_ fun _ =>
    Writes.keepsSequenceInv (writes_synNext E) rfl rfl fun _ => rfl
  cases ev with
  | none => exact Keeps.pure (fun _ => id) ()
  | some ev => exact Writes.keepsSequenceInv (writes_synPlay E ev.2 ev.1) rfl rfl fun _ => rfl

/-- A command that answers OK ended normally, if its one error is SelectFail. -/
theorem respond_answeredOk {m : M Answer} {s t : State} (hm : RaisesSelect m) (h : respond (m s) = .next t)
    (hok : AnsweredOk t) : ∃ a u r, m s = .ok a u ∧ t = u.answer r := by
  obtain ⟨a, u, hrun, rfl⟩ | ⟨e, u, hrun, rfl⟩ := respond_next_iff.mp h
  · exact ⟨a, u, _, hrun, rfl⟩
  · obtain ⟨_, _, hresp⟩ := hok
    rw [hm s e u hrun] at hresp
    cases hresp

/-- Settles O42: ENG.NEW establishes the invariant through SEQ.NEW, and every part of ENG.NEXT keeps it. -/
theorem sequenceInvariantHoldsOfAnEngine : Obligations.SequenceInvariantHoldsOfAnEngine := by
  refine ⟨fun s t h hok => ?_, fun s t hinv h => ?_⟩
  · have hraise : RaisesSelect (Cmd.engNew Config.env) :=
      Raises.bind Raises.readState fun s => Raises.bind (raises_engNew _ s.arg0 s.arg1) fun _ => Raises.pure _
    obtain ⟨a, u, r, hrun, rfl⟩ := respond_answeredOk hraise h hok
    obtain ⟨_, _, hread, hrun⟩ := bind_ok_iff.mp hrun
    cases hread
    obtain ⟨_, v, hnew, hpure⟩ := bind_ok_iff.mp hrun
    cases hpure
    exact (engNew_establishes hnew : SequenceInv u)
  · exact Keeps.exec (i := .engNext) (R := KeepsSequenceInv) ((engNext_keepsInv _).answering _) (fun _ => id)
      (fun _ k => k) h hinv

end Sys2Proof.Machine
end

section
/-! The opcode table as the decoder reads it (spec/30_encoding.md R83, R84), the words that perform nothing (R87,
R88), and the responses (R82). -/

namespace Sys2Proof.Machine

-- As in Sys2Proof/Tests/Slice0.lean: a thread for each small proof takes the joined text's memory.
set_option Elab.async false

/-! ### The formats -/

theorem formatN_ok_iff {w : Word} {i j : Instr} :
    formatN w i = .ok j ↔ (instField w = 0 ∧ addrField w = 0) ∧ j = i := by
  unfold formatN
  split
  next hinst => exact ⟨nofun, fun h => absurd h.1.1 hinst⟩
  next hinst =>
    split
    next haddr => exact ⟨nofun, fun h => absurd h.1.2 haddr⟩
    next haddr => simp [not_not.mp hinst, not_not.mp haddr, eq_comm]

theorem formatI_ok_iff {w : Word} {mk : Byte → Instr} {j : Instr} :
    formatI w mk = .ok j ↔ (addrField w = 0 ∧ (mk (instField w)).wellFormed = true) ∧ j = mk (instField w) := by
  unfold formatI
  split
  next haddr => exact ⟨nofun, fun h => absurd h.1.1 haddr⟩
  next haddr =>
    split
    next hwf => simp [not_not.mp haddr, hwf, eq_comm]
    next hwf => exact ⟨nofun, fun h => absurd h.1.2 hwf⟩

theorem formatA_ok_iff {w : Word} {mk : Addr → Instr} {j : Instr} :
    formatA w mk = .ok j ↔ instField w = 0 ∧ j = mk (addrField w) := by
  unfold formatA
  split
  next hinst => exact ⟨nofun, fun h => absurd h.1 hinst⟩
  next hinst => simp [not_not.mp hinst, eq_comm]

/-! ### The rows -/

/-- The operation of a row with the operands of the word. -/
def TableRow.select (r : TableRow) (w : Word) : Instr := r.operation (instField w) (addrField w)

/-- What the decoder does with a word whose opcode is the row's: the check of the row's format. -/
def TableRow.read (r : TableRow) (w : Word) : Except DecodeError Instr :=
  match r.format with
  | .n => formatN w (r.select w)
  | .i _ => formatI w fun k => r.operation k (addrField w)
  | .a => formatA w (r.operation (instField w))

/-- A row's opcode fits its field. -/
theorem opcode_lt_of_mem : ∀ r ∈ opcodeTable, r.opcode < 2 ^ 8 := by decide

/-- Of a format I row, the instances are those of the operation's unit (30_encoding.md R86). -/
theorem wellFormed_of_mem {r : TableRow} {n : Nat} (h : r ∈ opcodeTable) (hf : r.format = .i n) (k : Byte)
    (a : Addr) : (r.operation k a).wellFormed = decide (k.toNat < n) := by
  obtain ⟨hinstances, hinst⟩ : (r.operation k a).instances = some n ∧ (r.operation k a).inst = k := by
    simp only [opcodeTable, List.mem_cons, List.not_mem_nil, or_false] at h
    repeat' obtain rfl | h := h
    all_goals cases hf
    all_goals exact ⟨rfl, rfl⟩
  simp only [Instr.wellFormed, hinstances, hinst]

/-- A word that is an opcode and zeros. -/
theorem eq_opcodeWord_iff {w : Word} {op : Nat} (hop : op < 2 ^ 8) :
    w = BitVec.ofNat 32 (op * 2 ^ 24) ↔ (opcodeField w).toNat = op ∧ instField w = 0 ∧ addrField w = 0 := by
  have hw := w.isLt
  have hinst : (0 : Byte).toNat = 0 := rfl
  have haddr : (0 : Addr).toNat = 0 := rfl
  rw [← BitVec.toNat_inj, ← BitVec.toNat_inj, ← BitVec.toNat_inj, opcodeField_toNat, instField_toNat,
    addrField_toNat, BitVec.toNat_ofNat, Nat.mod_eq_of_lt (by omega), hinst, haddr]
  omega

/-- The mask and value of a row say that the opcode is the row's and that the format's check succeeds. -/
theorem matches_iff {r : TableRow} (h : r ∈ opcodeTable) (w : Word) :
    r.matches w = true ↔ (opcodeField w).toNat = r.opcode ∧ r.read w = .ok (r.select w) := by
  have hop := opcode_lt_of_mem r h
  cases hf : r.format with
  | n =>
    simp only [TableRow.matches, TableRow.read, hf, beq_iff_eq, eq_opcodeWord_iff hop, formatN_ok_iff, and_true]
  | i n =>
    have hwf := wellFormed_of_mem h hf (instField w) (addrField w)
    simp only [TableRow.matches, TableRow.read, TableRow.select, hf, Bool.and_eq_true, beq_iff_eq, maskI_fields,
      eq_opcodeWord_iff hop, opcodeField_fields, instField_fields, addrField_fields, formatI_ok_iff, hwf,
      instField_toNat, true_and, and_true, and_assoc]
  | a =>
    simp only [TableRow.matches, TableRow.read, TableRow.select, hf, beq_iff_eq, maskA_fields, eq_opcodeWord_iff hop,
      opcodeField_fields, instField_fields, addrField_fields, formatA_ok_iff, and_true]

/-- A row yields no operation but its own with the operands of the word. -/
theorem eq_select_of_read {r : TableRow} {w : Word} {i : Instr} (h : r.read w = .ok i) : i = r.select w := by
  unfold TableRow.read at h
  split at h
  · exact (formatN_ok_iff.mp h).2
  · exact (formatI_ok_iff.mp h).2
  · exact (formatA_ok_iff.mp h).2

/-! ### The decoder -/

/-- The opcode alone selects the row. -/
theorem decode_of_mem {r : TableRow} {w : Word} (h : r ∈ opcodeTable) (hop : (opcodeField w).toNat = r.opcode) :
    decode w = r.read w := by
  unfold decode
  rw [hop]
  simp only [opcodeTable, List.mem_cons, List.not_mem_nil, or_false] at h
  repeat' obtain rfl | h := h
  all_goals rfl

/-- A word that decodes has the opcode of a row. -/
theorem row_of_decode_ok {w : Word} {i : Instr} (h : decode w = .ok i) :
    ∃ r ∈ opcodeTable, (opcodeField w).toNat = r.opcode := by
  unfold decode at h
  split at h
  case h_32 => cases h
  all_goals next hop => rw [hop]; decide

theorem decode_ok_iff {w : Word} {i : Instr} :
    decode w = .ok i ↔ ∃ r ∈ opcodeTable, r.matches w = true ∧ i = r.select w := by
  constructor
  · intro h
    obtain ⟨r, hmem, hop⟩ := row_of_decode_ok h
    rw [decode_of_mem hmem hop] at h
    obtain rfl := eq_select_of_read h
    exact ⟨r, hmem, (matches_iff hmem w).mpr ⟨hop, h⟩, rfl⟩
  · rintro ⟨r, hmem, hmatch, rfl⟩
    obtain ⟨hop, hread⟩ := (matches_iff hmem w).mp hmatch
    rw [decode_of_mem hmem hop, hread]

theorem instField_eq_ofNat (w : Word) : instField w = BitVec.ofNat 8 (w.toNat / 2 ^ 16) := by
  rw [← BitVec.toNat_inj, instField_toNat, BitVec.toNat_ofNat]

theorem addrField_eq_ofNat (w : Word) : addrField w = BitVec.ofNat 16 w.toNat := by
  rw [← BitVec.toNat_inj, addrField_toNat, BitVec.toNat_ofNat]

/-- Settles O14: the opcode selects one row, and the mask and value of that row are its format's check. -/
theorem decodeFollowsTheOpcodeTable : Obligations.DecodeFollowsTheOpcodeTable := by
  intro w i
  rw [← instField_eq_ofNat, ← addrField_eq_ofNat]
  exact decode_ok_iff

/-! ### The words that perform nothing -/

theorem step_of_decode_ok {s : State} {c : Command} {rest : List HostEvent} {i : Instr}
    (h : s.pending = .command c :: rest) (hd : decode c.word = .ok i) :
    step s = exec i { s with pending := rest, arg0 := c.arg0, arg1 := c.arg1 } := by
  simp [step, State.nextEvent, State.present, h, hd]

theorem step_of_decode_error {s : State} {c : Command} {rest : List HostEvent}
    (h : s.pending = .command c :: rest) (hd : ∀ i, decode c.word ≠ .ok i) :
    step s = .next ({ s with pending := rest, arg0 := c.arg0, arg1 := c.arg1 }.answer ⟨.errIllegal, false, 0⟩) := by
  cases hdec : decode c.word with
  | ok i => exact absurd hdec (hd i)
  | error e => simp [step, State.nextEvent, State.present, State.answerError, h, hdec]

/-- Settles O2: a word that decodes would match the row of its operation. -/
theorem stepAnswersIllegalToUnmatchedWords : Obligations.StepAnswersIllegalToUnmatchedWords := by
  intro s c rest h hno
  refine step_of_decode_error h fun i hd => ?_
  obtain ⟨r, hmem, hmatch, -⟩ := decode_ok_iff.mp hd
  rw [hno r hmem] at hmatch
  cases hmatch

/-- The two operations legal at HOST level have the two words of ENG.NEW and ENG.NEXT (30_encoding.md R88). -/
theorem word_of_host_level {w : Word} {i : Instr} (hd : decode w = .ok i) (hl : i.level = .host) :
    w = 0x01000000 ∨ w = 0x02000000 := by
  obtain ⟨r, hmem, hmatch, rfl⟩ := decode_ok_iff.mp hd
  simp only [opcodeTable, List.mem_cons, List.not_mem_nil, or_false] at hmem
  repeat' obtain rfl | hmem := hmem
  all_goals cases hl
  · exact .inl (beq_iff_eq.mp hmatch)
  · exact .inr (beq_iff_eq.mp hmatch)

/-- A TEST-level operation at HOST level answers ERR_ILLEGAL and does nothing else. -/
theorem exec_test_at_host {i : Instr} {s : State} (hl : i.level ≠ .host) (hs : s.testEn = false) :
    exec i s = .next (s.answerError .errIllegal) := by
  cases i with
  | engNew | engNext => exact absurd rfl hl
  | _ => exact testCommand_host hs

/-- Settles O3: every other word decodes to nothing, or to a TEST-level operation. -/
theorem hostLevelAdmitsTwoWords : Obligations.HostLevelAdmitsTwoWords := by
  intro s c rest h hs hnew hnext
  by_cases hd : ∃ i, decode c.word = .ok i
  · obtain ⟨i, hd⟩ := hd
    have hl : i.level ≠ .host := fun hl => (word_of_host_level hd hl).elim hnew hnext
    rw [step_of_decode_ok h hd]
    exact exec_test_at_host hl hs
  · exact step_of_decode_error h fun i e => hd ⟨i, e⟩

/-! ### The responses -/

theorem code_lt_five (e : Status) : e.code.toNat < 5 := by
  cases e <;> decide

/-- An error response has flag 0 and data 0. -/
def ErrorIsBare (r : Response) : Prop := r.status ≠ .ok → r.flag = false ∧ r.data = 0

theorem respond_errorIsBare {x : EStateM.Result Stop State Answer} {t : State} (h : respond x = .next t) :
    ∃ r, t.resp = some r ∧ ErrorIsBare r := by
  obtain ⟨a, u, -, rfl⟩ | ⟨e, u, -, rfl⟩ := respond_next_iff.mp h
  · exact ⟨_, rfl, fun hne => absurd rfl hne⟩
  · exact ⟨_, rfl, fun _ => ⟨rfl, rfl⟩⟩

theorem exec_errorIsBare {i : Instr} {s t : State} (h : exec i s = .next t) :
    ∃ r, t.resp = some r ∧ ErrorIsBare r := by
  obtain e | e := exec_eq_command i s
  · exact respond_errorIsBare (e.symm.trans h)
  · cases hs : s.testEn with
    | false =>
      rw [e, testCommand_host hs] at h
      cases h
      exact ⟨_, rfl, fun _ => ⟨rfl, rfl⟩⟩
    | true =>
      rw [e, testCommand_test hs] at h
      exact respond_errorIsBare h

/-- Settles O6: a command answers OK, or with an error and nothing in flag and data. -/
theorem responsesFollowTheStatusTable : Obligations.ResponsesFollowTheStatusTable :=
  ⟨rfl, rfl, rfl, rfl, rfl, code_lt_five, fun _ _ _ => exec_errorIsBare⟩

end Sys2Proof.Machine
end

section
/-! SUPPORT. The words of the format I operations, one per unit (spec/30_encoding.md R81, R83, R84, R86),
and the command an `inst` in range and the TEST level lead to (R86, R88). -/

namespace Sys2Proof.Machine

variable {β : Type}

/-! ### The words -/

/-- The opcode in bits 31:24 and `inst` in bits 23:16 are the two fields over a zero `addr`. -/
theorem formatIWord_eq_fields (op : Nat) (inst : Byte) :
    BitVec.ofNat 32 (op * 2 ^ 24) + BitVec.ofNat 32 inst.toNat * 0x10000 =
      BitVec.ofNat 8 op ++ inst ++ (0 : Addr) := by
  apply BitVec.eq_of_toNat_eq
  have hinst := inst.isLt
  have hunit : (0x10000 : Word).toNat = 2 ^ 16 := rfl
  have haddr : (0 : Addr).toNat = 0 := rfl
  rw [fields_toNat, BitVec.toNat_add, BitVec.toNat_mul, BitVec.toNat_ofNat, BitVec.toNat_ofNat, BitVec.toNat_ofNat,
    hunit, haddr]
  omega

/-- The word of a format I row for one of its units decodes to the row's operation. -/
theorem decode_formatIWord {r : TableRow} {n k : Nat} {inst : Byte} (h : r ∈ opcodeTable) (hf : r.format = .i n)
    (hinst : inst.toNat = k) (hk : k < n) :
    decode (BitVec.ofNat 32 (r.opcode * 2 ^ 24) + BitVec.ofNat 32 k * 0x10000) = .ok (r.operation inst 0) := by
  subst hinst
  have hfield : (opcodeField (BitVec.ofNat 8 r.opcode ++ inst ++ (0 : Addr))).toNat = r.opcode := by
    rw [opcodeField_fields, BitVec.toNat_ofNat, Nat.mod_eq_of_lt (opcode_lt_of_mem r h)]
  have hwf : (r.operation inst 0).wellFormed = true := by
    rw [wellFormed_of_mem h hf]
    exact decide_eq_true hk
  rw [formatIWord_eq_fields, decode_of_mem h hfield, TableRow.read, hf]
  refine formatI_ok_iff.mpr ?_
  rw [instField_fields, addrField_fields]
  exact ⟨⟨rfl, hwf⟩, rfl⟩

/-! ### The command -/

/-- An `inst` in range selects its unit and nothing else happens. -/
theorem selectInst_bind {n : Nat} {inst : Byte} {k : Fin n} (h : inst.toNat = k.val) (f : Fin n → M β) (s : State) :
    (selectInst n inst >>= f) s = f k s := by
  have hlt : inst.toNat < n := h ▸ k.isLt
  have hk : (⟨inst.toNat, hlt⟩ : Fin n) = k := Fin.ext h
  rw [bind_ok (selectInst_run hlt s), hk]

/-- At TEST level an operation whose command ends normally answers OK on the state the command leaves. -/
theorem exec_of_command_ok {i : Instr} {s t : State} {a : Answer} (hs : s.testEn = true)
    (h : commandOf i s = .ok a t) : exec i s = .next (t.answer ⟨.ok, a.flag, a.data⟩) := by
  obtain e | e := exec_eq_command i s
  · rw [e, hostCommand, h, respond_ok]
  · rw [e, testCommand_test hs, h, respond_ok]

end Sys2Proof.Machine
end

section
/-! The five Clock operations on the Clock they name (spec/40_clock.md R100 to R104). -/

namespace Sys2Proof.Machine

/-! ### The conditions -/

/-- The advance is modulo 2^32. -/
theorem ticked_eq (c : Clock) : c.ticked = ⟨BitVec.ofNat 32 ((c.tick.toNat + 1) % 2 ^ 32), c.deadline⟩ := by
  have htick : c.tick + 1 = BitVec.ofNat 32 ((c.tick.toNat + 1) % 2 ^ 32) := by
    apply BitVec.eq_of_toNat_eq
    simp [BitVec.toNat_add]
  rw [Clock.ticked, htick]

/-- The comparison is unsigned. -/
theorem isReady_eq_decide (c : Clock) : c.isReady = decide (c.deadline.toNat ≤ c.tick.toNat) := rfl

/-- The condition of CLK.TICK is on the tick after the advance, which may have wrapped to 0. -/
theorem ticked_isReady_eq_decide (c : Clock) :
    c.ticked.isReady = decide (c.deadline.toNat ≤ (c.tick.toNat + 1) % 2 ^ 32) := by
  rw [ticked_eq, isReady_eq_decide, BitVec.toNat_ofNat, Nat.mod_mod]

/-! ### The operations -/

section
variable {k : Fin 4} {inst : Byte} {s : State}

theorem exec_clkDeadline (hk : inst.toNat = k.val) (hs : s.testEn = true) :
    exec (.clkDeadline inst) s = .next ((s.setClock k ⟨0, s.arg1⟩).answer ⟨.ok, false, 0⟩) :=
  exec_of_command_ok (a := Answer.none) hs (selectInst_bind hk _ s)

theorem exec_clkReset (hk : inst.toNat = k.val) (hs : s.testEn = true) :
    exec (.clkReset inst) s = .next ((s.setClock k ⟨0, s.arg1⟩).answer ⟨.ok, false, 0⟩) :=
  exec_of_command_ok (a := Answer.none) hs (selectInst_bind hk _ s)

theorem exec_clkDefault (hk : inst.toNat = k.val) (hs : s.testEn = true) :
    exec (.clkDefault inst) s = .next ((s.setClock k ⟨0, 0⟩).answer ⟨.ok, false, 0⟩) :=
  exec_of_command_ok (a := Answer.none) hs (selectInst_bind hk _ s)

theorem exec_clkTick (hk : inst.toNat = k.val) (hs : s.testEn = true) :
    exec (.clkTick inst) s =
      .next ((s.setClock k (s.clock k).ticked).answer ⟨.ok, (s.clock k).ticked.isReady, 0⟩) :=
  exec_of_command_ok (a := Answer.ofFlag _) hs ((selectInst_bind hk _ s).trans (bind_ok (clkTick_run k s)))

theorem exec_clkReady (hk : inst.toNat = k.val) (hs : s.testEn = true) :
    exec (.clkReady inst) s = .next (s.answer ⟨.ok, (s.clock k).isReady, 0⟩) :=
  exec_of_command_ok (a := Answer.ofFlag _) hs ((selectInst_bind hk _ s).trans (bind_ok (clkReady_run k s)))

end

/-- A row of the opcode table whose unit is a Clock decodes for each of the four Clocks. -/
theorem decode_clockWord {op : Nat} {mk : Byte → Instr} (h : ⟨op, .i 4, fun k _ => mk k⟩ ∈ opcodeTable)
    {k : Fin 4} {inst : Byte} (hk : inst.toNat = k.val) :
    decode (BitVec.ofNat 32 (op * 2 ^ 24) + BitVec.ofNat 32 k.val * 0x10000) = .ok (mk inst) :=
  decode_formatIWord (r := ⟨op, .i 4, fun k _ => mk k⟩) h rfl hk k.isLt

/-- Settles O22: each command selects the Clock and arms it, and its word has the opcode of its row. -/
theorem clockIsArmed : Obligations.ClockIsArmed := by
  intro k inst s hk hs
  have hdeadline := decode_clockWord (op := 0x10) (mk := .clkDeadline) (by simp [opcodeTable]) hk
  have hdefault := decode_clockWord (op := 0x11) (mk := .clkDefault) (by simp [opcodeTable]) hk
  have hreset := decode_clockWord (op := 0x14) (mk := .clkReset) (by simp [opcodeTable]) hk
  exact ⟨exec_clkDeadline hk hs, exec_clkReset hk hs, exec_clkDefault hk hs, hdeadline, hdefault, hreset⟩

/-- Settles O23: CLK.TICK writes and tests the advanced Clock, CLK.READY tests the Clock as it stands. -/
theorem clockTicksAndPeeks : Obligations.ClockTicksAndPeeks := by
  intro k inst s hk hs
  have htick := decode_clockWord (op := 0x12) (mk := .clkTick) (by simp [opcodeTable]) hk
  have hready := decode_clockWord (op := 0x13) (mk := .clkReady) (by simp [opcodeTable]) hk
  refine ⟨?_, exec_clkReady hk hs, htick, hready⟩
  rw [exec_clkTick hk hs, ticked_isReady_eq_decide, ticked_eq]

end Sys2Proof.Machine
end

section
/-! The three waveform operations on the operands of the command port (spec/41_signal.md R110 to R112, packed as
30_encoding.md R85 says). -/

namespace Sys2Proof.Machine

-- As in Sys2Proof/Tests/Slice0.lean: a thread for each small proof takes the joined text's memory.
set_option Elab.async false

/-! ### The operands -/

/-- `arg0[31:0]` -/
theorem argLow_eq_setWidth (s : State) : s.argLow = s.arg0.setWidth 32 := rfl

/-- `arg0[63:32]` -/
theorem argHigh_eq_setWidth (s : State) : s.argHigh = (s.arg0 >>> 32).setWidth 32 := rfl

/-- Above bit 32 of the 64-bit argument nothing is lost. -/
theorem argHigh_toNat (s : State) : s.argHigh.toNat = s.arg0.toNat / 2 ^ 32 := by
  have harg := s.arg0.isLt
  rw [State.argHigh, BitVec.extractLsb'_toNat, Nat.shiftRight_eq_div_pow]
  omega

theorem toNat_eq_zero_iff {n : Nat} {x : BitVec n} : x.toNat = 0 ↔ x = 0 := by
  simp [← BitVec.toNat_inj]

/-! ### The words -/

/-- The word of a format N row is its opcode and zeros, and decodes to the row's operation. -/
theorem decode_formatNWord {r : TableRow} (h : r ∈ opcodeTable) (hf : r.format = .n) :
    decode (BitVec.ofNat 32 (r.opcode * 2 ^ 24)) = .ok (r.operation 0 0) := by
  obtain ⟨hop, hinst, haddr⟩ := (eq_opcodeWord_iff (opcode_lt_of_mem r h)).mp rfl
  rw [decode_of_mem h hop, TableRow.read, hf]
  refine formatN_ok_iff.mpr ⟨⟨hinst, haddr⟩, ?_⟩
  rw [TableRow.select, hinst, haddr]

/-! ### The waveforms -/

/-- The remainder of the quotient of two words is that of the numbers they stand for. -/
theorem div_umod_eq_zero_iff {n : Nat} (x y z : BitVec n) :
    x / y % z = 0 ↔ x.toNat / y.toNat % z.toNat = 0 := by
  rw [← toNat_eq_zero_iff, BitVec.toNat_umod, BitVec.toNat_udiv]

theorem signalSquare_of_ne_zero {sr : Word} {f : F32} (hsr : sr ≠ 0) (hf : f2u f ≠ 0) (i : Word) :
    signalSquare sr f i = some (if i.toNat / sr.toNat % (f2u f).toNat = 0 then fOne else fNegOne) := by
  simp only [signalSquare, hsr, hf, or_self, if_false, div_umod_eq_zero_iff, apply_ite some]

theorem signal_square_run {sr : Word} {f : F32} (hsr : sr ≠ 0) (hf : f2u f ≠ 0) (E : Env) (i : Word) (s : State) :
    signal E .square sr f i s =
      .ok (if i.toNat / sr.toNat % (f2u f).toNat = 0 then fOne else fNegOne) s := by
  simp only [signal, sigSquare, signalSquare_of_ne_zero hsr hf, pure_run]

theorem signal_square_run_zero {sr : Word} {f : F32} (h : sr = 0 ∨ f2u f = 0) (E : Env) (i : Word) (s : State) :
    signal E .square sr f i s = .error (.fault .squareZeroDivisor) s := by
  simp only [signal, sigSquare, signalSquare_eq_none.mpr h, stopWith_run]

/-! ### The commands -/

/-- The operation that evaluates a waveform. -/
def signalInstr : WaveKind → Instr
  | .sine => .sigSine
  | .square => .sigSquare
  | .saw => .sigSaw

/-- The three commands differ in the waveform alone. -/
theorem commandOf_signalInstr_run (w : WaveKind) (s : State) :
    commandOf (signalInstr w) s =
      (signal Config.env w s.arg1 s.argLow s.argHigh >>= fun y => pure (Answer.ofWord y)) s := by
  cases w <;> rfl

/-- At TEST level an operation whose command stops with a model-level fault is that fault. -/
theorem exec_of_command_fault {i : Instr} {s t : State} {f : Fault} (hs : s.testEn = true)
    (h : commandOf i s = .error (.fault f) t) : exec i s = .fault f := by
  obtain e | e := exec_eq_command i s
  · rw [e, hostCommand, h, respond_fault]
  · rw [e, testCommand_test hs, h, respond_fault]

section
variable {w : WaveKind} {s : State}

theorem exec_signal_of_ok {y : F32} (hs : s.testEn = true)
    (h : signal Config.env w s.arg1 s.argLow s.argHigh s = .ok y s) :
    exec (signalInstr w) s = .next (s.answer ⟨.ok, false, y.setWidth 64⟩) :=
  exec_of_command_ok (a := Answer.ofWord y) hs ((commandOf_signalInstr_run w s).trans (bind_ok h))

theorem exec_signal_of_fault {f : Fault} (hs : s.testEn = true)
    (h : signal Config.env w s.arg1 s.argLow s.argHigh s = .error (.fault f) s) :
    exec (signalInstr w) s = .fault f :=
  exec_of_command_fault hs ((commandOf_signalInstr_run w s).trans (bind_error h))

theorem exec_sigSine (hs : s.testEn = true) :
    exec .sigSine s =
      .next (s.answer ⟨.ok, false, (signalSine Config.env.num s.arg1 s.argLow s.argHigh).setWidth 64⟩) :=
  exec_signal_of_ok (w := .sine) hs rfl

theorem exec_sigSaw (hs : s.testEn = true) :
    exec .sigSaw s =
      .next (s.answer ⟨.ok, false, (signalSaw Config.env.num s.arg1 s.argLow s.argHigh).setWidth 64⟩) :=
  exec_signal_of_ok (w := .saw) hs rfl

theorem exec_sigSquare (hs : s.testEn = true) (hsr : s.arg1 ≠ 0) (hf : f2u s.argLow ≠ 0) :
    exec .sigSquare s = .next (s.answer ⟨.ok, false,
      (if s.argHigh.toNat / s.arg1.toNat % (f2u s.argLow).toNat = 0 then fOne else fNegOne).setWidth 64⟩) :=
  exec_signal_of_ok (w := .square) hs (signal_square_run hsr hf Config.env s.argHigh s)

theorem exec_sigSquare_zero (hs : s.testEn = true) (h : s.arg1 = 0 ∨ f2u s.argLow = 0) :
    exec .sigSquare s = .fault .squareZeroDivisor :=
  exec_signal_of_fault (w := .square) hs (signal_square_run_zero h Config.env s.argHigh s)

end

/-- Settles O26: off the zero divisors the remainder is that of the numbers the operands stand for, and on them
the waveform stops. -/
theorem sigSquareResult : Obligations.SigSquareResult := by
  refine ⟨decode_formatNWord (r := ⟨0x21, .n, fun _ _ => .sigSquare⟩) (by simp [opcodeTable]) rfl, fun s hs => ?_⟩
  have hzero : (f2u (s.arg0.setWidth 32)).toNat = 0 ↔ f2u s.argLow = 0 := by
    rw [argLow_eq_setWidth, toNat_eq_zero_iff]
  refine ⟨fun ⟨hsr, hd⟩ => ?_, fun h => exec_sigSquare_zero hs (h.imp_right hzero.mp)⟩
  rw [exec_sigSquare hs hsr (mt hzero.mpr hd), argHigh_toNat, argLow_eq_setWidth, apply_ite (BitVec.setWidth 64)]
  rfl

/-- Settles O25: the two formulas of the waveforms at the operands of the port. -/
theorem sigSineAndSigSawResults : Obligations.SigSineAndSigSawResults := by
  have hsine := decode_formatNWord (r := ⟨0x20, .n, fun _ _ => .sigSine⟩) (by simp [opcodeTable]) rfl
  have hsaw := decode_formatNWord (r := ⟨0x22, .n, fun _ _ => .sigSaw⟩) (by simp [opcodeTable]) rfl
  refine ⟨hsine, hsaw, fun s hs => ?_⟩
  rw [exec_sigSine hs, exec_sigSaw hs, argLow_eq_setWidth, argHigh_eq_setWidth]
  exact ⟨rfl, rfl⟩

end Sys2Proof.Machine
end

section
/-! The four Operator operations on the Operator they name (spec/42_operator.md R120 to R123). -/

namespace Sys2Proof.Machine

-- As in Sys2Proof/Tests/Slice0.lean: a thread for each small proof takes the joined text's memory.
set_option Elab.async false

/-! ### The words -/

/-- A format I row decodes for every unit it names. -/
theorem decode_unitWord {op n : Nat} {mk : Byte → Instr} (h : ⟨op, .i n, fun k _ => mk k⟩ ∈ opcodeTable)
    {k : Fin n} {inst : Byte} (hk : inst.toNat = k.val) :
    decode (BitVec.ofNat 32 (op * 2 ^ 24) + BitVec.ofNat 32 k.val * 0x10000) = .ok (mk inst) :=
  decode_formatIWord (r := ⟨op, .i n, fun k _ => mk k⟩) h rfl hk k.isLt

/-! ### The operands -/

/-- `arg0[33:32]` -/
theorem argWave_eq_ofNat (s : State) : s.argWave = BitVec.ofNat 2 (s.arg0.toNat / 2 ^ 32) := by
  rw [State.argWave, BitVec.extractLsb', Nat.shiftRight_eq_div_pow]

/-- Every register value but the reserved one is the code of the waveform it selects. -/
theorem map_waveCode_waveOf : ∀ x : BitVec 2, (waveOf x).map waveCode = if x = 3 then none else some x := by
  decide

theorem exists_waveOf_of_ne_three {x : BitVec 2} (h : x ≠ 3) : ∃ w, waveOf x = some w ∧ waveCode w = x :=
  Option.map_eq_some_iff.mp ((map_waveCode_waveOf x).trans (if_neg h))

/-! ### The draws of OP.RANDOM -/

section
variable {E : Env} {s : State}

/-- OP.RANDOM after its two draws. -/
theorem opRandom_run {k : Fin s.cfg.nPool.val} {u v : State} {ratio : F32}
    (hentry : rngWeighted E (fun k => (poolEntry s.cfg k).weight) s = .ok k u)
    (hratio : rngF32 E (poolEntry s.cfg k).ratioLo (poolEntry s.cfg k).ratioHi u = .ok ratio v)
    (j : Fin 3) (sr : Word) :
    opRandom E j sr s = .ok () (v.setOper j (newOper sr ratio (poolEntry s.cfg k).wave)) :=
  (readState_bind _ s).trans ((bind_ok hentry).trans (bind_ok hratio))

/-- OP.RANDOM of an empty pool stops at the first draw. -/
theorem opRandom_run_empty (h : ∀ k : Fin s.cfg.nPool.val, (poolEntry s.cfg k).weight = 0) (j : Fin 3) (sr : Word) :
    opRandom E j sr s = .error (.raise .errSelect) s := by
  obtain ⟨k, r, hk, -⟩ | ⟨-, hempty⟩ := rngWeighted_cases E (fun k => (poolEntry s.cfg k).weight) s
  · exact absurd (h k) hk
  · exact (readState_bind _ s).trans (bind_error hempty)

end

/-! ### The commands -/

/-- At TEST level an operation whose command raises answers that status on the state the command leaves. -/
theorem exec_of_command_raise {i : Instr} {s t : State} {e : Status} (hs : s.testEn = true)
    (h : commandOf i s = .error (.raise e) t) : exec i s = .next (t.answer ⟨e, false, 0⟩) := by
  obtain g | g := exec_eq_command i s
  · rw [g, hostCommand, h, respond_raise, answerError_eq]
  · rw [g, testCommand_test hs, h, respond_raise, answerError_eq]

section
variable {j : Fin 3} {inst : Byte} {s : State}

theorem commandOf_opNew_run (hj : inst.toNat = j.val) :
    commandOf (.opNew inst) s = (waveOf s.argWave).elim (.error (.raise .errValue) s) fun w =>
      .ok Answer.none (s.setOper j (newOper s.arg1 s.argLow w)) := by
  refine (selectInst_bind hj _ s).trans ((readState_bind _ s).trans ?_)
  cases waveOf s.argWave <;> rfl

theorem exec_opNew (hj : inst.toNat = j.val) (hs : s.testEn = true) {w : WaveKind} (hw : waveOf s.argWave = some w) :
    exec (.opNew inst) s = .next ((s.setOper j (newOper s.arg1 s.argLow w)).answer ⟨.ok, false, 0⟩) :=
  exec_of_command_ok (a := Answer.none) hs (by rw [commandOf_opNew_run hj, hw, Option.elim_some])

theorem exec_opNew_reserved (hj : inst.toNat = j.val) (hs : s.testEn = true) (hw : waveOf s.argWave = none) :
    exec (.opNew inst) s = .next (s.answer ⟨.errValue, false, 0⟩) :=
  exec_of_command_raise hs (by rw [commandOf_opNew_run hj, hw, Option.elim_none])

theorem commandOf_opRandom_run (hj : inst.toNat = j.val) :
    commandOf (.opRandom inst) s = (opRandom Config.env j s.arg1 >>= fun _ => pure Answer.none) s :=
  (selectInst_bind hj _ s).trans (readState_bind _ s)

theorem exec_opRandom (hj : inst.toNat = j.val) (hs : s.testEn = true) {t : State}
    (h : opRandom Config.env j s.arg1 s = .ok () t) :
    exec (.opRandom inst) s = .next (t.answer ⟨.ok, false, 0⟩) :=
  exec_of_command_ok (a := Answer.none) hs ((commandOf_opRandom_run hj).trans (bind_ok h))

theorem exec_opRandom_raise (hj : inst.toNat = j.val) (hs : s.testEn = true) {e : Status} {t : State}
    (h : opRandom Config.env j s.arg1 s = .error (.raise e) t) :
    exec (.opRandom inst) s = .next (t.answer ⟨e, false, 0⟩) :=
  exec_of_command_raise hs ((commandOf_opRandom_run hj).trans (bind_error h))

theorem exec_opSetf (hj : inst.toNat = j.val) (hs : s.testEn = true) :
    exec (.opSetf inst) s = .next ((s.setOper j { s.oper j with
      freq := fmul Config.env.num s.argLow (s.oper j).ratio }).answer ⟨.ok, false, 0⟩) :=
  exec_of_command_ok (a := Answer.none) hs ((selectInst_bind hj _ s).trans (readState_bind _ s))

theorem commandOf_opNext_run (hj : inst.toNat = j.val) :
    commandOf (.opNext inst) s = (opNext Config.env j >>= fun y => pure (Answer.ofWord y)) s :=
  selectInst_bind hj _ s

theorem exec_opNext (hj : inst.toNat = j.val) (hs : s.testEn = true) {y : F32} {t : State}
    (h : opNext Config.env j s = .ok y t) :
    exec (.opNext inst) s = .next (t.answer ⟨.ok, false, y.setWidth 64⟩) :=
  exec_of_command_ok (a := Answer.ofWord y) hs ((commandOf_opNext_run hj).trans (bind_ok h))

theorem exec_opNext_fault (hj : inst.toNat = j.val) (hs : s.testEn = true) {f : Fault} {t : State}
    (h : opNext Config.env j s = .error (.fault f) t) : exec (.opNext inst) s = .fault f :=
  exec_of_command_fault hs ((commandOf_opNext_run hj).trans (bind_error h))

end

/-! ### The samples of OP.NEXT -/

/-- OP.NEXT of a waveform in use is that waveform at the advanced counter. -/
theorem opNext_run_of_wave (E : Env) {j : Fin 3} {s : State} {w : WaveKind} (h : (s.oper j).wave = waveCode w) :
    opNext E j s = signal E w (s.oper j).sr (s.oper j).freq ((s.oper j).phase + 1) (s.phaseAdvanced j) := by
  have hw : waveOf (waveCode w) = some w := by cases w <;> rfl
  rw [opNext_run, h, hw]

theorem opNext_run_reserved (E : Env) {j : Fin 3} {s : State} (h : (s.oper j).wave = 3) :
    opNext E j s = .error (.fault .reservedWave) (s.phaseAdvanced j) := by
  have hw : waveOf 3 = none := rfl
  rw [opNext_run, h, hw]

/-! ### The statements -/

/-- Settles O27: a waveform in use is written as its code, and the reserved one raises before any write. -/
theorem opNewConstructs : Obligations.OpNewConstructs := by
  intro j inst s hj hs
  have hword := decode_unitWord (op := 0x30) (n := 3) (mk := .opNew) (by simp [opcodeTable]) hj
  refine ⟨fun hne => ?_, fun hthree => ?_, hword, argWave_eq_ofNat s⟩
  · obtain ⟨w, hw, hcode⟩ := exists_waveOf_of_ne_three hne
    rw [exec_opNew hj hs hw, newOper, hcode, argLow_eq_setWidth]
    rfl
  · exact exec_opNew_reserved hj hs (hthree ▸ rfl)

/-- Settles O28: each draw succeeds in its turn, the entry because some weight is not 0, the ratio because the
entry's range is one; without a weight the first draw raises. -/
theorem opRandomDrawsFromThePool : Obligations.OpRandomDrawsFromThePool := by
  intro j inst s hj hs
  have hword := decode_unitWord (op := 0x31) (n := 3) (mk := .opRandom) (by simp [opcodeTable]) hj
  refine ⟨fun ⟨k₀, hk₀⟩ hrange => ?_, fun hzero => ?_, hword⟩
  · obtain ⟨k, r, hk, hentry⟩ | ⟨hzero, -⟩ := rngWeighted_cases Config.env (fun k => (poolEntry s.cfg k).weight) s
    · have hratio := rngF32_run Config.env (hrange k) (s.setRng r)
      exact ⟨k, _, _, _, hentry, hratio, hk, f32Answer_mem _ _ (hrange k),
        exec_opRandom hj hs (opRandom_run hentry hratio j s.arg1)⟩
    · exact absurd (hzero k₀) hk₀
  · exact exec_opRandom_raise hj hs (opRandom_run_empty hzero j s.arg1)

/-- Settles O29: the base of the port times the ratio of the selected Operator. -/
theorem opSetfScalesTheBase : Obligations.OpSetfScalesTheBase := fun _ _ _ hj hs =>
  ⟨exec_opSetf hj hs, decode_unitWord (op := 0x32) (n := 3) (mk := .opSetf) (by simp [opcodeTable]) hj⟩

/-- Settles O30: the counter advances whatever the waveform, and the case of `wave` is the waveform's own. -/
theorem opNextAdvancesThenEvaluates : Obligations.OpNextAdvancesThenEvaluates := by
  intro j inst s hj hs
  have hword := decode_unitWord (op := 0x33) (n := 3) (mk := .opNext) (by simp [opcodeTable]) hj
  refine ⟨fun hsine => ?_, fun hsquare hsr hf => ?_, fun hsquare hzero => ?_, fun hsaw => ?_, fun hthree => ?_, hword⟩
  · exact exec_opNext hj hs (opNext_run_of_wave (w := .sine) _ hsine)
  · exact exec_opNext hj hs
      ((opNext_run_of_wave (w := .square) _ hsquare).trans (signal_square_run hsr hf _ _ _))
  · exact exec_opNext_fault hj hs
      ((opNext_run_of_wave (w := .square) _ hsquare).trans (signal_square_run_zero hzero _ _ _))
  · exact exec_opNext hj hs (opNext_run_of_wave (w := .saw) _ hsaw)
  · exact exec_opNext_fault hj hs (opNext_run_reserved _ hthree)

end Sys2Proof.Machine
end

section
/-! The three ADSR operations (spec/43_adsr.md R130 to R134). -/

namespace Sys2Proof.Machine

-- As in Sys2Proof/Tests/Slice0.lean: a thread for each small proof takes the joined text's memory.
set_option Elab.async false

/-! ### The words -/

/-- An operation without operands decodes from its opcode and zeros. -/
theorem decode_plainWord {op : Nat} {i : Instr} (h : ⟨op, .n, fun _ _ => i⟩ ∈ opcodeTable) :
    decode (BitVec.ofNat 32 (op * 2 ^ 24)) = .ok i :=
  decode_formatNWord (r := ⟨op, .n, fun _ _ => i⟩) h rfl

/-! ### ADSR.NEW -/

/-- ADSR.NEW after its four draws; the ranges are those of the configuration before the first. -/
theorem adsrNew_run {E : Env} {s s1 s2 s3 s4 : State} {a d u r : F32}
    (hattack : rngF32 E s.cfg.attLo s.cfg.attHi s = .ok a s1)
    (hdecay : rngF32 E s.cfg.decLo s.cfg.decHi s1 = .ok d s2)
    (hsustain : rngF32 E s.cfg.susLo s.cfg.susHi s2 = .ok u s3)
    (hrelease : rngF32 E s.cfg.relLo s.cfg.relHi s3 = .ok r s4) :
    adsrNew E s = .ok () ((s4.setAdsr ⟨a, d, u, r, fZero, 0, fZero, 0⟩).setClock 2 ⟨0, 0⟩) :=
  (readState_bind _ s).trans
    ((bind_ok hattack).trans ((bind_ok hdecay).trans ((bind_ok hsustain).trans (bind_ok hrelease))))

theorem exec_adsrNew {s t : State} (hs : s.testEn = true) (h : adsrNew Config.env s = .ok () t) :
    exec .adsrNew s = .next (t.answer ⟨.ok, false, 0⟩) :=
  exec_of_command_ok (a := Answer.none) hs (bind_ok h)

/-- Settles O31: each draw succeeds in its turn, because its range is one, and leaves the state of the next. -/
theorem adsrNewDrawsFourFractions : Obligations.AdsrNewDrawsFourFractions := by
  refine ⟨decode_plainWord (op := 0x40) (by simp [opcodeTable]), fun s hs hattack hdecay hsustain hrelease => ?_⟩
  have hdrawA := rngF32_run Config.env hattack
  have hdrawD := rngF32_run Config.env hdecay
  have hdrawS := rngF32_run Config.env hsustain
  have hdrawR := rngF32_run Config.env hrelease
  exact ⟨_, _, _, _, _, _, _, _, hdrawA _, hdrawD _, hdrawS _, hdrawR _,
    exec_adsrNew hs (adsrNew_run (hdrawA _) (hdrawD _) (hdrawS _) (hdrawR _))⟩

/-! ### ADSR.START -/

theorem exec_adsrStart {s : State} (hs : s.testEn = true) :
    exec .adsrStart s = .next (((s.setAdsr (playedAdsr Config.env.num s.syn.adsr s.arg1)).setClock 2
      ⟨0, f2u (fmul Config.env.num (u2f s.arg1) s.syn.adsr.attack)⟩).answer ⟨.ok, false, 0⟩) :=
  exec_of_command_ok (a := Answer.none) hs
    ((readState_bind _ s).trans (bind_ok (adsrStart_run Config.env s.arg1 s)))

/-- Settles O32: the segment is that of the length on the port, which ADSR.START records before it computes. -/
theorem adsrStartEntersAttack : Obligations.AdsrStartEntersAttack :=
  ⟨decode_plainWord (op := 0x41) (by simp [opcodeTable]), fun _ hs => exec_adsrStart hs⟩

/-! ### The transitions of ADSR.NEXT -/

/-- The addition that ends every ADSR.NEXT. -/
def Adsr.ramped (N : Numerics) (a : Adsr) : Adsr := { a with value := fadd N a.value a.delta }

theorem fadd_fZero_fZero (N : Numerics) : fadd N fZero fZero = fZero := rfl

theorem adsrStateOf_code (x : AdsrState) : adsrStateOf x.code = some x := by
  cases x <;> rfl

theorem adsrStateOf_reserved : ∀ {x : BitVec 3}, 5 ≤ x.toNat → adsrStateOf x = none := by
  decide

section
variable {N : Numerics} {a : Adsr} {c : Clock}

theorem adsrMoved_attack (h : a.state = AdsrState.attack.code) : adsrMoved N a c =
    some ({ a with state := 2, delta := fdiv N (fsub N a.sustain a.value) (segDecay N a) },
      ⟨0, f2u (segDecay N a)⟩) := by
  rw [adsrMoved, h, adsrStateOf_code]

theorem adsrMoved_decay (h : a.state = AdsrState.decay.code) : adsrMoved N a c =
    some ({ a with state := 3, delta := fZero }, ⟨0, f2u (segSustain N a)⟩) := by
  rw [adsrMoved, h, adsrStateOf_code]

theorem adsrMoved_sustain (h : a.state = AdsrState.sustain.code) : adsrMoved N a c =
    some ({ a with state := 4, delta := fdiv N (fsub N fZero a.value) (segRelease N a) },
      ⟨0, f2u (segRelease N a)⟩) := by
  rw [adsrMoved, h, adsrStateOf_code]

/-- Falling off Release and staying Off are one case: the Clock is as it was. -/
theorem adsrMoved_off (h : a.state = AdsrState.release.code ∨ a.state = AdsrState.off.code) : adsrMoved N a c =
    some ({ a with state := 0, delta := fZero, value := fZero }, c) := by
  obtain h | h := h <;> rw [adsrMoved, h, adsrStateOf_code]

theorem adsrMoved_reserved (h : 5 ≤ a.state.toNat) : adsrMoved N a c = none := by
  rw [adsrMoved, adsrStateOf_reserved h]

/-- Below the deadline the envelope keeps its segment. -/
theorem adsrAfter_of_not_fires (h : c.ticked.tick < c.ticked.deadline) :
    adsrAfter N a c = some (a.ramped N, c.ticked) := by
  have hready : ¬ c.ticked.isReady = true := mt (isReady_iff _).mp (BitVec.not_le.mpr h)
  rw [adsrAfter, if_neg hready]
  rfl

/-- At the deadline it moves first, and the delta added is that of the new segment. -/
theorem adsrAfter_of_fires (h : c.ticked.deadline ≤ c.ticked.tick) :
    adsrAfter N a c = (adsrMoved N a c.ticked).map fun (b, d) => (b.ramped N, d) := by
  rw [adsrAfter, if_pos ((isReady_iff _).mpr h)]
  rfl

theorem adsrAfter_of_moved {b : Adsr} {d : Clock} (h : c.ticked.deadline ≤ c.ticked.tick)
    (hmoved : adsrMoved N a c.ticked = some (b, d)) : adsrAfter N a c = some (b.ramped N, d) := by
  rw [adsrAfter_of_fires h, hmoved, Option.map_some]

end

/-! ### ADSR.NEXT -/

section
variable {s : State}

theorem exec_adsrNext {a : Adsr} {c : Clock} (hs : s.testEn = true)
    (h : adsrAfter Config.env.num s.syn.adsr (s.clock 2) = some (a, c)) :
    exec .adsrNext s = .next (((s.setAdsr a).setClock 2 c).answer ⟨.ok, false, a.value.setWidth 64⟩) := by
  have hrun := adsrNext_run Config.env s
  rw [h] at hrun
  exact exec_of_command_ok (a := Answer.ofWord a.value) hs (bind_ok hrun)

theorem exec_adsrNext_fault (hs : s.testEn = true)
    (h : adsrAfter Config.env.num s.syn.adsr (s.clock 2) = none) :
    exec .adsrNext s = .fault .reservedAdsrState := by
  have hrun := adsrNext_run Config.env s
  rw [h] at hrun
  exact exec_of_command_fault hs (bind_error hrun)

end

/-- Settles O33: the phase Clock decides whether the envelope moves, its state where it moves to. -/
theorem adsrNextFollowsItsCaseTable : Obligations.AdsrNextFollowsItsCaseTable := by
  refine ⟨decode_plainWord (op := 0x42) (by simp [opcodeTable]), fun s hs => ?_⟩
  refine ⟨fun hwait => ?_, fun hfire hattack => ?_, fun hfire hdecay => ?_, fun hfire hsustain => ?_,
    fun hfire hoff => ?_, fun hfire hreserved => ?_⟩
  · exact exec_adsrNext hs (adsrAfter_of_not_fires hwait)
  · exact exec_adsrNext hs (adsrAfter_of_moved hfire (adsrMoved_attack hattack))
  · exact exec_adsrNext hs (adsrAfter_of_moved hfire (adsrMoved_decay hdecay))
  · exact exec_adsrNext hs (adsrAfter_of_moved hfire (adsrMoved_sustain hsustain))
  · have hnext := exec_adsrNext hs (adsrAfter_of_moved hfire (adsrMoved_off hoff))
    simp only [Adsr.ramped, fadd_fZero_fZero] at hnext
    exact hnext
  · refine exec_adsrNext_fault hs ?_
    rw [adsrAfter_of_fires hfire, adsrMoved_reserved hreserved, Option.map_none]

end Sys2Proof.Machine
end

section
/-! The Note and Sequence operations (spec/45_note_sequence.md R150 to R154). -/

namespace Sys2Proof.Machine

-- As in Sys2Proof/Tests/Slice0.lean: a thread for each small proof takes the joined text's memory.
set_option Elab.async false

/-! ### Words and commands -/

theorem toNat_ofNat_slot (i : Fin 8) : (BitVec.ofNat 8 i.val).toNat = i.val := by
  rw [BitVec.toNat_ofNat]
  omega

/-- At TEST level every operation is its command. -/
theorem exec_eq_respond {i : Instr} {s : State} (hs : s.testEn = true) : exec i s = respond (commandOf i s) := by
  obtain e | e := exec_eq_command i s
  · exact e
  · exact e.trans (testCommand_test hs)

/-! ### NOTE.NEW and NOTE.DEFAULT -/

/-- The bound of the duration's draw: the sum cannot wrap, because a length has 4 bits. -/
theorem lengthBound_eq_ofNat (length : BitVec 4) :
    length.setWidth 32 + 1 = BitVec.ofNat 32 (length.toNat + 1) := by
  rw [BitVec.ofNat_add, BitVec.ofNat_toNat]
  rfl

theorem lt_lengthBound_iff {length : BitVec 4} {d : Word} :
    d < BitVec.ofNat 32 (length.toNat + 1) ↔ d.toNat ≤ length.toNat := by
  have hlength := length.isLt
  rw [BitVec.lt_def, BitVec.toNat_ofNat, Nat.mod_eq_of_lt (by omega), Nat.lt_succ_iff]

section
variable {i : Fin 8} {inst : Byte} {s t : State}

/-- NOTE.NEW after its two draws. -/
theorem noteNew_run {E : Env} {d : Word} {u v : State} {tone : Fin 8} (hscale : s.seq.scale.toNat < 21)
    (hdur : rngU32 E 1 (BitVec.ofNat 32 (s.seq.length.toNat + 1)) s = .ok d u)
    (htone : rngIndex E 8 u = .ok tone v) :
    noteNew E i s = .ok ()
      (v.setNote i ⟨BitVec.ofNat 4 d.toNat, (s.cfg.scales[s.seq.scale.toNat]'hscale)[tone]⟩) := by
  rw [← lengthBound_eq_ofNat] at hdur
  refine (readState_bind _ s).trans ((bind_ok hdur).trans ((bind_ok htone).trans ?_))
  rw [scaleTone_some hscale, BitVec.ofNat_toNat]
  rfl

/-- On a scale that exists and a length that is not 0, NOTE.NEW ends normally. -/
theorem noteNew_ok (E : Env) (i : Fin 8) (hscale : s.seq.scale.toNat < 21) (hlength : 1 ≤ s.seq.length.toNat) :
    ∃ n st tone, 1 ≤ n.dur.toNat ∧ n.dur.toNat ≤ s.seq.length.toNat ∧
      scaleTone s.cfg s.seq.scale tone = some n.freq ∧ noteNew E i s = .ok () ((s.setRng st).setNote i n) := by
  obtain h | ⟨hzero, -⟩ | ⟨hbig, -⟩ := noteNew_cases E i s
  · exact h
  · simp [hzero] at hlength
  · omega

theorem exec_noteNew (hi : inst.toNat = i.val) (hs : s.testEn = true) (h : noteNew Config.env i s = .ok () t) :
    exec (.noteNew inst) s = .next (t.answer ⟨.ok, false, 0⟩) :=
  exec_of_command_ok (a := Answer.none) hs ((selectInst_bind hi _ s).trans (bind_ok h))

theorem exec_noteDefault (hi : inst.toNat = i.val) (hs : s.testEn = true) :
    exec (.noteDefault inst) s = .next ((s.setNote i ⟨0, fZero⟩).answer ⟨.ok, false, 0⟩) :=
  exec_of_command_ok (a := Answer.none) hs ((selectInst_bind hi _ s).trans (bind_ok (noteDefault_run i s)))

end

/-- Settles O38: the range of the duration's draw is one because the length is not 0, and the scale has the tone. -/
theorem notesAreDrawnOrZero : Obligations.NotesAreDrawnOrZero := by
  intro i inst s hi hs
  have hnew := decode_unitWord (op := 0x60) (n := 8) (mk := .noteNew) (by simp [opcodeTable]) hi
  have hdefault := decode_unitWord (op := 0x61) (n := 8) (mk := .noteDefault) (by simp [opcodeTable]) hi
  refine ⟨fun hscale hlength => ?_, exec_noteDefault hi hs, hnew, hdefault⟩
  have hrange : (1 : Word) < BitVec.ofNat 32 (s.seq.length.toNat + 1) := lt_lengthBound_iff.mpr hlength
  have hdur := rngU32_run Config.env hrange s
  have htone := rngIndex_run Config.env (by decide : 0 < 8)
  obtain ⟨hlo, hhi⟩ := u32Answer_mem Config.env.rng s.rng hrange
  exact ⟨_, _, _, _, hdur, htone _, hlo, lt_lengthBound_iff.mp hhi,
    exec_noteNew hi hs (noteNew_run hscale hdur (htone _))⟩

/-! ### The slots of SEQ.NEW -/

/-- One turn of the loop of SEQ.NEW. -/
def fillNote (E : Env) (i : Fin 8) : M Unit := do
  let s ← readState
  if i.val < s.seq.length.toNat then noteNew E i else noteDefault i

theorem fillNote_run (E : Env) (i : Fin 8) (s : State) :
    fillNote E i s = (if i.val < s.seq.length.toNat then noteNew E i else noteDefault i) s := rfl

theorem fillNotes_cons (E : Env) (i : Fin 8) (rest : List (Fin 8)) (s : State) :
    fillNotes E (i :: rest) s = (fillNote E i >>= fun _ => fillNotes E rest) s := by
  rw [fillNotes_cons_run, bind_run, bind_run, fillNote_run]

/-- The slot holds what R152 leaves in it: below the length a drawn Note, else the default one. -/
structure SlotFilled (s : State) (i : Fin 8) : Prop where
  active : i.val < s.seq.length.toNat → 1 ≤ (s.note i).dur.toNat ∧ (s.note i).dur.toNat ≤ s.seq.length.toNat ∧
    ∃ tone, scaleTone s.cfg s.seq.scale tone = some (s.note i).freq
  rest : s.seq.length.toNat ≤ i.val → s.note i = ⟨0, fZero⟩

/-- The states differ in the generator and the slots alone. -/
def OnlySlots (s t : State) : Prop := ∃ r notes, t = (s.setRng r).setSeq { s.seq with note := notes }

theorem OnlySlots.refl (s : State) : OnlySlots s s := ⟨s.rng, s.seq.note, rfl⟩

theorem OnlySlots.setNote {s t : State} (h : OnlySlots s t) (r : RngState) (i : Fin 8) (n : Note) :
    OnlySlots s ((t.setRng r).setNote i n) := by
  obtain ⟨_, notes, rfl⟩ := h
  exact ⟨r, notes.set i n, rfl⟩

/-- What a slot holds is judged by its Note and by what no turn writes. -/
theorem SlotFilled.setNote_ne {s : State} {i j : Fin 8} (h : SlotFilled s j) (r : RngState) (n : Note) (hij : i ≠ j) :
    SlotFilled ((s.setRng r).setNote i n) j := by
  have hnote := setNote_note_ne (s.setRng r) i n j hij
  exact ⟨hnote ▸ h.active, hnote ▸ h.rest⟩

/-- A turn goes from `s` to `t` and fills its slot. -/
def FillsSlot (E : Env) (i : Fin 8) (s t : State) : Prop :=
  fillNote E i s = .ok () t ∧ SlotFilled t i ∧ ∃ r n, t = (s.setRng r).setNote i n

section
variable {s t : State}

/-- A turn ends normally, if the scale exists and the length is not 0. -/
theorem fillNote_fills (E : Env) (i : Fin 8) (hscale : s.seq.scale.toNat < 21) (hlength : 1 ≤ s.seq.length.toNat) :
    ∃ t, FillsSlot E i s t := by
  have hturn := fillNote_run E i s
  by_cases hi : i.val < s.seq.length.toNat
  · obtain ⟨n, r, tone, hlo, hhi, htone, hrun⟩ := noteNew_ok E i hscale hlength
    rw [if_pos hi, hrun] at hturn
    have hnote := setNote_note_self (s.setRng r) i n
    have hfilled : SlotFilled ((s.setRng r).setNote i n) i :=
      ⟨fun _ => hnote.symm ▸ ⟨hlo, hhi, tone, htone⟩, fun h => absurd hi (Nat.not_lt.mpr h)⟩
    exact ⟨_, hturn, hfilled, r, n, rfl⟩
  · rw [if_neg hi, noteDefault_run] at hturn
    exact ⟨_, hturn, ⟨fun h => absurd h hi, fun _ => setNote_note_self s i _⟩, s.rng, _, rfl⟩

/-- The loop of SEQ.NEW is a path of turns. -/
theorem fillNotes_path (E : Env) (l : List (Fin 8)) (hscale : s.seq.scale.toNat < 21)
    (hlength : 1 ≤ s.seq.length.toNat) :
    ∃ w : Nat → State, w 0 = s ∧ fillNotes E l s = .ok () (w l.length) ∧
      ∀ k (hk : k < l.length), FillsSlot E l[k] (w k) (w (k + 1)) := by
  induction l generalizing s with
  | nil => exact ⟨fun _ => s, rfl, rfl, nofun⟩
  | cons i rest ih =>
    obtain ⟨u, hturn⟩ := fillNote_fills E i hscale hlength
    obtain ⟨r, n, rfl⟩ := hturn.2.2
    obtain ⟨w, hw, hrun, hpath⟩ := ih (s := (s.setRng r).setNote i n) hscale hlength
    refine ⟨fun k => k.casesOn s w, rfl, (fillNotes_cons E i rest s).trans ((bind_ok hturn.1).trans hrun), ?_⟩
    rintro (_ | k) hk
    · show FillsSlot E i s (w 0)
      rwa [hw]
    · exact hpath k (Nat.lt_of_succ_lt_succ hk)

/-- Along a path of turns from slot 0 up, the slots passed are filled and the rest of the state stands. -/
theorem slotsFilled_of_path {E : Env} {w : Nat → State} (hpath : ∀ i : Fin 8, FillsSlot E i (w i.val) (w (i.val + 1)))
    (k : Nat) (hk : k ≤ 8) : OnlySlots (w 0) (w k) ∧ ∀ i : Fin 8, i.val < k → SlotFilled (w k) i := by
  induction k with
  | zero => exact ⟨OnlySlots.refl _, nofun⟩
  | succ k ih =>
    obtain ⟨honly, hslots⟩ := ih (Nat.le_of_succ_le hk)
    obtain ⟨-, hfilled, r, n, hnext⟩ := hpath ⟨k, hk⟩
    refine ⟨hnext ▸ honly.setNote r _ n, fun i hi => ?_⟩
    obtain hlt | rfl := Nat.lt_succ_iff_lt_or_eq.mp hi
    · have hne : (⟨k, hk⟩ : Fin 8) ≠ i := Fin.ne_of_val_ne hlt.ne'
      exact hnext ▸ (hslots i hlt).setNote_ne r n hne
    · exact hfilled

/-- A turn is the command it stands for. -/
theorem exec_fillNote {i : Fin 8} (hs : s.testEn = true) (h : fillNote Config.env i s = .ok () t) :
    exec (if i.val < s.seq.length.toNat then .noteNew (BitVec.ofNat 8 i.val) else .noteDefault (BitVec.ofNat 8 i.val))
      s = .next (t.answer ⟨.ok, false, 0⟩) := by
  rw [fillNote_run] at h
  split at h
  next hi => exact (if_pos hi).symm ▸ exec_noteNew (toNat_ofNat_slot i) hs h
  next hi =>
    cases h
    exact (if_neg hi).symm ▸ exec_noteDefault (toNat_ofNat_slot i) hs

/-- The loop of SEQ.NEW fills all slots. -/
theorem fillNotes_fills (hs : s.testEn = true) (hscale : s.seq.scale.toNat < 21) (hlength : 1 ≤ s.seq.length.toNat) :
    ∃ t, fillNotes Config.env (List.finRange 8) s = .ok () t ∧ NotesFilled s t ∧ OnlySlots s t ∧
      ∀ i, SlotFilled t i := by
  obtain ⟨w, rfl, hrun, hpath⟩ := fillNotes_path Config.env (List.finRange 8) hscale hlength
  have hpath (i : Fin 8) : FillsSlot Config.env i (w i.val) (w (i.val + 1)) := by
    simpa using hpath i.val (by simp)
  have hslots := slotsFilled_of_path hpath
  obtain ⟨honly, hfilled⟩ := hslots 8 le_rfl
  refine ⟨w 8, hrun, ⟨fun j => w j.val, rfl, rfl, fun i => ?_⟩, honly, fun i => hfilled i i.isLt⟩
  obtain ⟨r, notes, honly⟩ := (hslots i.val i.isLt.le).1
  have hlen : (w i.val).seq.length = (w 0).seq.length := by rw [honly]; rfl
  have htest : (w i.val).testEn = true := by rw [honly]; exact hs
  exact hlen ▸ exec_fillNote htest (hpath i).1

end

/-! ### SEQ.NEW -/

/-- A draw of an index does not look at the Sequence. -/
theorem rngIndex_setSeq {E : Env} {n : Nat} {s t : State} {k : Fin n} (h : rngIndex E n s = .ok k t) (q : Seq) :
    rngIndex E n (s.setSeq q) = .ok k (t.setSeq q) := by
  have hn : 0 < n := k.pos
  rw [rngIndex_run E hn] at h ⊢
  cases h
  rfl

/-- SEQ.NEW after its draws and its loop. -/
theorem seqNew_run {E : Env} {sr d : Word} {bpm : F32} {s s1 s2 s3 s4 s5 : State} {k : Fin s.cfg.nScales.val}
    {m : Fin s.cfg.nMetres.val} (hbpm : rngF32 E s.cfg.tempoLo s.cfg.tempoHi s = .ok bpm s1)
    (hk : rngIndex E s.cfg.nScales.val s1 = .ok k s2) (hm : rngIndex E s.cfg.nMetres.val s2 = .ok m s3)
    (hfill : fillNotes E (List.finRange 8) (s3.setSeq { s1.seq with
      tempo := tempoSamples E.num bpm sr, scale := BitVec.ofNat 5 k.val, length := metreAt s.cfg m }) = .ok () s4)
    (hd : rngU32 E s.cfg.seqMutLo s.cfg.seqMutHi s4 = .ok d s5) :
    seqNew E sr s = .ok () (((s5.setSeq { s5.seq with cursor := (s5.seq.length - 1).setWidth 3 }).setClock 0
      ⟨0, d⟩).setClock 1 ⟨0, 0⟩) := by
  rw [seqNew, readState_bind, bind_ok hbpm, updateState_bind, bind_ok (rngIndex_setSeq hk _), updateState_bind,
    bind_ok (rngIndex_setSeq (rngIndex_setSeq hm _) _), updateState_bind]
  exact (bind_ok hfill).trans (bind_ok hd)

theorem exec_seqNew {s t : State} (hs : s.testEn = true) (h : seqNew Config.env s.arg1 s = .ok () t) :
    exec .seqNew s = .next (t.answer ⟨.ok, false, 0⟩) :=
  exec_of_command_ok (a := Answer.none) hs ((readState_bind _ s).trans (bind_ok h))

theorem lastSlot_eq_ofNat {length : BitVec 4} (h : 1 ≤ length.toNat) :
    (length - 1).setWidth 3 = BitVec.ofNat 3 (length.toNat - 1) := by
  apply BitVec.eq_of_toNat_eq
  have hlength := length.isLt
  simp
  omega

/-- A scale that SEQ.NEW draws exists. -/
theorem drawnScale_lt {c : Cfg} (k : Fin c.nScales.val) : (BitVec.ofNat 5 k.val).toNat < 21 := by
  have hcount := c.nScales.isLt
  have hk := k.isLt
  rw [BitVec.toNat_ofNat]
  omega

/-- Settles O39: each draw succeeds in its turn, the loop fills the slots on the scale and the length drawn before
it, and the cursor is the last active slot. -/
theorem seqNewConstructsTheSequence : Obligations.SeqNewConstructsTheSequence := by
  refine ⟨decode_plainWord (op := 0x62) (by simp [opcodeTable]), fun s hs htempo hscales hmetres hmut => ?_⟩
  have hbpm := rngF32_run Config.env htempo s
  generalize f32Answer Config.env.rng s.rng _ _ = bpm, (Config.env.rng.f32 s.rng _ _).2 = r1 at hbpm
  have hk := rngIndex_run Config.env hscales (s.setRng r1)
  generalize indexAnswer Config.env.rng _ _ hscales = k, (Config.env.rng.index _ s.cfg.nScales.val).2 = r2 at hk
  have hm := rngIndex_run Config.env hmetres ((s.setRng r1).setRng r2)
  generalize indexAnswer Config.env.rng _ _ hmetres = m, (Config.env.rng.index _ s.cfg.nMetres.val).2 = r3 at hm
  obtain ⟨hmetre, -⟩ := metreAt_range s.cfg m
  obtain ⟨s4, hfill, hnotes, ⟨r4, notes, rfl⟩, hslots⟩ := fillNotes_fills (s := (s.setRng r3).setSeq { s.seq with
    tempo := tempoSamples Config.env.num bpm s.arg1, scale := BitVec.ofNat 5 k.val, length := metreAt s.cfg m })
    hs (drawnScale_lt k) hmetre
  have hd := rngU32_run Config.env hmut
  have hrun := exec_seqNew hs (seqNew_run hbpm hk hm hfill (hd _))
  refine ⟨bpm, _, k, _, m, _, _, _, _, hbpm, hk, hm, hnotes, hd _, metreAt_mem s.cfg m, fun i => (hslots i).active,
    fun i => (hslots i).rest, ?_⟩
  rw [← lastSlot_eq_ofNat hmetre]
  exact hrun

/-! ### SEQ.MUTATE -/

section
variable {s : State}

/-- SEQ.MUTATE after the draw of the slot, the Note and the draw of the deadline. -/
theorem seqMutate_run {E : Env} {k : Fin (s.seq.length.toNat - 1)} {u w v : State} {slot : Fin 8} {d : Word}
    (hk : rngIndex E (s.seq.length.toNat - 1) s = .ok k u) (hslot : slot.val = mutatedSlot k.val s.seq.cursor)
    (hnote : noteNew E slot u = .ok () w) (hd : rngU32 E s.cfg.seqMutLo s.cfg.seqMutHi w = .ok d v) :
    seqMutate E s = .ok () (v.setClock 0 ⟨0, d⟩) := by
  have hlength : s.seq.length ≠ 0 := fun h => by
    have hpos := k.isLt
    simp [h] at hpos
  have hlt : mutatedSlot k.val s.seq.cursor < 8 := hslot ▸ slot.isLt
  obtain rfl : slot = ⟨mutatedSlot k.val s.seq.cursor, hlt⟩ := Fin.ext hslot
  rw [seqMutate, readState_bind, if_neg hlength, bind_ok hk, dif_pos hlt, bind_ok hnote, bind_ok hd, clkReset_run]

/-- With one active slot there is no other to pick. -/
theorem seqMutate_run_single (E : Env) (h : s.seq.length = 1) :
    seqMutate E s = .error (.raise .errSelect) s := by
  rw [seqMutate, readState_bind, if_neg (by rw [h]; decide), h]
  exact bind_error (rngIndex_run_zero E s)

theorem exec_seqMutate {t : State} (hs : s.testEn = true) (h : seqMutate Config.env s = .ok () t) :
    exec .seqMutate s = .next (t.answer ⟨.ok, false, 0⟩) :=
  exec_of_command_ok (a := Answer.none) hs (bind_ok h)

end

/-- Settles O41: the slot's draw has a range because two slots are active; the response of the NOTE.NEW that stands
for the middle of the command has no part in what follows. -/
theorem seqMutateReplacesAnotherSlot : Obligations.SeqMutateReplacesAnotherSlot := by
  refine ⟨decode_plainWord (op := 0x64) (by simp [opcodeTable]), fun s hs => ?_⟩
  refine ⟨fun h2 h8 hscale hmut => ?_, fun h1 => ?_⟩
  · have hk := rngIndex_run Config.env (by omega : 0 < s.seq.length.toNat - 1) s
    generalize indexAnswer Config.env.rng s.rng _ _ = k, (Config.env.rng.index s.rng _).2 = st at hk
    obtain ⟨hlt, hne⟩ := mutatedSlot_spec (cursor := s.seq.cursor) k.isLt
    let slot : Fin 8 := ⟨mutatedSlot k.val s.seq.cursor, hlt.trans_le h8⟩
    obtain ⟨n, st', tone, -, -, -, hnote⟩ :=
      noteNew_ok Config.env slot (s := s.setRng st) (Nat.lt_succ_of_le hscale) (by simp; omega)
    have hd := rngU32_run Config.env hmut
    have hmutate := exec_seqMutate hs (seqMutate_run hk rfl hnote (hd _))
    exact ⟨k, _, _, _, _, slot, hk, rfl, hne, hlt, exec_noteNew (toNat_ofNat_slot slot) hs hnote, ⟨_, _, rfl⟩, hd _,
      hmutate⟩
  · exact exec_of_command_raise hs (bind_error (seqMutate_run_single _ h1))

/-! ### SEQ.NEXT -/

/-- Of two writes to one Clock the second stands. -/
theorem setClock_setClock (s : State) (k : Fin 4) (c d : Clock) : (s.setClock k c).setClock k d = s.setClock k d := by
  simp [State.setClock, Vector.set_set]

/-- SEQ.NEXT from the tick of the step Clock on. -/
def seqStepHalf : M (Option (Word × F32)) := do
  let fired ← clkTick 1
  if fired then do
    let ev ← seqStep
    pure (some ev)
  else pure none

/-- SEQ.NEXT: the mutation Clock's tick, the mutation if it is due, the step Clock's half. -/
theorem seqNext_run (E : Env) (s : State) : seqNext E s =
    (doWhen (s.clock 0).ticked.isReady (seqMutate E) >>= fun _ => seqStepHalf) (s.setClock 0 (s.clock 0).ticked) :=
  bind_ok (clkTick_run 0 s)

/-- On a legal length the step Clock's half ends normally, with the state and the response of R153. -/
theorem seqStepHalf_run {u : State} (h1 : 1 ≤ u.seq.length.toNat) (h8 : u.seq.length.toNat ≤ 8) :
    ∃ ev v, seqStepHalf u = .ok ev v ∧
      StepClockHalf u (v.answer ⟨.ok, (Answer.ofEvent ev).flag, (Answer.ofEvent ev).data⟩) := by
  have htick : seqStepHalf u = _ := bind_ok (clkTick_run 1 u)
  cases hfires : (u.clock 1).ticked.isReady with
  | false =>
    rw [hfires] at htick
    have hwait := mt (isReady_iff _).mpr (Bool.eq_false_iff.mp hfires)
    exact ⟨none, _, htick, .inl ⟨BitVec.not_le.mp hwait, rfl⟩⟩
  | true =>
    rw [hfires] at htick
    obtain ⟨i, hi, hstep⟩ := seqStep_run (u.setClock 1 (u.clock 1).ticked) h1 h8
    exact ⟨_, _, htick.trans (bind_ok hstep), .inr ⟨(isReady_iff _).mp hfires, i, hi,
      congrArg (State.answer · _) (setClock_setClock (u.setSeq _) 1 (u.clock 1).ticked _)⟩⟩

/-- SEQ.NEXT, once the mutation that may be due has ended normally. -/
theorem exec_seqNext {s u : State} (hs : s.testEn = true)
    (hmutate : doWhen (s.clock 0).ticked.isReady (seqMutate Config.env) (s.setClock 0 (s.clock 0).ticked) = .ok () u)
    (h1 : 1 ≤ u.seq.length.toNat) (h8 : u.seq.length.toNat ≤ 8) :
    ∃ t, StepClockHalf u t ∧ exec .seqNext s = .next t := by
  obtain ⟨ev, v, hrun, hhalf⟩ := seqStepHalf_run h1 h8
  have hnext := (seqNext_run Config.env s).trans ((bind_ok hmutate).trans hrun)
  exact ⟨_, hhalf, exec_of_command_ok (a := Answer.ofEvent ev) hs (bind_ok hnext)⟩

/-- SEQ.NEXT stops with the error of its mutation. -/
theorem exec_seqNext_raise {s u : State} {e : Status} (hs : s.testEn = true)
    (hfires : (s.clock 0).ticked.isReady = true)
    (hmutate : seqMutate Config.env (s.setClock 0 (s.clock 0).ticked) = .error (.raise e) u) :
    exec .seqNext s = .next (u.answer ⟨e, false, 0⟩) := by
  have hnext : seqNext Config.env s = .error (.raise e) u := by
    rw [seqNext_run, hfires, doWhen_true, bind_error hmutate]
  exact exec_of_command_raise hs (bind_error hnext)

/-- SEQ.MUTATE answers how its statements ended. -/
theorem exec_seqMutate_next {s t : State} (hs : s.testEn = true) (h : exec .seqMutate s = .next t) :
    (∃ u, seqMutate Config.env s = .ok () u ∧ t = u.answer ⟨.ok, false, 0⟩) ∨
    (∃ u, seqMutate Config.env s = .error (.raise .errSelect) u ∧ t = u.answer ⟨.errSelect, false, 0⟩) := by
  rw [exec_eq_respond hs] at h
  cases hrun : seqMutate Config.env s with
  | ok a u =>
    rw [show commandOf .seqMutate s = _ from bind_ok hrun] at h
    cases h
    exact .inl ⟨u, rfl, rfl⟩
  | error e u =>
    rw [show commandOf .seqMutate s = _ from bind_error hrun] at h
    cases e with
    | fault f => cases h
    | raise e =>
      cases h
      obtain rfl := raises_seqMutate _ _ _ _ hrun
      exact .inr ⟨u, rfl, rfl⟩

/-- Settles O40: what SEQ.MUTATE answers says how the mutation inside SEQ.NEXT ends, and it leaves the length. -/
theorem seqNextTicksBothClocks : Obligations.SeqNextTicksBothClocks := by
  refine ⟨decode_plainWord (op := 0x63) (by simp [opcodeTable]), fun s hs h1 h8 => ?_⟩
  refine ⟨fun hwait => ?_, fun u hfire hu => ?_⟩
  · have hready := Bool.eq_false_iff.mpr (mt (isReady_iff (s.clock 0).ticked).mp (BitVec.not_le.mpr hwait))
    exact exec_seqNext hs (by rw [hready]; rfl) h1 h8
  · have hready := (isReady_iff (s.clock 0).ticked).mpr hfire
    obtain ⟨-, -, hlength⟩ := scaleTempoLengthAreFixed .seqMutate _ _ nofun nofun nofun hu
    obtain ⟨v, hrun, rfl⟩ | ⟨v, hrun, rfl⟩ := exec_seqMutate_next (s := s.setClock 0 (s.clock 0).ticked) hs hu
    · exact ⟨fun _ => exec_seqNext (u := v) hs (by rw [hready]; exact hrun) (hlength.symm ▸ h1) (hlength.symm ▸ h8),
        nofun⟩
    · exact ⟨nofun, fun _ => exec_seqNext_raise hs hready hrun⟩

end Sys2Proof.Machine
end

section
/-! The Synth operations (spec/46_synth.md R165 to R168), composed of the operations they call. -/

namespace Sys2Proof.Machine

-- As in Sys2Proof/Tests/Slice0.lean: a thread for each small proof takes the joined text's memory.
set_option Elab.async false

variable {α : Type}

/-! ### A step on another port -/

/-- The states agree on what `State.bare` leaves out. -/
structure SamePort (s t : State) : Prop where
  testEn : t.testEn = s.testEn
  pending : t.pending = s.pending
  arg0 : t.arg0 = s.arg0
  arg1 : t.arg1 = s.arg1
  resp : t.resp = s.resp

theorem Frame.samePort {W : Reg → Bool} {d : Bool} {s t : State} (h : Frame W d s t) : SamePort s t :=
  ⟨h.testEn, h.pending, h.arg0, h.arg1, h.resp⟩

theorem eq_of_bare_of_samePort {s t u : State} (hbare : t.bare = u.bare) (ht : SamePort s t) (hu : SamePort s u) :
    t = u := by
  have htu : SamePort u t := ⟨ht.testEn.trans hu.testEn.symm, ht.pending.trans hu.pending.symm,
    ht.arg0.trans hu.arg0.symm, ht.arg1.trans hu.arg1.symm, ht.resp.trans hu.resp.symm⟩
  obtain ⟨htest, hpending, harg0, harg1, hresp⟩ := htu
  cases t
  cases u
  cases htest
  cases hpending
  cases harg0
  cases harg1
  cases hresp
  simpa [State.bare] using hbare

section
variable {m : M α} {W : Reg → Bool} {d : Bool} {a : α} {s t : State}

/-- A step that neither reads nor writes the port runs alike from a state with another port. -/
theorem PortFree.run_of_bare (hm : PortFree m) (hw : Writes W d m) (h : m s = .ok a t) {s' t' : State}
    (hs : s'.bare = s.bare) (ht : t'.bare = t.bare) (hport : SamePort s' t') : m s' = .ok a t' := by
  have halike := hm.congr hs
  rw [h, bareResult_ok] at halike
  cases hrun : m s' with
  | error e u => rw [hrun] at halike; cases halike
  | ok b u =>
    rw [hrun, bareResult_ok] at halike
    obtain ⟨rfl, hu⟩ := EStateM.Result.ok.inj halike
    rw [eq_of_bare_of_samePort (hu.trans ht.symm) ((hw s').1 b u hrun).samePort hport]

/-- The response of the command before has no part in a step. -/
theorem PortFree.run_answer (hm : PortFree m) (hw : Writes W d m) (h : m s = .ok a t) (r : Response) :
    m (s.answer r) = .ok a (t.answer r) :=
  have ⟨htest, hpending, harg0, harg1, _⟩ := ((hw s).1 a t h).samePort
  hm.run_of_bare hw h rfl rfl ⟨htest, hpending, harg0, harg1, rfl⟩

/-- An operand on the port has no part in a step that has its operands already. -/
theorem PortFree.run_withArg1 (hm : PortFree m) (hw : Writes W d m) (h : m s = .ok a t) (x : Word) :
    m { s with arg1 := x } = .ok a { t with arg1 := x } :=
  have ⟨htest, hpending, harg0, _, hresp⟩ := ((hw s).1 a t h).samePort
  hm.run_of_bare hw h rfl rfl ⟨htest, hpending, harg0, rfl, hresp⟩

end

/-! ### The constructions under a well-formed configuration -/

/-- Some entry of a well-formed pool can be drawn. -/
theorem CfgWellFormed.exists_weight {c : Cfg} (wf : CfgWellFormed c) :
    ∃ k : Fin c.nPool.val, (poolEntry c k).weight ≠ 0 := by
  obtain ⟨-, -, hcount⟩ := wf.counts
  obtain ⟨k, hk⟩ := wf.weight
  exact ⟨⟨k.val, hcount.symm ▸ k.isLt⟩, hk⟩

/-- The ratio of every entry of a well-formed pool can be drawn. -/
theorem CfgWellFormed.ratioRange {c : Cfg} (wf : CfgWellFormed c) (k : Fin c.nPool.val) :
    flt (poolEntry c k).ratioLo (poolEntry c k).ratioHi = true := by
  obtain ⟨-, -, hcount⟩ := wf.counts
  exact wf.ratios ⟨k.val, hcount ▸ k.isLt⟩

/-- OP.RANDOM ends normally with the generator and its Operator changed. -/
theorem opRandom_ok (s : State) (wf : CfgWellFormed s.cfg) (E : Env) (j : Fin 3) (sr : Word) :
    ∃ st o, opRandom E j sr s = .ok () ((s.setRng st).setOper j o) := by
  obtain ⟨k, st, -, hentry⟩ | ⟨hzero, -⟩ := rngWeighted_cases E (fun k => (poolEntry s.cfg k).weight) s
  · exact ⟨_, _, opRandom_run hentry (rngF32_run E (wf.ratioRange k) _) j sr⟩
  · obtain ⟨k, hk⟩ := wf.exists_weight
    exact absurd (hzero k) hk

/-- ADSR.NEW ends normally with the generator, the ADSR and the phase Clock changed. -/
theorem adsrNew_ok (s : State) (wf : CfgWellFormed s.cfg) (E : Env) :
    ∃ st a c, adsrNew E s = .ok () (((s.setRng st).setAdsr a).setClock 2 c) :=
  ⟨_, _, _, adsrNew_run (rngF32_run E wf.att _) (rngF32_run E wf.dec _) (rngF32_run E wf.sus _)
    (rngF32_run E wf.rel _)⟩

/-- FLT.NEW ends normally with the generator and the Filter changed. -/
theorem fltNew_ok (s : State) (wf : CfgWellFormed s.cfg) (E : Env) (sr : Word) :
    ∃ st f, fltNew E sr s = .ok () ((s.setRng st).setFlt f) := by
  have hcutoff := rngF32_run E wf.cutoff s
  have hq := rngF32_run E wf.q
  exact ⟨_, _, (readState_bind _ s).trans ((bind_ok hcutoff).trans (bind_ok (hq _)))⟩

/-! ### The operands -/

theorem toNat_ofNat_operator (j : Fin 3) : (BitVec.ofNat 8 j.val).toNat = j.val :=
  Nat.mod_eq_of_lt (by omega)

/-- `arg0[63:32]` -/
theorem argHigh_eq_ofNat (s : State) : s.argHigh = BitVec.ofNat 32 (s.arg0.toNat / 2 ^ 32) := by
  rw [State.argHigh, BitVec.extractLsb', Nat.shiftRight_eq_div_pow]

/-- A sample on the port is read back. -/
theorem argLow_withArg0 (s : State) (x : F32) : State.argLow { s with arg0 := x.setWidth 64 } = x := by
  rw [argLow_eq_setWidth]
  exact BitVec.setWidth_setWidth_of_le x (by decide)

/-! ### The operations called, as commands -/

section
variable {s t : State}

/-- OP.RANDOM as the command after another one. -/
theorem exec_opRandom_answer {j : Fin 3} {inst : Byte} (hj : inst.toNat = j.val) (hs : s.testEn = true)
    (h : opRandom Config.env j s.arg1 s = .ok () t) (r : Response) :
    exec (.opRandom inst) (s.answer r) = .next (t.answer ⟨.ok, false, 0⟩) :=
  exec_opRandom (s := s.answer r) (t := t.answer r) hj hs
    ((portFree_opRandom _ j s.arg1).run_answer (writes_opRandom _ j s.arg1) h r)

/-- ADSR.NEW as the command after another one. -/
theorem exec_adsrNew_answer (hs : s.testEn = true) (h : adsrNew Config.env s = .ok () t) (r : Response) :
    exec .adsrNew (s.answer r) = .next (t.answer ⟨.ok, false, 0⟩) :=
  exec_adsrNew (s := s.answer r) (t := t.answer r) hs ((portFree_adsrNew _).run_answer (writes_adsrNew _) h r)

theorem exec_fltNew (hs : s.testEn = true) (h : fltNew Config.env s.arg1 s = .ok () t) :
    exec .fltNew s = .next (t.answer ⟨.ok, false, 0⟩) :=
  exec_of_command_ok (a := Answer.none) hs ((readState_bind _ s).trans (bind_ok h))

/-- FLT.NEW as the command after another one. -/
theorem exec_fltNew_answer (hs : s.testEn = true) (h : fltNew Config.env s.arg1 s = .ok () t) (r : Response) :
    exec .fltNew (s.answer r) = .next (t.answer ⟨.ok, false, 0⟩) :=
  exec_fltNew (s := s.answer r) (t := t.answer r) hs
    ((portFree_fltNew _ s.arg1).run_answer (writes_fltNew _ s.arg1) h r)

theorem exec_fltGen (hs : s.testEn = true) :
    exec .fltGen s = .next ((s.setFlt (filterAfter Config.env.num s.syn.flt s.argLow)).answer
      ⟨.ok, false, (filterAfter Config.env.num s.syn.flt s.argLow).s[3].setWidth 64⟩) :=
  exec_of_command_ok (a := Answer.ofWord _) hs ((readState_bind _ s).trans (bind_ok (fltGen_run _ _ s)))

end

/-! ### SYN.NEW -/

section
variable {s : State}

/-- SYN.NEW after its four constructions and the draw of the deadline. -/
theorem synNew_run {E : Env} {sr d : Word} {s1 s2 s3 s4 s5 : State}
    (hfirst : opRandom E 1 sr ((s.setSynSr sr).setOper 0 (newOper sr fOne .sine)) = .ok () s1)
    (hsecond : opRandom E 2 sr s1 = .ok () s2) (hadsr : adsrNew E s2 = .ok () s3) (hflt : fltNew E sr s3 = .ok () s4)
    (hd : rngU32 E s.cfg.synMutLo s.cfg.synMutHi s4 = .ok d s5) :
    synNew E sr s = .ok () (s5.setClock 3 ⟨0, d⟩) := by
  rw [synNew, readState_bind, updateState_bind, bind_ok (opNew_run _ _ _ _ _), bind_ok hfirst, bind_ok hsecond,
    bind_ok hadsr, bind_ok hflt, bind_ok hd, clkDeadline_run]

theorem exec_synNew {t : State} (hs : s.testEn = true) (h : synNew Config.env s.arg1 s = .ok () t) :
    exec .synNew s = .next (t.answer ⟨.ok, false, 0⟩) :=
  exec_of_command_ok (a := Answer.none) hs ((readState_bind _ s).trans (bind_ok h))

end

/-- Settles O44: each construction ends normally because the configuration is well-formed, and the responses of
the operations that stand for the middle of the command have no part in what follows. -/
theorem synNewConstructsTheVoice : Obligations.SynNewConstructsTheVoice := by
  refine ⟨decode_plainWord (op := 0x70) (by simp [opcodeTable]), fun s hs wf => ?_⟩
  let s0 := (s.setSynSr s.arg1).setOper 0 (newOper s.arg1 fOne .sine)
  obtain ⟨r1, o1, hfirst⟩ := opRandom_ok s0 wf Config.env 1 s.arg1
  let s1 := (s0.setRng r1).setOper 1 o1
  obtain ⟨r2, o2, hsecond⟩ := opRandom_ok s1 wf Config.env 2 s.arg1
  let s2 := (s1.setRng r2).setOper 2 o2
  obtain ⟨r3, a, c, hadsr⟩ := adsrNew_ok s2 wf Config.env
  let s3 := ((s2.setRng r3).setAdsr a).setClock 2 c
  obtain ⟨r4, f, hflt⟩ := fltNew_ok s3 wf Config.env s.arg1
  have hd := rngU32_run Config.env wf.synMut
  obtain ⟨hlo, hhi⟩ := u32Answer_mem Config.env.rng r4 wf.synMut
  have hnew := exec_synNew hs (synNew_run hfirst hsecond hadsr hflt (hd _))
  exact ⟨_, _, _, _, _, _, exec_opRandom (s := s0) rfl hs hfirst, ⟨_, _, rfl⟩,
    exec_opRandom_answer (s := s1) rfl hs hsecond _, ⟨_, _, rfl⟩, exec_adsrNew_answer (s := s2) hs hadsr _,
    exec_fltNew_answer (s := s3) hs hflt _, hd _, hlo, hhi, hnew⟩

/-! ### SYN.MUTATE -/

section
variable {s : State}

/-- SYN.MUTATE after the draw of the modulator, its Operator and the draw of the deadline. -/
theorem synMutate_run {E : Env} {k : Fin 2} {u v w : State} {d : Word} (hk : rngIndex E 2 s = .ok k u)
    (hop : opRandom E (modulator k) s.syn.sr u = .ok () v) (hd : rngU32 E s.cfg.synMutLo s.cfg.synMutHi v = .ok d w) :
    synMutate E s = .ok () (w.setClock 3 ⟨0, d⟩) := by
  rw [synMutate, readState_bind, bind_ok hk, bind_ok hop, bind_ok hd, clkReset_run]

theorem exec_synMutate {t : State} (hs : s.testEn = true) (h : synMutate Config.env s = .ok () t) :
    exec .synMutate s = .next (t.answer ⟨.ok, false, 0⟩) :=
  exec_of_command_ok (a := Answer.none) hs (bind_ok h)

end

/-- Settles O47: the Operator's two draws succeed because the configuration is well-formed; the sample rate that the
OP.RANDOM in its place takes from the port is the one the command takes from the Synth. -/
theorem synMutateReplacesAModulator : Obligations.SynMutateReplacesAModulator := by
  refine ⟨decode_plainWord (op := 0x73) (by simp [opcodeTable]), fun s hs wf => ?_⟩
  have hk := rngIndex_run Config.env (by decide : 0 < 2) s
  generalize indexAnswer Config.env.rng s.rng 2 _ = k, (Config.env.rng.index s.rng 2).2 = st at hk
  obtain ⟨st', o, hop⟩ := opRandom_ok (s.setRng st) wf Config.env (modulator k) s.syn.sr
  have hcommand := (portFree_opRandom _ _ _).run_withArg1 (writes_opRandom _ _ _) hop s.syn.sr
  have hmodulator : (modulator k).val = 1 + k.val := Nat.add_comm _ _
  have hd := rngU32_run Config.env wf.synMut
  have hmutate := exec_synMutate hs (synMutate_run hk hop (hd _))
  exact ⟨k, _, _, _, _, modulator k, hk, hmodulator,
    exec_opRandom (s := { s.setRng st with arg1 := s.syn.sr }) (toNat_ofNat_operator _) hs hcommand, ⟨_, _, rfl⟩,
    hd _, hmutate⟩

/-! ### SYN.PLAY -/

/-- SYN.PLAY from the first frequency on. -/
def startNote (E : Env) (f : F32) (length : Word) : M Unit := do
  opSetf E 0 f
  opSetf E 1 f
  opSetf E 2 f
  adsrStart E length

/-- The state that the three frequencies and the start of the envelope leave. -/
def notePlayed (N : Numerics) (f : F32) (length : Word) (s : State) : State :=
  ((((s.setOper 0 { s.oper 0 with freq := fmul N f (s.oper 0).ratio }).setOper 1
    { s.oper 1 with freq := fmul N f (s.oper 1).ratio }).setOper 2
    { s.oper 2 with freq := fmul N f (s.oper 2).ratio }).setAdsr (playedAdsr N s.syn.adsr length)).setClock 2
    ⟨0, f2u (fmul N (u2f length) s.syn.adsr.attack)⟩

section
variable {s u : State}

/-- The frequency of an Operator is that of its own ratio, which the Operators before it do not touch. -/
theorem startNote_run (E : Env) (f : F32) (length : Word) (s : State) :
    startNote E f length s = .ok () (notePlayed E.num f length s) := by
  rw [startNote, bind_ok (opSetf_run _ _ _ _), bind_ok (opSetf_run _ _ _ _), bind_ok (opSetf_run _ _ _ _),
    adsrStart_run]
  simp [notePlayed]

/-- SYN.PLAY: the look at the mutation Clock, the mutation if it is due, the note. -/
theorem synPlay_run (E : Env) (f : F32) (length : Word) (s : State) : synPlay E f length s =
    (doWhen (s.clock 3).isReady (synMutate E) >>= fun _ => startNote E f length) s :=
  bind_ok (clkReady_run 3 s)

theorem commandOf_synPlay_run (s : State) : commandOf .synPlay s =
    (synPlay Config.env s.argLow s.argHigh >>= fun _ => pure Answer.none) s :=
  readState_bind _ s

/-- SYN.PLAY, once the mutation that may be due has ended normally. -/
theorem exec_synPlay (hs : s.testEn = true)
    (hmutate : doWhen (s.clock 3).isReady (synMutate Config.env) s = .ok () u) :
    exec .synPlay s = .next ((notePlayed Config.env.num s.argLow s.argHigh u).answer ⟨.ok, false, 0⟩) := by
  have hplay := (synPlay_run Config.env s.argLow s.argHigh s).trans ((bind_ok hmutate).trans (startNote_run _ _ _ u))
  exact exec_of_command_ok (a := Answer.none) hs ((commandOf_synPlay_run s).trans (bind_ok hplay))

/-- SYN.PLAY stops with the error of its mutation. -/
theorem exec_synPlay_raise {e : Status} (hs : s.testEn = true) (hready : (s.clock 3).isReady = true)
    (hmutate : synMutate Config.env s = .error (.raise e) u) :
    exec .synPlay s = .next (u.answer ⟨e, false, 0⟩) := by
  have hplay : synPlay Config.env s.argLow s.argHigh s = .error (.raise e) u := by
    rw [synPlay_run, hready, doWhen_true, bind_error hmutate]
  exact exec_of_command_raise hs ((commandOf_synPlay_run s).trans (bind_error hplay))

/-- An operation that only performs a step which raises SelectFail or nothing answers how the step ended. -/
theorem exec_next_of_raisesSelect {i : Instr} {m : M Unit} {t : State}
    (hi : commandOf i = m >>= fun _ => pure Answer.none) (hm : RaisesSelect m) (hs : s.testEn = true)
    (h : exec i s = .next t) :
    (∃ v, m s = .ok () v ∧ t = v.answer ⟨.ok, false, 0⟩) ∨
    (∃ v, m s = .error (.raise .errSelect) v ∧ t = v.answer ⟨.errSelect, false, 0⟩) := by
  rw [exec_eq_respond hs, hi] at h
  cases hrun : m s with
  | ok _ v =>
    rw [bind_ok hrun] at h
    cases h
    exact .inl ⟨v, rfl, rfl⟩
  | error e v =>
    rw [bind_error hrun] at h
    cases e with
    | fault f => cases h
    | raise e =>
      cases h
      obtain rfl := hm s e v hrun
      exact .inr ⟨v, rfl, rfl⟩

end

/-- Settles O45: what SYN.MUTATE answers says how the mutation inside SYN.PLAY ends, and its response has no part in
the note. -/
theorem synPlayStartsANote : Obligations.SynPlayStartsANote := by
  refine ⟨decode_plainWord (op := 0x71) (by simp [opcodeTable]), fun s hs => ?_⟩
  simp only [← argLow_eq_setWidth, ← argHigh_eq_ofNat]
  refine ⟨fun hwait => ?_, fun u hdue hu => ?_⟩
  · have hready := Bool.eq_false_iff.mpr (mt (isReady_iff (s.clock 3)).mp (BitVec.not_le.mpr hwait))
    exact exec_synPlay hs (by rw [hready]; rfl)
  · have hready := (isReady_iff (s.clock 3)).mpr hdue
    obtain ⟨v, hrun, rfl⟩ | ⟨v, hrun, rfl⟩ := exec_next_of_raisesSelect rfl (raises_synMutate _) hs hu
    · exact ⟨fun _ => exec_synPlay (u := v) hs (by rw [hready]; exact hrun), nofun⟩
    · exact ⟨nofun, fun _ => exec_synPlay_raise hs hready hrun⟩

/-! ### SYN.NEXT -/

/-- A waveform without a zero divisor yields one sample, whatever the state. -/
theorem signal_ok (E : Env) {w : WaveKind} {sr : Word} {f : F32} (h : w = .square → sr ≠ 0 ∧ f2u f ≠ 0) (i : Word) :
    ∃ y, ∀ s, signal E w sr f i s = .ok y s := by
  cases w with
  | sine | saw => exact ⟨_, fun _ => rfl⟩
  | square =>
    obtain ⟨hsr, hf⟩ := h rfl
    exact ⟨_, signal_square_run hsr hf E i⟩

/-- An Operator that runs yields one sample, whatever the state around it. -/
theorem opNext_ok {s : State} {j : Fin 3} (E : Env) (h : OperatorRuns s j) : ∃ y, ∀ t : State, t.oper j = s.oper j →
    opNext E j t = .ok y (t.setOper j { s.oper j with phase := (s.oper j).phase + 1 }) := by
  obtain ⟨hwave, hdivisor⟩ := h
  obtain ⟨w, -, hcode⟩ := exists_waveOf_of_ne_three hwave
  obtain ⟨y, hy⟩ := signal_ok E (fun hw : w = .square => hdivisor (by rw [← hcode, hw]; rfl)) ((s.oper j).phase + 1)
  refine ⟨y, fun t ht => ?_⟩
  rw [opNext_run_of_wave E (ht ▸ hcode.symm), ht, hy, State.phaseAdvanced, ht]

/-- An envelope in a state in use goes on to one. -/
theorem adsrAfter_ok {N : Numerics} {a : Adsr} (h : a.state.toNat ≤ 4) (c : Clock) :
    ∃ b d, adsrAfter N a c = some (b, d) := by
  obtain ⟨x, hx⟩ := adsrStateOf_some h
  by_cases hfire : c.ticked.deadline ≤ c.ticked.tick
  · have hmoved : ∃ b d, adsrMoved N a c.ticked = some (b, d) := by
      rw [adsrMoved, hx]
      cases x <;> exact ⟨_, _, rfl⟩
    obtain ⟨b, d, hbd⟩ := hmoved
    exact ⟨_, _, adsrAfter_of_moved hfire hbd⟩
  · exact ⟨_, _, adsrAfter_of_not_fires (BitVec.not_le.mp hfire)⟩

section
variable {s : State}

/-- ADSR.NEXT of an envelope that goes on. -/
theorem adsrNext_run_of_after {E : Env} {b : Adsr} {d : Clock}
    (h : adsrAfter E.num s.syn.adsr (s.clock 2) = some (b, d)) :
    adsrNext E s = .ok b.value ((s.setAdsr b).setClock 2 d) := by
  rw [adsrNext_run, h]
  rfl

/-- The state that the tick, the three samples and the step of the envelope leave. -/
def voiceStepped (s : State) (b : Adsr) (d : Clock) : State :=
  (((((s.setClock 3 (s.clock 3).ticked).setOper 0 { s.oper 0 with phase := (s.oper 0).phase + 1 }).setOper 1
    { s.oper 1 with phase := (s.oper 1).phase + 1 }).setOper 2
    { s.oper 2 with phase := (s.oper 2).phase + 1 }).setAdsr b).setClock 2 d

/-- SYN.NEXT up to the Filter: no part of it writes what a later one reads. -/
theorem synNext_run {E : Env} {o : Fin 3 → F32} {b : Adsr} {d : Clock}
    (ho : ∀ (j : Fin 3) (t : State), t.oper j = s.oper j →
      opNext E j t = .ok (o j) (t.setOper j { s.oper j with phase := (s.oper j).phase + 1 }))
    (h : adsrAfter E.num s.syn.adsr (s.clock 2) = some (b, d)) :
    synNext E s = fltGen E (voiceInput E.num (o 0) (o 1) (o 2) b.value) (voiceStepped s b d) := by
  refine (bind_ok (clkTick_run 3 s)).trans ?_
  rw [bind_ok (ho 0 _ (setClock_oper s 3 _ 0)), bind_ok (ho 1 _ (by simp)), bind_ok (ho 2 _ (by simp)),
    bind_ok (adsrNext_run_of_after (by simpa using h)), voiceStepped]

/-- SYN.NEXT that comes to a sample of the Filter answers as FLT.GEN with the sample's input on the port. -/
theorem exec_synNext {v y : State} {x : F32} (hs : s.testEn = true) (hv : v.testEn = true) (harg : v.arg0 = s.arg0)
    (h : synNext Config.env s = fltGen Config.env x v) (hy : exec .fltGen { v with arg0 := x.setWidth 64 } = .next y) :
    exec .synNext s = .next { y with arg0 := s.arg0 } := by
  rw [exec_fltGen (s := { v with arg0 := x.setWidth 64 }) hv, argLow_withArg0] at hy
  cases hy
  rw [← harg]
  exact exec_of_command_ok (i := .synNext) (a := Answer.ofWord _) hs (bind_ok (h.trans (fltGen_run _ x v)))

end

/-- Settles O46: the sample of an Operator is that of the Operator alone and the value of the envelope that of the
ADSR and its Clock, so they are the same before and inside the command. -/
theorem synNextComposesOneSample : Obligations.SynNextComposesOneSample := by
  refine ⟨decode_plainWord (op := 0x72) (by simp [opcodeTable]), fun s hs hrun hadsr => ?_⟩
  choose o ho using fun j => opNext_ok Config.env (hrun j)
  obtain ⟨b, d, hbd⟩ := adsrAfter_ok (N := Config.env.num) hadsr (s.clock 2)
  have hsample (j : Fin 3) : #v[o 0, o 1, o 2][j] = o j := by
    fin_cases j <;> rfl
  have hfilter := exec_fltGen (s := { voiceStepped s b d with
    arg0 := (voiceInput Config.env.num (o 0) (o 1) (o 2) b.value).setWidth 64 }) hs
  have hnext := exec_synNext (v := voiceStepped s b d) hs hs rfl (synNext_run ho hbd) hfilter
  refine ⟨o 0, o 1, o 2, _, fun j => ?_, exec_adsrNext hs hbd, ?_⟩
  · rw [hsample]
    exact exec_opNext (toNat_ofNat_operator j) hs (ho j s rfl)
  · rw [answer_clock, setClock_clock_self]
    exact ⟨_, hfilter, hnext⟩

end Sys2Proof.Machine
end

section
/-! The Engine operations (spec/47_engine.md R175, R176), composed of the operations they call. -/

namespace Sys2Proof.Machine

-- As in Sys2Proof/Tests/Slice0.lean: a thread for each small proof takes the joined text's memory.
set_option Elab.async false

variable {α β : Type}

/-! ### The flag eng.ready -/

/-- What does not write ENG_STATUS leaves `eng.ready`, because the strap, its other bit, is fixed. -/
theorem Frame.ready_eq {W : Reg → Bool} {d : Bool} {s t : State} (h : Frame W d s t) (hW : W .engStatus = false) :
    t.ready = s.ready := by
  have hstatus : engStatus t.ready t.testEn = engStatus s.ready s.testEn := h.regs .engStatus hW
  rw [h.testEn] at hstatus
  have hbit : ∀ a b e : Bool, engStatus a e = engStatus b e → a = b := by decide
  exact hbit _ _ _ hstatus

/-! ### A step on the port of another state -/

/-- The state with what `State.bare` leaves out taken from `p`. -/
def State.onPort (s p : State) : State :=
  { s with testEn := p.testEn, pending := p.pending, arg0 := p.arg0, arg1 := p.arg1, resp := p.resp }

theorem SamePort.onPort_self {s t : State} (h : SamePort s t) : t.onPort s = t :=
  eq_of_bare_of_samePort (s := s) rfl ⟨rfl, rfl, rfl, rfl, rfl⟩ h

section
variable {m : M α} {W : Reg → Bool} {d : Bool} {s t : State}

theorem PortFree.ok_onPort {a : α} (hm : PortFree m) (hw : Writes W d m) (h : m s = .ok a t) (p : State) :
    m (s.onPort p) = .ok a (t.onPort p) :=
  hm.run_of_bare hw h rfl rfl ⟨rfl, rfl, rfl, rfl, rfl⟩

/-- However a step stops, it stops alike on another port, in a state that is the same but for the port. -/
theorem PortFree.error_onPort {e : Stop} (hm : PortFree m) (h : m s = .error e t) (p : State) :
    ∃ u, m (s.onPort p) = .error e u ∧ u.bare = t.bare := by
  have halike := hm.congr (s := s.onPort p) (t := s) rfl
  rw [h, bareResult_error] at halike
  cases hrun : m (s.onPort p) with
  | ok a u => rw [hrun] at halike; cases halike
  | error e' u =>
    rw [hrun, bareResult_error] at halike
    obtain ⟨rfl, hbare⟩ := EStateM.Result.error.inj halike
    exact ⟨u, rfl, hbare⟩

theorem PortFree.raise_onPort {e : Status} (hm : PortFree m) (hw : Writes W d m) (h : m s = .error (.raise e) t)
    (p : State) : m (s.onPort p) = .error (.raise e) (t.onPort p) := by
  obtain ⟨u, hrun, hbare⟩ := hm.error_onPort h p
  have hport : SamePort (s.onPort p) u := ((hw _).2 e u hrun).samePort
  rw [hrun, eq_of_bare_of_samePort (u := t.onPort p) hbare hport ⟨rfl, rfl, rfl, rfl, rfl⟩]

end

/-- The response of the command before has no part in how a command ends. -/
theorem PortFree.respond_answer {m : M Answer} {W : Reg → Bool} {d : Bool} (hm : PortFree m) (hw : Writes W d m)
    (s : State) (r : Response) : respond (m (s.answer r)) = respond (m s) := by
  cases hrun : m s with
  | ok a t => rw [hm.run_answer hw hrun r]; rfl
  | error stop t =>
    cases stop with
    | raise e =>
      have hport : t.onPort s = t := ((hw s).2 e t hrun).samePort.onPort_self
      have hraise : m (s.answer r) = .error (.raise e) ((t.onPort s).answer r) :=
        hm.raise_onPort hw hrun (s.answer r)
      rw [hraise, hport]
      rfl
    | fault f =>
      obtain ⟨u, hfault, -⟩ : ∃ u, m (s.answer r) = .error (.fault f) u ∧ _ := hm.error_onPort hrun (s.answer r)
      rw [hfault]
      rfl

/-! ### How the step of a command ended -/

/-- A sequence stops where one of its parts does. -/
theorem bind_error_iff {x : M α} {f : α → M β} {s t : State} {e : Stop} :
    (x >>= f) s = .error e t ↔ x s = .error e t ∨ ∃ a u, x s = .ok a u ∧ f a u = .error e t := by
  rw [bind_run]
  cases x s with
  | ok a u => simp
  | error e u => simp

/-- A command around a step that raises SelectFail or nothing answers how the step ended. -/
theorem respond_next_of_raisesSelect {m : M α} {f : α → Answer} {s t : State} (hm : RaisesSelect m)
    (h : respond ((m >>= fun a => pure (f a)) s) = .next t) :
    (∃ a u, m s = .ok a u ∧ t = u.answer ⟨.ok, (f a).flag, (f a).data⟩) ∨
    (∃ u, m s = .error (.raise .errSelect) u ∧ t = u.answer ⟨.errSelect, false, 0⟩) := by
  obtain ⟨_, _, hrun, rfl⟩ | ⟨e, u, hrun, rfl⟩ := respond_next_iff.mp h
  · obtain ⟨a, u, hok, hpure⟩ := bind_ok_iff.mp hrun
    cases hpure
    exact .inl ⟨a, _, hok, rfl⟩
  · obtain hfail | ⟨_, _, -, hpure⟩ := bind_error_iff.mp hrun
    · obtain rfl := hm s e u hfail
      exact .inr ⟨u, hfail, rfl⟩
    · cases hpure

/-- A command around such a step that answers OK is a normal end of the step. -/
theorem ok_of_respond_answeredOk {m : M α} {f : α → Answer} {s t : State} (hm : RaisesSelect m)
    (h : respond ((m >>= fun a => pure (f a)) s) = .next t) (hok : AnsweredOk t) : ∃ a u, m s = .ok a u := by
  obtain ⟨a, u, hrun, -⟩ | ⟨u, -, rfl⟩ := respond_next_of_raisesSelect hm h
  · exact ⟨a, u, hrun⟩
  · obtain ⟨_, _, hresp⟩ := hok
    cases hresp

/-! ### The operations called, as commands -/

section
variable {s t : State}

theorem commandOf_seqNew_run (s : State) : commandOf .seqNew s =
    (seqNew Config.env s.arg1 >>= fun _ => pure Answer.none) s :=
  readState_bind _ s

theorem commandOf_synNew_run (s : State) : commandOf .synNew s =
    (synNew Config.env s.arg1 >>= fun _ => pure Answer.none) s :=
  readState_bind _ s

/-- SEQ.NEW ends normally under a well-formed configuration, from every state. -/
theorem seqNew_ok (hs : s.testEn = true) (wf : CfgWellFormed s.cfg) : ∃ t, seqNew Config.env s.arg1 s = .ok () t := by
  obtain ⟨hscales, hmetres, -⟩ := wf.counts
  obtain ⟨-, hnew⟩ := seqNewConstructsTheSequence
  obtain ⟨_, _, _, _, _, _, _, _, _, -, -, -, -, -, -, -, -, hexec⟩ :=
    hnew s hs wf.tempo (hscales ▸ by decide) (hmetres ▸ by decide) wf.seqMut
  rw [exec_eq_respond hs, commandOf_seqNew_run] at hexec
  obtain ⟨_, t, hrun⟩ := ok_of_respond_answeredOk (raises_seqNew _ _) hexec ⟨_, _, rfl⟩
  exact ⟨t, hrun⟩

/-- SYN.NEW ends normally under a well-formed configuration, from every state. -/
theorem synNew_ok (hs : s.testEn = true) (wf : CfgWellFormed s.cfg) : ∃ t, synNew Config.env s.arg1 s = .ok () t := by
  obtain ⟨-, hnew⟩ := synNewConstructsTheVoice
  obtain ⟨_, _, _, _, _, _, -, -, -, -, -, -, -, -, -, hexec⟩ := hnew s hs wf
  rw [exec_eq_respond hs, commandOf_synNew_run] at hexec
  obtain ⟨_, t, hrun⟩ := ok_of_respond_answeredOk (raises_synNew _ _) hexec ⟨_, _, rfl⟩
  exact ⟨t, hrun⟩

theorem exec_rngSeed (hs : s.testEn = true) :
    exec .rngSeed s = .next ((s.setRng (Config.env.rng.seed s.arg0)).answer ⟨.ok, false, 0⟩) :=
  exec_of_command_ok (a := Answer.none) hs rfl

/-- SEQ.NEW as the command after another one. -/
theorem exec_seqNew_answer (hs : s.testEn = true) (h : seqNew Config.env s.arg1 s = .ok () t) (r : Response) :
    exec .seqNew (s.answer r) = .next (t.answer ⟨.ok, false, 0⟩) :=
  exec_seqNew (s := s.answer r) (t := t.answer r) hs
    ((portFree_seqNew _ s.arg1).run_answer (writes_seqNew _ s.arg1) h r)

/-- SYN.NEW as the command after another one. -/
theorem exec_synNew_answer (hs : s.testEn = true) (h : synNew Config.env s.arg1 s = .ok () t) (r : Response) :
    exec .synNew (s.answer r) = .next (t.answer ⟨.ok, false, 0⟩) :=
  exec_synNew (s := s.answer r) (t := t.answer r) hs
    ((portFree_synNew _ s.arg1).run_answer (writes_synNew _ s.arg1) h r)

end

/-! ### ENG.NEW -/

/-- ENG.NEW from its two constructions. -/
theorem engNew_run {E : Env} {seed : DWord} {sr : Word} {s u v : State}
    (hseq : seqNew E sr ((s.setReady false).setRng (E.rng.seed seed)) = .ok () u) (hsyn : synNew E sr u = .ok () v) :
    engNew E seed sr s = .ok () (v.setReady true) := by
  rw [engNew, updateState_bind, rngSeed, updateState_bind, bind_ok hseq, bind_ok hsyn, updateState_run]

/-- A construction that fails leaves the flag as ENG.NEW cleared it. -/
theorem engNew_raise_ready {E : Env} {seed : DWord} {sr : Word} {s t : State} {e : Status}
    (h : engNew E seed sr s = .error (.raise e) t) : t.ready = false := by
  have hseq := writes_seqNew E sr ((s.setReady false).setRng (E.rng.seed seed))
  rw [engNew, updateState_bind, rngSeed, updateState_bind] at h
  obtain hfail | ⟨_, u, hu, h⟩ := bind_error_iff.mp h
  · exact (hseq.2 e t hfail).ready_eq rfl
  · have hready : u.ready = false := (hseq.1 _ u hu).ready_eq rfl
    obtain hfail | ⟨_, v, -, h⟩ := bind_error_iff.mp h
    · exact (((writes_synNew E sr u).2 e t hfail).ready_eq rfl).trans hready
    · cases h

theorem exec_engNew_eq (s : State) :
    exec .engNew s = respond ((engNew Config.env s.arg0 s.arg1 >>= fun _ => pure Answer.none) s) := rfl

theorem exec_engNew {s t : State} (h : engNew Config.env s.arg0 s.arg1 s = .ok () t) :
    exec .engNew s = .next (t.answer ⟨.ok, false, 0⟩) := by
  rw [exec_engNew_eq, bind_ok h]
  rfl

/-- An ENG.NEW that does not end normally stops with SelectFail before `eng.ready` is set. -/
theorem exec_engNew_not_ok {s t : State} (h : exec .engNew s = .next t) (hok : ¬ AnsweredOk t) :
    AnsweredSelectFail t ∧ t.ready = false := by
  rw [exec_engNew_eq] at h
  obtain ⟨_, u, -, rfl⟩ | ⟨u, hfail, rfl⟩ := respond_next_of_raisesSelect (raises_engNew _ _ _) h
  · exact absurd ⟨_, _, rfl⟩ hok
  · exact ⟨rfl, engNew_raise_ready (t := u) hfail⟩

/-- Settles O48: both constructions end normally because the configuration is well-formed, and neither reads the
response of the one before or writes `eng.ready`. -/
theorem engNewRunsItsSteps : Obligations.EngNewRunsItsSteps := by
  refine ⟨decode_plainWord (op := 0x01) (by simp [opcodeTable]), fun _ _ => exec_engNew_not_ok, fun s hs wf => ?_⟩
  let s1 := (s.setReady false).setRng (Config.env.rng.seed s.arg0)
  obtain ⟨s2, hseq⟩ : ∃ t, seqNew Config.env s.arg1 s1 = .ok () t := seqNew_ok (s := s1) hs wf
  have hframe := (writes_seqNew Config.env s.arg1 s1).1 _ s2 hseq
  have hs2 : s2.testEn = true := hframe.testEn.trans hs
  have harg : s2.arg1 = s.arg1 := hframe.arg1
  have wf2 : CfgWellFormed s2.cfg := hframe.cfg ▸ wf
  obtain ⟨s3, hsyn⟩ := synNew_ok hs2 wf2
  have hnew := exec_engNew (engNew_run hseq (harg ▸ hsyn))
  have hready2 : s2.ready = false := hframe.ready_eq rfl
  have hready3 : s3.ready = false := (((writes_synNew _ _ s2).1 _ s3 hsyn).ready_eq rfl).trans hready2
  exact ⟨_, _, _, exec_rngSeed (s := s.setReady false) hs, exec_seqNew_answer (s := s1) hs hseq _, ⟨_, _, rfl⟩,
    exec_synNew_answer hs2 hsyn _, ⟨_, _, rfl⟩, hready3, hnew⟩

/-! ### ENG.NEXT -/

section
variable {s u v : State}

/-- ENG.NEXT without an engine stops at the state check. -/
theorem engNext_run_not_ready (E : Env) (h : s.ready = false) : engNext E s = .error (.raise .errState) s := by
  rw [engNext, readState_bind, h]
  rfl

/-- ENG.NEXT with an engine: the Sequence, the note if one starts, the sample. -/
theorem engNext_run (E : Env) (h : s.ready = true) :
    engNext E s = (seqNext E >>= fun ev => playEvent E ev >>= fun _ => synNext E) s := by
  rw [engNext, readState_bind, h]
  rfl

theorem exec_engNext_eq (s : State) :
    exec .engNext s = respond ((engNext Config.env >>= fun y => pure (Answer.ofWord y)) s) := rfl

theorem exec_engNext_raise {e : Status} (h : engNext Config.env s = .error (.raise e) u) :
    exec .engNext s = .next (u.answer ⟨e, false, 0⟩) := by
  rw [exec_engNext_eq, bind_error h]
  rfl

/-- SYN.NEXT as the command after another one. -/
theorem exec_synNext_answer (hs : s.testEn = true) (r : Response) :
    exec .synNext (s.answer r) = exec .synNext s := by
  have hfree : PortFree (commandOf .synNext) := PortFree.bind (portFree_synNext _) fun _ => PortFree.pure _
  have hwrites : Writes (mayWrite .synNext) (mayDraw .synNext) (commandOf .synNext) := writes_commandOf _ nofun
  rw [exec_eq_respond hs, exec_eq_respond (s := s.answer r) hs, hfree.respond_answer hwrites]

/-- ENG.NEXT that comes to the sample of the Synth answers as SYN.NEXT after the command before it. -/
theorem exec_engNext_of_synNext (hu : u.testEn = true) (h : engNext Config.env s = synNext Config.env u)
    (r : Response) : exec .engNext s = exec .synNext (u.answer r) := by
  have hcommand : commandOf .synNext u = (synNext Config.env >>= fun y => pure (Answer.ofWord y)) u := rfl
  rw [exec_synNext_answer hu, exec_eq_respond hu, hcommand, exec_engNext_eq, bind_run, bind_run, h]

/-- SEQ.NEXT answers how its statements ended. -/
theorem exec_seqNext_next (hs : s.testEn = true) (h : exec .seqNext s = .next u) :
    (∃ ev w, seqNext Config.env s = .ok ev w ∧
      u = w.answer ⟨.ok, (Answer.ofEvent ev).flag, (Answer.ofEvent ev).data⟩) ∨
    (∃ w, seqNext Config.env s = .error (.raise .errSelect) w ∧ u = w.answer ⟨.errSelect, false, 0⟩) := by
  rw [exec_eq_respond hs] at h
  exact respond_next_of_raisesSelect (raises_seqNext _) h

/-- The event on the port is read back: the frequency is its low half and the duration its high half. -/
theorem argLow_append (ds : Word) (f : F32) : State.argLow { s with arg0 := ds ++ f } = f :=
  BitVec.extractLsb'_append_eq_right

theorem argHigh_append (ds : Word) (f : F32) : State.argHigh { s with arg0 := ds ++ f } = ds :=
  BitVec.extractLsb'_append_eq_left

/-- The argument put back after a command that ran with another one. -/
theorem answer_withArg0 {x : DWord} {r : Response} (h : SamePort { u.answer r with arg0 := x } v) (r' : Response) :
    { v.answer r' with arg0 := u.arg0 } = (v.onPort u).answer r' := by
  obtain ⟨htest, hpending, -, harg1, -⟩ := h
  exact eq_of_bare_of_samePort (t := { v.answer r' with arg0 := u.arg0 }) (u := (v.onPort u).answer r') rfl
    (s := u.answer r') ⟨htest, hpending, rfl, harg1, rfl⟩ ⟨rfl, rfl, rfl, rfl, rfl⟩

/-- What ENG.NEXT does once SEQ.NEXT has yielded an event, told by the SYN.PLAY of that event. -/
theorem exec_engNext_of_event {ds : Word} {f : F32} (hs : s.testEn = true) (hready : s.ready = true)
    (hnext : seqNext Config.env s = .ok (some (ds, f)) u) (r : Response)
    (hplay : exec .synPlay { u.answer r with arg0 := ds ++ f } = .next v) :
    (AnsweredOk v → exec .engNext s = exec .synNext { v with arg0 := s.arg0 }) ∧
    (AnsweredSelectFail v → exec .engNext s = .next { v with arg0 := s.arg0 }) := by
  have hframe := (writes_seqNext Config.env s).1 _ u hnext
  have hu : u.testEn = true := hframe.testEn.trans hs
  have hrun := (engNext_run Config.env hready).trans (bind_ok hnext)
  have hfree := portFree_synPlay Config.env f ds
  have hwrites := writes_synPlay Config.env f ds
  have hport := hwrites { u.answer r with arg0 := ds ++ f }
  rw [← hframe.arg0]
  have htest : State.testEn { u.answer r with arg0 := ds ++ f } = true := hu
  rw [exec_eq_respond htest, commandOf_synPlay_run, argLow_append, argHigh_append] at hplay
  obtain ⟨_, w, hw, rfl⟩ | ⟨w, hw, rfl⟩ := respond_next_of_raisesSelect (raises_synPlay _ _ _) hplay
  · have hsame : synPlay Config.env f ds u = .ok () (w.onPort u) := hfree.ok_onPort hwrites hw u
    have hrest : engNext Config.env s = synNext Config.env (w.onPort u) := hrun.trans (bind_ok hsame)
    refine ⟨fun _ => ?_, nofun⟩
    rw [answer_withArg0 (hport.1 _ w hw).samePort]
    exact exec_engNext_of_synNext (u := w.onPort u) hu hrest _
  · have hsame : synPlay Config.env f ds u = .error (.raise .errSelect) (w.onPort u) :=
      hfree.raise_onPort hwrites hw u
    have hrest : engNext Config.env s = .error (.raise .errSelect) (w.onPort u) := hrun.trans (bind_error hsame)
    refine ⟨nofun, fun _ => ?_⟩
    rw [answer_withArg0 (hport.2 _ w hw).samePort]
    exact exec_engNext_raise hrest

end

/-- Settles O49: what SEQ.NEXT and SYN.PLAY answer says how the steps inside ENG.NEXT end, and neither their
responses nor the event on the port have a part in what follows. -/
theorem engNextRunsItsSteps : Obligations.EngNextRunsItsSteps := by
  refine ⟨decode_plainWord (op := 0x02) (by simp [opcodeTable]),
    fun s h => exec_engNext_raise (engNext_run_not_ready _ h), fun s u hs hready hseq => ?_⟩
  have hrun := engNext_run Config.env hready
  obtain ⟨ev, w, hnext, rfl⟩ | ⟨w, hnext, rfl⟩ := exec_seqNext_next hs hseq
  · have hw : w.testEn = true := ((writes_seqNext Config.env s).1 _ w hnext).testEn.trans hs
    cases ev with
    | none => exact ⟨fun _ => exec_engNext_of_synNext hw (hrun.trans (bind_ok hnext)) _, nofun, nofun⟩
    | some ev =>
      refine ⟨nofun, fun data v hresp hplay => ?_, nofun⟩
      cases hresp
      exact exec_engNext_of_event hs hready hnext _ hplay
  · exact ⟨nofun, nofun, fun _ => exec_engNext_raise (hrun.trans (bind_error hnext))⟩

end Sys2Proof.Machine
end

section
/-! The state-register space (spec/10_state.md R45 to R48) and the system operations RNG.SEED, RDREG and WRREG
(spec/48_system.md R185 to R187). -/

namespace Sys2Proof.Machine

-- As in Sys2Proof/Tests/Slice0.lean: a thread for each small proof takes the joined text's memory.
set_option Elab.async false

/-! ### The map -/

theorem mem_allRegs (r : Reg) : r ∈ allRegs := by
  cases r <;> simp [allRegs]

theorem regAt_addr_of_mem : ∀ r ∈ allRegs, regAt r.addr = some r := by decide

@[simp] theorem regAt_addr (r : Reg) : regAt r.addr = some r := regAt_addr_of_mem r (mem_allRegs r)

theorem regAt_eq_none {a : Addr} (h : ∀ r : Reg, r.addr ≠ a) : regAt a = none :=
  List.find?_eq_none.mpr fun r _ => by simpa using h r

/-! ### The words -/

/-- A word of a format A row decodes to the row's operation on the address. -/
theorem decode_formatAWord {op : Nat} {mk : Addr → Instr} (h : ⟨op, .a, fun _ a => mk a⟩ ∈ opcodeTable)
    (a : Addr) : decode (BitVec.ofNat 8 op ++ (0 : Byte) ++ a) = .ok (mk a) := by
  have hop := opcode_lt_of_mem _ h
  have hfield : (opcodeField (BitVec.ofNat 8 op ++ (0 : Byte) ++ a)).toNat = op := by
    rw [opcodeField_fields, BitVec.toNat_ofNat, Nat.mod_eq_of_lt hop]
  rw [decode_of_mem h hfield]
  exact formatA_ok_iff.mpr ⟨instField_fields _ _ _, congrArg mk (addrField_fields _ _ _).symm⟩

/-! ### What a register reads -/

/-- ENG_STATUS is the strap in bit 1 and `eng.ready` in bit 0. -/
theorem engStatus_eq (ready testEn : Bool) :
    engStatus ready testEn = (testEn.toNat : Word) * 2 + ready.toNat := by
  cases ready <;> cases testEn <;> rfl

/-- At TEST level ENG_STATUS after a write is bit 0 of the value and the strap. -/
theorem engStatus_written (v : Word) : engStatus (v.getLsbD 0) true = (v &&& 1) ||| 2 := by
  have hbit : v &&& 1 = (BitVec.ofBool (v.getLsbD 0)).setWidth 32 := BitVec.and_one_eq_setWidth_ofBool_getLsbD
  rw [hbit]
  cases v.getLsbD 0 <;> rfl

/-! ### What WRREG writes -/

/-- A value that fits a narrow register reads back whole. -/
theorem setWidth_setWidth_of_lt {n : Nat} {v : Word} (h : v.toNat < 2 ^ n) : (v.setWidth n).setWidth 32 = v := by
  apply BitVec.eq_of_toNat_eq
  rw [BitVec.toNat_setWidth, BitVec.toNat_setWidth, Nat.mod_eq_of_lt h, Nat.mod_eq_of_lt v.isLt]

section
variable {r q : Reg} {v : Word} {s : State}

/-- A register but ENG_STATUS reads back the legal value written: the legal values of a narrow one fit it. -/
theorem read_write_self (hr : r ≠ .engStatus) (hv : r.legal v = true) : r.read (r.write v s) = v := by
  cases r with
  | engStatus => exact absurd rfl hr
  | clkTick k | clkDeadline k | noteFreq k | opSr k | opFreq k | opRatio k | opPhase k | fltS k | fltPs k =>
    simp [Reg.read, Reg.write]
  | seqScale | seqLength | seqCursor | adsrState =>
    simp only [Reg.legal, Bool.and_eq_true, decide_eq_true_eq] at hv
    exact setWidth_setWidth_of_lt (by omega)
  | noteDur k | opWave k =>
    simp only [Reg.legal, decide_eq_true_eq] at hv
    simpa [Reg.read, Reg.write] using setWidth_setWidth_of_lt (by omega)
  | _ => rfl

theorem read_write_engStatus (hs : s.testEn = true) :
    Reg.engStatus.read (Reg.engStatus.write v s) = (v &&& 1) ||| 2 := by
  rw [← engStatus_written, ← hs]
  rfl

/-- Two registers share no element of the state. In an array only those of its own rows are not apart at sight:
there the index tells them apart, or else the field. -/
theorem read_write_of_ne (h : q ≠ r) : q.read (r.write v s) = q.read s := by
  cases r with
  | clkTick k | clkDeadline k =>
    cases q with
    | clkTick j | clkDeadline j => by_cases hj : k = j <;> simp_all [Reg.read, Reg.write]
    | _ => rfl
  | noteDur i | noteFreq i =>
    cases q with
    | noteDur j | noteFreq j => by_cases hj : i = j <;> simp_all [Reg.read, Reg.write]
    | _ => rfl
  | opSr j | opFreq j | opRatio j | opWave j | opPhase j =>
    cases q with
    | opSr k | opFreq k | opRatio k | opWave k | opPhase k => by_cases hk : j = k <;> simp_all [Reg.read, Reg.write]
    | _ => rfl
  | fltS m =>
    cases q with
    | fltS j =>
      have hj : m.val ≠ j.val := fun e => h (congrArg Reg.fltS (Fin.ext e).symm)
      simp [Reg.read, Reg.write, hj]
    | _ => rfl
  | fltPs m =>
    cases q with
    | fltPs j =>
      have hj : m.val ≠ j.val := fun e => h (congrArg Reg.fltPs (Fin.ext e).symm)
      simp [Reg.read, Reg.write, hj]
    | _ => rfl
  | _ => cases q <;> first | exact absurd rfl h | rfl

/-- WRREG writes its register and nothing else. -/
theorem frame_write (r : Reg) (v : Word) (s : State) : Frame (fun q => q = r) false s (r.write v s) := by
  refine ⟨fun q hq => read_write_of_ne (of_decide_eq_false hq), fun _ => ?_, ?_, ?_, ?_, ?_, ?_, ?_⟩ <;>
    cases r <;> rfl

end

/-! ### The operations -/

section
variable {r : Reg} {a : Addr} {s : State}

theorem commandOf_rdreg_run (a : Addr) (s : State) : commandOf (.rdreg a) s =
    (regAt a).elim (.error (.raise .errValue) s) fun r => .ok (Answer.ofWord (r.read s)) s := by
  refine (readState_bind _ s).trans ?_
  cases regAt a <;> rfl

theorem commandOf_wrreg_run (a : Addr) (s : State) : commandOf (.wrreg a) s =
    (regAt a).elim (.error (.raise .errValue) s) fun r =>
      if s.argHigh = 0 ∧ r.legal s.argLow then .ok Answer.none (r.write s.argLow s)
      else .error (.raise .errValue) s := by
  refine (readState_bind _ s).trans ?_
  cases regAt a with
  | none => rfl
  | some r => exact apply_ite (fun m : M Answer => m s) _ _ _

theorem exec_rdreg (hs : s.testEn = true) :
    exec (.rdreg r.addr) s = .next (s.answer ⟨.ok, false, (r.read s).setWidth 64⟩) :=
  exec_of_command_ok (a := Answer.ofWord (r.read s)) hs (by rw [commandOf_rdreg_run, regAt_addr, Option.elim_some])

theorem exec_rdreg_unmapped (hs : s.testEn = true) (ha : ∀ r : Reg, r.addr ≠ a) :
    exec (.rdreg a) s = .next (s.answer ⟨.errValue, false, 0⟩) :=
  exec_of_command_raise hs (by rw [commandOf_rdreg_run, regAt_eq_none ha, Option.elim_none])

theorem exec_wrreg (hs : s.testEn = true) (hhigh : s.argHigh = 0) (hlegal : r.legal s.argLow = true) :
    exec (.wrreg r.addr) s = .next ((r.write s.argLow s).answer ⟨.ok, false, 0⟩) :=
  exec_of_command_ok (a := Answer.none) hs
    (by rw [commandOf_wrreg_run, regAt_addr, Option.elim_some, if_pos ⟨hhigh, hlegal⟩])

theorem exec_wrreg_refused (hs : s.testEn = true) (h : s.argHigh ≠ 0 ∨ r.legal s.argLow = false) :
    exec (.wrreg r.addr) s = .next (s.answer ⟨.errValue, false, 0⟩) := by
  have hno : ¬ (s.argHigh = 0 ∧ r.legal s.argLow = true) := fun ⟨hhigh, hlegal⟩ =>
    h.elim (absurd hhigh) fun hillegal => Bool.false_ne_true (hillegal.symm.trans hlegal)
  exact exec_of_command_raise hs (by rw [commandOf_wrreg_run, regAt_addr, Option.elim_some, if_neg hno])

theorem exec_wrreg_unmapped (hs : s.testEn = true) (ha : ∀ r : Reg, r.addr ≠ a) :
    exec (.wrreg a) s = .next (s.answer ⟨.errValue, false, 0⟩) :=
  exec_of_command_raise hs (by rw [commandOf_wrreg_run, regAt_eq_none ha, Option.elim_none])

end

/-- Settles O18: the map finds every register at its address, and RDREG writes nothing. -/
theorem rdregReadsTheMap : Obligations.RdregReadsTheMap := by
  refine ⟨fun r s => ?_, fun r s => exec_rdreg, fun a s => exec_rdreg_unmapped,
    decode_formatAWord (op := 0xF0) (by simp [opcodeTable]) Reg.adsrState.addr⟩
  cases r with
  | engStatus => exact engStatus_eq s.ready s.testEn
  | _ => rfl

/-- Settles O19: the legal values fit their register, and no other register shares its element. -/
theorem wrregWritesOneRegister : Obligations.WrregWritesOneRegister := by
  refine ⟨fun r v => ?_, fun r s hs hhigh hlegal => ?_, fun r s => exec_wrreg_refused, fun a s => exec_wrreg_unmapped,
    decode_formatAWord (op := 0xF1) (by simp [opcodeTable]) Reg.adsrState.addr⟩
  · cases r <;> simp [Reg.legal]
  · have hframe := frame_write r s.argLow s
    refine ⟨r.write s.argLow s, exec_wrreg hs hhigh hlegal, ?_, fun q => read_write_of_ne, hframe.rng rfl,
      hframe.testEn, hframe.cfg, hframe.pending, hframe.arg0, hframe.arg1⟩
    split
    next hr => exact hr ▸ read_write_engStatus hs
    next hr => exact read_write_self hr hlegal

/-- Settles O20: RNG.SEED reads the seed on the port alone. -/
theorem rngSeedDependsOnTheSeedAlone : Obligations.RngSeedDependsOnTheSeedAlone :=
  ⟨decode_plainWord (op := 0x80) (by simp [opcodeTable]), fun _ => exec_rngSeed⟩

end Sys2Proof.Machine
end

section
/-! The encoder and the decoder undo each other (spec/30_encoding.md R81 to R86), and the words and addresses
written out from the tables (R83, R84; 10_state.md R46). -/

namespace Sys2Proof.Machine

-- As in Sys2Proof/Tests/Slice0.lean: a thread for each small proof takes the joined text's memory.
set_option Elab.async false

/-! ### From the operation to the word and back -/

/-- If the word of an operation passes the check of a row with its opcode, it decodes to the operation. -/
theorem decode_encode_of_row {r : TableRow} {i : Instr} (h : r ∈ opcodeTable) (hop : i.opcode.toNat = r.opcode)
    (hread : r.read (encode i) = .ok i) : decode (encode i) = .ok i := by
  rw [decode_of_mem h (by rw [encode, opcodeField_fields, hop]), hread]

theorem decode_encode_formatN {i : Instr} (h : ⟨i.opcode.toNat, .n, fun _ _ => i⟩ ∈ opcodeTable)
    (hinst : i.inst = 0) (haddr : i.addr = 0) : decode (encode i) = .ok i := by
  refine decode_encode_of_row h rfl (formatN_ok_iff.mpr ⟨?_, rfl⟩)
  rw [encode, instField_fields, addrField_fields]
  exact ⟨hinst, haddr⟩

theorem decode_encode_formatI {n : Nat} {mk : Byte → Instr} {k : Byte}
    (h : ⟨(mk k).opcode.toNat, .i n, fun k _ => mk k⟩ ∈ opcodeTable) (hinst : (mk k).inst = k)
    (haddr : (mk k).addr = 0) (hwf : (mk k).wellFormed = true) : decode (encode (mk k)) = .ok (mk k) := by
  refine decode_encode_of_row h rfl (formatI_ok_iff.mpr ?_)
  rw [encode, instField_fields, addrField_fields, hinst]
  exact ⟨⟨haddr, hwf⟩, rfl⟩

theorem decode_encode_formatA {mk : Addr → Instr} {a : Addr}
    (h : ⟨(mk a).opcode.toNat, .a, fun _ a => mk a⟩ ∈ opcodeTable) (hinst : (mk a).inst = 0)
    (haddr : (mk a).addr = a) : decode (encode (mk a)) = .ok (mk a) := by
  refine decode_encode_of_row h rfl (formatA_ok_iff.mpr ?_)
  rw [encode, instField_fields, addrField_fields, haddr]
  exact ⟨hinst, rfl⟩

/-- Settles O15: an operation's row is that of its opcode, and its fields pass the check of the row's format. -/
theorem decodeInvertsEncode : Obligations.DecodeInvertsEncode := by
  intro i hwf
  cases i with
  | clkDeadline k =>
    exact decode_encode_formatI (n := 4) (mk := .clkDeadline) (by simp [opcodeTable, Instr.opcode]) rfl rfl hwf
  | clkDefault k =>
    exact decode_encode_formatI (n := 4) (mk := .clkDefault) (by simp [opcodeTable, Instr.opcode]) rfl rfl hwf
  | clkTick k =>
    exact decode_encode_formatI (n := 4) (mk := .clkTick) (by simp [opcodeTable, Instr.opcode]) rfl rfl hwf
  | clkReady k =>
    exact decode_encode_formatI (n := 4) (mk := .clkReady) (by simp [opcodeTable, Instr.opcode]) rfl rfl hwf
  | clkReset k =>
    exact decode_encode_formatI (n := 4) (mk := .clkReset) (by simp [opcodeTable, Instr.opcode]) rfl rfl hwf
  | opNew k =>
    exact decode_encode_formatI (n := 3) (mk := .opNew) (by simp [opcodeTable, Instr.opcode]) rfl rfl hwf
  | opRandom k =>
    exact decode_encode_formatI (n := 3) (mk := .opRandom) (by simp [opcodeTable, Instr.opcode]) rfl rfl hwf
  | opSetf k =>
    exact decode_encode_formatI (n := 3) (mk := .opSetf) (by simp [opcodeTable, Instr.opcode]) rfl rfl hwf
  | opNext k =>
    exact decode_encode_formatI (n := 3) (mk := .opNext) (by simp [opcodeTable, Instr.opcode]) rfl rfl hwf
  | noteNew k =>
    exact decode_encode_formatI (n := 8) (mk := .noteNew) (by simp [opcodeTable, Instr.opcode]) rfl rfl hwf
  | noteDefault k =>
    exact decode_encode_formatI (n := 8) (mk := .noteDefault) (by simp [opcodeTable, Instr.opcode]) rfl rfl hwf
  | rdreg a => exact decode_encode_formatA (mk := .rdreg) (by simp [opcodeTable, Instr.opcode]) rfl rfl
  | wrreg a => exact decode_encode_formatA (mk := .wrreg) (by simp [opcodeTable, Instr.opcode]) rfl rfl
  | _ => exact decode_encode_formatN (by simp [opcodeTable, Instr.opcode]) rfl rfl

/-! ### From the word to the operation and back -/

/-- The fields of a row's operation: the opcode of the row, and the operands its format has. -/
def TableRow.FieldsOf (r : TableRow) (k : Byte) (a : Addr) : Prop :=
  (r.operation k a).opcode.toNat = r.opcode ∧
  match r.format with
  | .n => (r.operation k a).inst = 0 ∧ (r.operation k a).addr = 0 ∧ (r.operation k a).instances = none
  | .i _ => (r.operation k a).inst = k ∧ (r.operation k a).addr = 0
  | .a => (r.operation k a).inst = 0 ∧ (r.operation k a).addr = a ∧ (r.operation k a).instances = none

theorem fieldsOf_of_mem {r : TableRow} (h : r ∈ opcodeTable) (k : Byte) (a : Addr) : r.FieldsOf k a := by
  simp only [opcodeTable, List.mem_cons, List.not_mem_nil, or_false] at h
  repeat' obtain rfl | h := h
  all_goals repeat' constructor

theorem encode_eq_of_fields {w : Word} {i : Instr} (hop : i.opcode = opcodeField w) (hinst : i.inst = instField w)
    (haddr : i.addr = addrField w) : encode i = w := by
  rw [encode, hop, hinst, haddr, ← word_eq_fields]

theorem wellFormed_of_instances_none {i : Instr} (h : i.instances = none) : i.wellFormed = true := by
  simp only [Instr.wellFormed, h]

/-- Settles O16: the check of the row's format leaves no bit of the word that the operation does not have. -/
theorem encodeInvertsDecode : Obligations.EncodeInvertsDecode := by
  intro w i hd
  obtain ⟨r, hmem, hop⟩ := row_of_decode_ok hd
  rw [decode_of_mem hmem hop] at hd
  obtain rfl := eq_select_of_read hd
  obtain ⟨hcode, hfields⟩ := fieldsOf_of_mem hmem (instField w) (addrField w)
  have hopcode : (r.select w).opcode = opcodeField w := BitVec.eq_of_toNat_eq (hcode.trans hop.symm)
  cases hf : r.format with
  | n =>
    simp only [TableRow.read, hf, formatN_ok_iff] at hd hfields
    obtain ⟨⟨hinst, haddr⟩, -⟩ := hd
    obtain ⟨hi, ha, hnone⟩ := hfields
    exact ⟨wellFormed_of_instances_none hnone, encode_eq_of_fields hopcode (hi.trans hinst.symm) (ha.trans haddr.symm)⟩
  | i n =>
    simp only [TableRow.read, hf, formatI_ok_iff] at hd hfields
    obtain ⟨⟨haddr, hwf⟩, -⟩ := hd
    obtain ⟨hi, ha⟩ := hfields
    exact ⟨hwf, encode_eq_of_fields hopcode hi (ha.trans haddr.symm)⟩
  | a =>
    simp only [TableRow.read, hf, formatA_ok_iff] at hd hfields
    obtain ⟨hinst, -⟩ := hd
    obtain ⟨hi, ha, hnone⟩ := hfields
    exact ⟨wellFormed_of_instances_none hnone, encode_eq_of_fields hopcode (hi.trans hinst.symm) ha⟩

/-! ### The tables written out -/

/-- A word is read as the operation whose word it is. -/
theorem decode_of_encode_eq {w : Word} {i : Instr} (hwf : i.wellFormed = true) (h : encode i = w) :
    decode w = .ok i :=
  h ▸ decodeInvertsEncode i hwf

/-- Settles O13: each word is that of its operation. -/
theorem sampleWordsDecode : Obligations.SampleWordsDecode := by
  refine ⟨?_, ?_, ?_, ?_, ?_, ?_, ?_, ?_, ?_, ?_, ?_, ?_, ?_⟩ <;> exact decode_of_encode_eq (by decide) (by decide)

/-- Settles O17: the map finds every register at its address, which the table writes out. -/
theorem registersLieAtTheirAddresses : Obligations.RegistersLieAtTheirAddresses :=
  ⟨regAt_addr .engStatus, regAt_addr .seqTempo, regAt_addr .seqScale, regAt_addr .seqLength, regAt_addr .seqCursor,
    regAt_addr (.clkTick 0), regAt_addr (.clkDeadline 0), regAt_addr (.clkTick 1), regAt_addr (.clkDeadline 1),
    fun i => ⟨regAt_addr (.noteDur i), regAt_addr (.noteFreq i)⟩,
    regAt_addr .synSr, regAt_addr (.clkTick 3), regAt_addr (.clkDeadline 3),
    fun j => ⟨regAt_addr (.opSr j), regAt_addr (.opFreq j), regAt_addr (.opRatio j), regAt_addr (.opWave j),
      regAt_addr (.opPhase j)⟩,
    regAt_addr .adsrAttack, regAt_addr .adsrDecay, regAt_addr .adsrSustain, regAt_addr .adsrRelease,
    regAt_addr .adsrValue, regAt_addr .adsrLength, regAt_addr .adsrDelta, regAt_addr (.clkTick 2),
    regAt_addr (.clkDeadline 2), regAt_addr .adsrState, regAt_addr .fltCutoff, regAt_addr .fltQ, regAt_addr .fltRes,
    regAt_addr .fltP, regAt_addr .fltK, regAt_addr .fltPx, fun m => regAt_addr (.fltS m),
    fun m => regAt_addr (.fltPs m)⟩

end Sys2Proof.Machine
end

section
/-! A step and the operation it performs (spec/30_encoding.md R80), what a step leaves as it was (10_state.md R46,
R50; 60_exceptions.md R213, R214), and hardware reset (70 R230). -/

namespace Sys2Proof.Machine

-- As in Sys2Proof/Tests/Slice0.lean: a thread for each small proof takes the joined text's memory.
set_option Elab.async false

/-! ### Steps -/

/-- Settles O1: the decoded operation runs on the state with the command taken from the host's list. -/
theorem stepPerformsTheDecodedCommand : Obligations.StepPerformsTheDecodedCommand :=
  fun _ _ _ _ => step_of_decode_ok

theorem step_of_nil {s : State} (h : s.pending = []) : step s = .next s := by
  simp [step, State.nextEvent, h]

theorem step_of_reset {s : State} {strap : Bool} {rest : List HostEvent} (h : s.pending = .reset strap :: rest) :
    step s = .next (s.hardReset strap) := by
  simp [step, State.nextEvent, h]

/-- Settles O4: the reset takes nothing from the state before but the configuration and the host's list. -/
theorem resetLeavesNoEngine : Obligations.ResetLeavesNoEngine := by
  refine ⟨fun s => step_of_nil, fun s strap rest h => ?_, rfl, rfl, rfl, rfl⟩
  have hrest : (s.hardReset strap).pending = rest := congrArg List.tail h
  exact ⟨_, step_of_reset h, rfl, rfl, rfl, rfl, hrest⟩

/-! ### Frames -/

theorem addr_of_regAt {a : Addr} {r : Reg} (h : regAt a = some r) : r.addr = a := by
  simpa using List.find?_some h

/-- WRREG writes the register at its address, if it writes at all. -/
theorem writes_commandOf_wrreg (a : Addr) :
    Writes (mayWrite (.wrreg a)) (mayDraw (.wrreg a)) (commandOf (.wrreg a)) := by
  refine Keeps.reading fun s => ?_
  cases hr : regAt a with
  | none => exact Writes.raise _ _ _
  | some r =>
    have hwrite (v : Word) : Writes (mayWrite (.wrreg a)) (mayDraw (.wrreg a)) (updateState (r.write v)) :=
      Writes.mono (Writes.update (frame_write r v))
        (single_le (mayWrite (.wrreg a)) (decide_eq_true (addr_of_regAt hr))) id
    dsimp only
    split
    · exact Writes.bind (hwrite _) fun _ => Writes.pure _ _ _
    · exact Writes.raise _ _ _

/-- Every operation that answers leaves unchanged what the register map does not let it write. -/
theorem unchanged_of_exec {i : Instr} {s t : State} (h : exec i s = .next t) : Unchanged i s t := by
  by_cases hi : ∃ a, i = .wrreg a
  · obtain ⟨a, rfl⟩ := hi
    exact Keeps.exec (Keeps.mono (writes_commandOf_wrreg a) fun _ _ => Frame.unchanged)
      (fun s => (Frame.refl _ _ s).unchanged) Unchanged.answer h
  · exact exec_unchanged (fun a ha => hi ⟨a, ha⟩) h

/-- Settles O55, by the frame of every operation. -/
theorem clockSignalSystemFrames : Obligations.ClockSignalSystemFrames := fun _ _ _ _ => unchanged_of_exec

/-- Settles O56, by the frame of every operation. -/
theorem operatorAdsrFilterFrames : Obligations.OperatorAdsrFilterFrames := fun _ _ _ _ => unchanged_of_exec

/-- Settles O57, by the frame of every operation. -/
theorem noteSequenceFrames : Obligations.NoteSequenceFrames := fun _ _ _ _ => unchanged_of_exec

/-- Settles O58, by the frame of every operation. -/
theorem synthEngineFrames : Obligations.SynthEngineFrames := fun _ _ _ _ => unchanged_of_exec

/-- Settles O5: no operation writes the level, the configuration or the host's list, and a word that decodes to
none leaves all but the response. -/
theorem commandsKeepLevelAndConfiguration : Obligations.CommandsKeepLevelAndConfiguration := by
  intro s t c rest hpending hstep
  by_cases hd : ∃ i, decode c.word = .ok i
  · obtain ⟨i, hd⟩ := hd
    rw [step_of_decode_ok hpending hd] at hstep
    obtain ⟨-, -, htest, hcfg, hrest, -, -⟩ := unchanged_of_exec hstep
    exact ⟨htest, hcfg, hrest⟩
  · rw [step_of_decode_error hpending fun i e => hd ⟨i, e⟩] at hstep
    cases hstep
    exact ⟨rfl, rfl, rfl⟩

end Sys2Proof.Machine
end

section
/-! Which operation answers which error, and what stands after it (spec/60_exceptions.md R200, R201, R205). -/

namespace Sys2Proof.Machine

-- As in Sys2Proof/Tests/Slice0.lean: a thread for each small proof takes the joined text's memory.
set_option Elab.async false

variable {α β : Type}

/-! ### The errors of a command -/

/-- An error other than SelectFail, with its operation and its ground. -/
def CheckFails (i : Instr) (s : State) : Status → Prop
  | .errState => i = .engNext ∧ s.ready = false
  | .errIllegal => i.wellFormed = false
  | .errValue => (∃ a, i = .rdreg a) ∨ (∃ a, i = .wrreg a) ∨ (∃ k, i = .opNew k)
  | .ok | .errSelect => False

/-- The operations that draw from a pool, and those whose draw of a slot has one active slot. -/
def DrawsFromPool (i : Instr) (s : State) : Prop :=
  i = .engNew ∨ i = .engNext ∨ i = .seqNew ∨ i = .synNew ∨ (∃ k, i = .opRandom k) ∨ i = .synMutate ∨ i = .synPlay ∨
    ((i = .seqMutate ∨ i = .seqNext) ∧ s.seq.length = 1)

/-- A command raises an error before it writes, or SelectFail. -/
def ErrorSource (i : Instr) (s : State) (e : Status) (t : State) : Prop :=
  (CheckFails i s e ∧ t = s) ∨ (e = .errSelect ∧ DrawsFromPool i s)

/-- What a command on a unit raises: that the unit does not exist, or what its statements raise. -/
theorem raise_of_selected {n : Nat} {inst : Byte} {f : Fin n → M β} {s t : State} {e : Status}
    (h : (selectInst n inst >>= f) s = .error (.raise e) t) :
    (e = .errIllegal ∧ ¬ inst.toNat < n ∧ t = s) ∨ ∃ k : Fin n, inst.toNat = k.val ∧ f k s = .error (.raise e) t := by
  by_cases hn : inst.toNat < n
  · rw [bind_ok (selectInst_run hn s)] at h
    exact .inr ⟨⟨_, hn⟩, rfl, h⟩
  · rw [bind_error (selectInst_run_out hn s)] at h
    cases h
    exact .inl ⟨rfl, hn, rfl⟩

/-- A command on a unit whose statements raise nothing. -/
theorem ErrorSource.of_selected {i : Instr} {n : Nat} {inst : Byte} {f : Fin n → M Answer} {s t : State} {e : Status}
    (hf : ∀ k, NeverRaises (f k)) (hwf : i.wellFormed = decide (inst.toNat < n))
    (h : (selectInst n inst >>= f) s = .error (.raise e) t) : ErrorSource i s e t := by
  obtain ⟨rfl, hn, rfl⟩ | ⟨k, -, hk⟩ := raise_of_selected h
  · exact .inl ⟨hwf.trans (decide_eq_false hn), rfl⟩
  · exact (hf k s e t hk).elim

theorem Raises.answering {P : Status → Prop} {m : M α} (h : Raises P m) (f : α → Answer) :
    Raises P (m >>= fun a => Pure.pure (f a)) :=
  Raises.bind h fun _ => Raises.pure _

theorem Raises.reading {P : Status → Prop} {m : State → M α} (h : ∀ s, Raises P (m s)) :
    Raises P (Machine.readState >>= m) :=
  Raises.bind Raises.readState h

theorem raises_cmdSignal (w : WaveKind) : NeverRaises (commandOf (signalInstr w)) := fun s e t h => by
  rw [commandOf_signalInstr_run] at h
  exact Raises.answering (raises_signal _ _ _ _ _) _ s e t h

/-- SEQ.MUTATE fails to draw only where the playing slot is the one active slot. -/
theorem length_of_seqMutate_raise {E : Env} {s t : State} {e : Status} (h : seqMutate E s = .error (.raise e) t) :
    s.seq.length = 1 := by
  rw [seqMutate, readState_bind] at h
  split at h
  next => cases h
  next hne =>
    obtain ⟨k, r, hk⟩ | ⟨hzero, -⟩ := rngIndex_cases E (s.seq.length.toNat - 1) s
    · rw [bind_ok hk] at h
      have hrest : NeverRaises (if hslot : mutatedSlot k.val s.seq.cursor < 8 then (do
          noteNew E ⟨mutatedSlot k.val s.seq.cursor, hslot⟩
          let d ← rngU32 E s.cfg.seqMutLo s.cfg.seqMutHi
          clkReset 0 d) else stopWith .illegalLength) := by
        split
        · exact Raises.bind (raises_noteNew E _) fun _ => Raises.bind (raises_rngU32 E _ _) fun _ => Raises.update _
        · exact Raises.stopWith _
      exact (hrest _ e t h).elim
    · have hpos : s.seq.length.toNat ≠ 0 := fun hz => hne (BitVec.eq_of_toNat_eq hz)
      exact BitVec.eq_of_toNat_eq (show s.seq.length.toNat = 1 by omega)

theorem raises_seqStepHalf : NeverRaises seqStepHalf :=
  Raises.bind (raises_clkTick 1) fun fired => by
    cases fired
    · exact Raises.pure _
    · exact Raises.bind raises_seqStep fun _ => Raises.pure _

/-- SEQ.NEXT raises what its mutation raises. -/
theorem length_of_seqNext_raise {E : Env} {s t : State} {e : Status} (h : seqNext E s = .error (.raise e) t) :
    s.seq.length = 1 := by
  rw [seqNext_run] at h
  obtain hmutate | ⟨_, u, -, hhalf⟩ := bind_error_iff.mp h
  · cases hready : (s.clock 0).ticked.isReady with
    | false => rw [hready] at hmutate; cases hmutate
    | true =>
      rw [hready] at hmutate
      exact length_of_seqMutate_raise (s := s.setClock 0 (s.clock 0).ticked) hmutate
  · exact (raises_seqStepHalf _ e t hhalf).elim

theorem raise_of_engNext {E : Env} {s t : State} {e : Status} (h : engNext E s = .error (.raise e) t) :
    (e = .errState ∧ s.ready = false ∧ t = s) ∨ e = .errSelect := by
  cases hready : s.ready with
  | false =>
    rw [engNext_run_not_ready E hready] at h
    cases h
    exact .inl ⟨rfl, rfl, rfl⟩
  | true =>
    rw [engNext_run E hready] at h
    have hraises : RaisesSelect (seqNext E >>= fun ev => playEvent E ev >>= fun _ => synNext E) :=
      Raises.bind (raises_seqNext E) fun ev => Raises.bind (raises_playEvent E ev) fun _ => (raises_synNext E).select
    exact .inr (hraises s e t h)

/-- Everything a command can raise. -/
theorem errorSource_of_command {i : Instr} {s t : State} {e : Status} (h : commandOf i s = .error (.raise e) t) :
    ErrorSource i s e t := by
  have never (hm : NeverRaises (commandOf i)) : ErrorSource i s e t := (hm s e t h).elim
  have select (hm : RaisesSelect (commandOf i)) (hi : DrawsFromPool i s) : ErrorSource i s e t :=
    .inr ⟨hm s e t h, hi⟩
  cases i with
  | engNew => exact select (Raises.reading fun _ => (raises_engNew _ _ _).answering _) (by simp [DrawsFromPool])
  | engNext =>
    obtain hnext | ⟨_, _, -, hpure⟩ := bind_error_iff.mp h
    · obtain ⟨rfl, hready, rfl⟩ | rfl := raise_of_engNext hnext
      · exact .inl ⟨⟨rfl, hready⟩, rfl⟩
      · exact .inr ⟨rfl, by simp [DrawsFromPool]⟩
    · cases hpure
  | clkDeadline inst | clkReset inst =>
    exact ErrorSource.of_selected (fun _ => Raises.reading fun _ => Raises.answering (Raises.update _) _) rfl h
  | clkDefault inst => exact ErrorSource.of_selected (fun _ => Raises.answering (Raises.update _) _) rfl h
  | clkTick inst => exact ErrorSource.of_selected (fun k => (raises_clkTick k).answering _) rfl h
  | clkReady inst => exact ErrorSource.of_selected (fun k => (raises_clkReady k).answering _) rfl h
  | sigSine => exact never (raises_cmdSignal .sine)
  | sigSquare => exact never (raises_cmdSignal .square)
  | sigSaw => exact never (raises_cmdSignal .saw)
  | opNew inst =>
    obtain ⟨rfl, hn, rfl⟩ | ⟨j, hj, -⟩ := raise_of_selected h
    · exact .inl ⟨decide_eq_false hn, rfl⟩
    · rw [commandOf_opNew_run hj] at h
      cases hw : waveOf s.argWave with
      | none => rw [hw] at h; cases h; exact .inl ⟨.inr (.inr ⟨_, rfl⟩), rfl⟩
      | some w => rw [hw] at h; cases h
  | opRandom inst =>
    obtain ⟨rfl, hn, rfl⟩ | ⟨j, hj, -⟩ := raise_of_selected h
    · exact .inl ⟨decide_eq_false hn, rfl⟩
    · rw [commandOf_opRandom_run hj] at h
      exact .inr ⟨Raises.answering (raises_opRandom _ j _) _ s e t h, by simp [DrawsFromPool]⟩
  | opSetf inst =>
    exact ErrorSource.of_selected (fun _ => Raises.reading fun _ => Raises.answering (Raises.update _) _) rfl h
  | opNext inst => exact ErrorSource.of_selected (fun j => (raises_opNext _ j).answering _) rfl h
  | adsrNew => exact never ((raises_adsrNew _).answering _)
  | adsrStart => exact never (Raises.reading fun _ => (raises_adsrStart _ _).answering _)
  | adsrNext => exact never ((raises_adsrNext _).answering _)
  | fltNew => exact never (Raises.reading fun _ => (raises_fltNew _ _).answering _)
  | fltGen => exact never (Raises.reading fun _ => (raises_fltGen _ _).answering _)
  | noteNew inst => exact ErrorSource.of_selected (fun k => (raises_noteNew _ k).answering _) rfl h
  | noteDefault inst => exact ErrorSource.of_selected (fun _ => Raises.answering (Raises.update _) _) rfl h
  | seqNew => exact select (Raises.reading fun _ => (raises_seqNew _ _).answering _) (by simp [DrawsFromPool])
  | seqNext =>
    obtain hnext | ⟨_, _, -, hpure⟩ := bind_error_iff.mp h
    · exact select ((raises_seqNext _).answering _)
        (by simp [DrawsFromPool, length_of_seqNext_raise hnext])
    · cases hpure
  | seqMutate =>
    obtain hmutate | ⟨_, _, -, hpure⟩ := bind_error_iff.mp h
    · exact select ((raises_seqMutate _).answering _)
        (by simp [DrawsFromPool, length_of_seqMutate_raise hmutate])
    · cases hpure
  | synNew => exact select (Raises.reading fun _ => (raises_synNew _ _).answering _) (by simp [DrawsFromPool])
  | synPlay =>
    exact select (Raises.reading fun _ => (raises_synPlay _ _ _).answering _)
      (by simp [DrawsFromPool])
  | synNext => exact never ((raises_synNext _).answering _)
  | synMutate =>
    exact select ((raises_synMutate _).answering _) (by simp [DrawsFromPool])
  | rngSeed => exact never (Raises.reading fun _ => Raises.answering (Raises.update _) _)
  | rdreg a =>
    rw [commandOf_rdreg_run] at h
    cases hr : regAt a with
    | none => rw [hr] at h; cases h; exact .inl ⟨.inl ⟨_, rfl⟩, rfl⟩
    | some r => rw [hr] at h; cases h
  | wrreg a =>
    have refused : ErrorSource (.wrreg a) s .errValue s := .inl ⟨.inr (.inl ⟨_, rfl⟩), rfl⟩
    rw [commandOf_wrreg_run] at h
    cases hr : regAt a with
    | none => rw [hr] at h; cases h; exact refused
    | some r =>
      rw [hr, Option.elim_some] at h
      split at h
      · cases h
      · cases h; exact refused

/-! ### The answers of an operation -/

/-- Everything an operation answers: what its command ended in, or, at HOST level, ERR_ILLEGAL to a TEST-level
operation. -/
theorem exec_next_cases {i : Instr} {s t : State} (h : exec i s = .next t) :
    (s.testEn = false ∧ i.level = .test ∧ t = s.answer ⟨.errIllegal, false, 0⟩) ∨
    (∃ a u, commandOf i s = .ok a u ∧ t = u.answer ⟨.ok, a.flag, a.data⟩) ∨
    (∃ e u, commandOf i s = .error (.raise e) u ∧ t = u.answer ⟨e, false, 0⟩) := by
  by_cases hrefused : s.testEn = false ∧ i.level ≠ .host
  · obtain ⟨htest, hlevel⟩ := hrefused
    rw [exec_test_at_host hlevel htest] at h
    cases h
    refine .inl ⟨htest, ?_, rfl⟩
    cases hi : i.level with
    | host => exact absurd hi hlevel
    | test => rfl
  · have hrun : exec i s = respond (commandOf i s) := by
      cases htest : s.testEn with
      | true => exact exec_eq_respond htest
      | false =>
        cases i with
        | engNew | engNext => rfl
        | _ => exact absurd ⟨htest, nofun⟩ hrefused
    rw [hrun] at h
    exact .inr (respond_next_iff.mp h)

/-- Settles O7: a check stands before every write, and SelectFail is none of the three errors. -/
theorem checkedErrorsChangeNoState : Obligations.CheckedErrorsChangeNoState := by
  intro i s t r h hr hstatus
  obtain ⟨-, -, rfl⟩ | ⟨a, u, -, rfl⟩ | ⟨e, u, hraise, rfl⟩ := exec_next_cases h <;> cases hr
  · rfl
  · simp at hstatus
  · obtain ⟨-, rfl⟩ | ⟨rfl, -⟩ := errorSource_of_command hraise
    · rfl
    · simp at hstatus

/-- Settles O9: the four statuses of an error source, and the refusal at HOST level. -/
theorem errorsComeFromTheirOperations : Obligations.ErrorsComeFromTheirOperations := by
  intro i s t r hwf h hr
  obtain ⟨htest, hlevel, rfl⟩ | ⟨a, u, -, rfl⟩ | ⟨e, u, hraise, rfl⟩ := exec_next_cases h <;> cases hr
  · exact ⟨nofun, fun _ => ⟨htest, hlevel⟩, nofun, nofun⟩
  · exact ⟨nofun, nofun, nofun, nofun⟩
  · obtain ⟨hcheck, -⟩ | ⟨rfl, hdraw⟩ := errorSource_of_command hraise
    · cases e with
      | ok | errSelect => exact hcheck.elim
      | errState => exact ⟨fun _ => hcheck, nofun, nofun, nofun⟩
      | errIllegal => exact absurd (hwf.symm.trans hcheck) nofun
      | errValue => exact ⟨nofun, nofun, fun _ => hcheck, nofun⟩
    · exact ⟨nofun, nofun, nofun, fun _ => hdraw⟩

end Sys2Proof.Machine
end

section
/-! A draw that fails ends the command where it stands (spec/60_exceptions.md R201, R205): the writes and draws
before it stand, the generator is not advanced. -/

namespace Sys2Proof.Machine

-- As in Sys2Proof/Tests/Slice0.lean: a thread for each small proof takes the joined text's memory.
set_option Elab.async false

/-! ### An empty pool -/

/-- Every entry of the pool has weight 0. -/
def PoolEmpty (c : Cfg) : Prop := ∀ k : Fin c.nPool.val, (poolEntry c k).weight = 0

section
variable {s : State}

/-- SYN.MUTATE has drawn which modulator. -/
theorem synMutate_run_empty (E : Env) (h : PoolEmpty s.cfg) :
    synMutate E s = .error (.raise .errSelect) (s.setRng (E.rng.index s.rng 2).2) := by
  rw [synMutate, readState_bind, bind_ok (rngIndex_run E (by decide) s)]
  exact bind_error (opRandom_run_empty (s := s.setRng (E.rng.index s.rng 2).2) h _ _)

/-- SYN.NEW has written the sample rate and the carrier. -/
theorem synNew_run_empty (E : Env) (sr : Word) (h : PoolEmpty s.cfg) :
    synNew E sr s = .error (.raise .errSelect) ((s.setSynSr sr).setOper 0 (newOper sr fOne .sine)) := by
  rw [synNew, readState_bind, updateState_bind, bind_ok (opNew_run _ _ _ _ _)]
  exact bind_error (opRandom_run_empty (s := (s.setSynSr sr).setOper 0 _) h _ _)

end

/-! ### One active slot -/

/-- SEQ.NEXT has ticked the mutation Clock. -/
theorem seqNext_run_single {E : Env} {s : State} (h : s.seq.length = 1) (hfires : (s.clock 0).ticked.isReady = true) :
    seqNext E s = .error (.raise .errSelect) (s.setClock 0 (s.clock 0).ticked) := by
  rw [seqNext_run, hfires, doWhen_true]
  exact bind_error (seqMutate_run_single (s := s.setClock 0 (s.clock 0).ticked) E h)

/-! ### No scales, no metres -/

theorem rngIndex_run_of_eq_zero (E : Env) {n : Nat} (h : n = 0) (s : State) :
    rngIndex E n s = .error (.raise .errSelect) s := by
  subst h
  exact rngIndex_run_zero E s

section
variable {E : Env} {sr : Word} {bpm : F32} {s u : State}

/-- Without scales SEQ.NEW has written the tempo. -/
theorem seqNew_run_noScales (hbpm : rngF32 E s.cfg.tempoLo s.cfg.tempoHi s = .ok bpm u) (h : s.cfg.nScales.val = 0) :
    seqNew E sr s = .error (.raise .errSelect) (u.setSeq { u.seq with tempo := tempoSamples E.num bpm sr }) := by
  rw [seqNew, readState_bind, bind_ok hbpm, updateState_bind, bind_error (rngIndex_run_of_eq_zero E h _)]

/-- Without metres SEQ.NEW has written the tempo and the scale. -/
theorem seqNew_run_noMetres {k : Fin s.cfg.nScales.val} {v : State}
    (hbpm : rngF32 E s.cfg.tempoLo s.cfg.tempoHi s = .ok bpm u) (hk : rngIndex E s.cfg.nScales.val u = .ok k v)
    (h : s.cfg.nMetres.val = 0) : seqNew E sr s = .error (.raise .errSelect)
      (v.setSeq { u.seq with tempo := tempoSamples E.num bpm sr, scale := BitVec.ofNat 5 k.val }) := by
  rw [seqNew, readState_bind, bind_ok hbpm, updateState_bind, bind_ok (rngIndex_setSeq hk _), updateState_bind,
    bind_error (rngIndex_run_of_eq_zero E h _)]
  rfl

/-- ENG.NEW has cleared `eng.ready` and seeded the generator before SEQ.NEW begins. -/
theorem engNew_run_seqNew_raise {seed : DWord} {e : Status}
    (h : seqNew E sr ((s.setReady false).setRng (E.rng.seed seed)) = .error (.raise e) u) :
    engNew E seed sr s = .error (.raise e) u := by
  rw [engNew, updateState_bind, rngSeed, updateState_bind, bind_error h]

theorem exec_engNew_raise {e : Status} (h : engNew Config.env s.arg0 s.arg1 s = .error (.raise e) u) :
    exec .engNew s = .next (u.answer ⟨e, false, 0⟩) := by
  rw [exec_engNew_eq, bind_error h]
  rfl

end

/-- Settles O8: each command up to its failing draw; the draws before it succeed because their ranges are ranges. -/
theorem selectFailKeepsEarlierWrites : Obligations.SelectFailKeepsEarlierWrites := by
  intro s hs
  refine ⟨fun h inst hinst => ?_, fun h => ?_, fun h => ?_, fun h hdue => ?_, fun h => ?_,
    fun h hdue => ⟨?_, fun hready => ?_⟩, fun htempo hscales => ?_, fun htempo hscales hmetres => ?_, fun htempo hscales => ?_⟩
  · exact exec_opRandom_raise (j := ⟨inst.toNat, hinst⟩) rfl hs (opRandom_run_empty h _ _)
  · exact exec_of_command_raise hs (bind_error (synMutate_run_empty _ h))
  · exact exec_of_command_raise hs ((readState_bind _ s).trans (bind_error (synNew_run_empty _ _ h)))
  · exact exec_synPlay_raise hs ((isReady_iff _).mpr hdue) (synMutate_run_empty _ h)
  · exact exec_of_command_raise hs (bind_error (seqMutate_run_single _ h))
  · exact exec_of_command_raise hs (bind_error (seqNext_run_single h ((isReady_iff (s.clock 0).ticked).mpr hdue)))
  · refine exec_engNext_raise ((engNext_run _ hready).trans (bind_error ?_))
    exact seqNext_run_single h ((isReady_iff (s.clock 0).ticked).mpr hdue)
  · have hbpm := rngF32_run Config.env htempo s
    exact ⟨_, _, hbpm, exec_of_command_raise hs
      ((commandOf_seqNew_run s).trans (bind_error (seqNew_run_noScales hbpm hscales)))⟩
  · have hbpm := rngF32_run Config.env htempo s
    have hk := rngIndex_run Config.env hscales (s.setRng (Config.env.rng.f32 s.rng s.cfg.tempoLo s.cfg.tempoHi).2)
    have hnew := seqNew_run_noMetres (sr := s.arg1) hbpm hk hmetres
    exact ⟨_, _, _, _, hbpm, hk, exec_of_command_raise hs ((commandOf_seqNew_run s).trans (bind_error hnew))⟩
  · have hbpm := rngF32_run Config.env htempo ((s.setReady false).setRng (Config.env.rng.seed s.arg0))
    have hnew := engNew_run_seqNew_raise (seqNew_run_noScales (sr := s.arg1) hbpm hscales)
    exact ⟨_, exec_engNew_raise hnew, rfl, rfl, rfl, rfl⟩

end Sys2Proof.Machine
end

section
/-! Every step keeps the registers legal (spec/10_state.md R46), and from legal registers under a well-formed
configuration stops for SIG.SQUARE's zero divisor only (60_exceptions.md R207). -/

namespace Sys2Proof.Machine

-- As in Sys2Proof/Tests/Slice0.lean: a thread for each small proof takes the joined text's memory.
set_option Elab.async false

variable {α : Type}

/-! ### Legal states -/

theorem Legal.answer {s : State} (h : Legal s) (r : Response) : Legal (s.answer r) :=
  ⟨h.scale, h.length, h.dur, h.wave, h.adsr⟩

theorem Legal.present {s : State} (h : Legal s) (c : Command) : Legal (s.present c) :=
  ⟨h.scale, h.length, h.dur, h.wave, h.adsr⟩

/-- WRREG's check of the value keeps every register legal. -/
theorem Legal.write {s : State} (h : Legal s) {r : Reg} {v : Word} (hv : r.legal v = true) : Legal (r.write v s) := by
  have narrow (n m : Nat) (hm : v.toNat ≤ m) : (v.setWidth n).toNat ≤ m := by
    rw [BitVec.toNat_setWidth]
    exact (Nat.mod_le _ _).trans hm
  cases r with
  | engStatus => exact h.setReady _
  | seqTempo => exact h.setSeqRegs _ _ h.scale h.length
  | seqScale => exact h.setSeqRegs _ _ (narrow 5 20 (by simpa [Reg.legal] using hv)) h.length
  | seqLength =>
    have hl : 1 ≤ v.toNat ∧ v.toNat ≤ 8 := by simpa [Reg.legal] using hv
    refine h.setSeqRegs _ _ h.scale ?_
    rw [BitVec.toNat_setWidth, Nat.mod_eq_of_lt (by omega)]
    exact hl
  | seqCursor => exact h.setSeqRegs _ _ h.scale h.length
  | clkTick k | clkDeadline k => exact h.setClock k _
  | noteDur i => exact h.setNote i (narrow 4 8 (by simpa [Reg.legal] using hv))
  | noteFreq i => exact h.setNote i (h.dur i)
  | synSr => exact h.setSynSr _
  | opSr j | opFreq j | opRatio j | opPhase j => exact h.setOper j (h.wave j)
  | opWave j => exact h.setOper j (narrow 2 2 (by simpa [Reg.legal] using hv))
  | adsrState => exact h.setAdsr (narrow 3 4 (by simpa [Reg.legal] using hv))
  | adsrAttack | adsrDecay | adsrSustain | adsrRelease | adsrValue | adsrLength | adsrDelta =>
    exact h.setAdsr (by exact h.adsr)
  | fltCutoff | fltQ | fltRes | fltP | fltK | fltPx | fltS _ | fltPs _ => exact h.setFlt _

theorem legal_resetWith (strap : Bool) (c : Cfg) : Legal (State.resetWith strap c) where
  scale := by simp [State.resetWith]
  length := by simp [State.resetWith]
  dur i := by simp [State.note, State.resetWith]
  wave j := by simp [State.oper, State.resetWith]
  adsr := by simp [State.resetWith]

theorem legal_hardReset (s : State) (strap : Bool) : Legal (s.hardReset strap) :=
  have h := legal_resetWith strap s.cfg
  ⟨h.scale, h.length, h.dur, h.wave, h.adsr⟩

/-- Settles O12. -/
theorem resetRegistersAreLegal : Obligations.ResetRegistersAreLegal :=
  (registersLegal_iff _).mpr (legal_resetWith _ _)

/-! ### The commands -/

theorem Safe.answering {c : Cfg} {m : M α} (h : Safe c m) (f : α → Answer) :
    Safe c (m >>= fun a => Pure.pure (f a)) :=
  Safe.bind h fun _ => Safe.pure _

theorem Safe.reading {c : Cfg} {m : State → M α} (h : ∀ s, Safe c (m s)) : Safe c (Machine.readState >>= m) :=
  Safe.read fun s _ _ => h s

theorem Safe.selected {c : Cfg} {n : Nat} {inst : Byte} {f : Fin n → M α} (h : ∀ k, Safe c (f k)) :
    Safe c (Machine.selectInst n inst >>= f) := by
  refine Safe.bind ?_ h
  unfold Machine.selectInst
  split
  · exact Safe.pure _
  · exact Safe.raise _

theorem safe_cmdSignal (c : Cfg) (w : WaveKind) : Safe c (do
    let s ← readState
    let y ← signal Config.env w s.arg1 s.argLow s.argHigh
    pure (Answer.ofWord y)) :=
  Safe.reading fun _ => (safe_signal c _ w _ _ _).answering _

/-- Every command goes from legal registers to legal registers, and its one fault is the zero divisor. -/
theorem safe_commandOf (c : Cfg) (i : Instr) : Safe c (commandOf i) := by
  cases i with
  | engNew => exact Safe.reading fun _ => (safe_engNew c _ _ _).answering _
  | engNext => exact (safe_engNext c _).answering _
  | clkDeadline inst | clkReset inst =>
    exact Safe.selected fun k => Safe.reading fun _ => Safe.answering (safe_setClock c k _) _
  | clkDefault inst => exact Safe.selected fun k => Safe.answering (safe_setClock c k _) _
  | clkTick inst => exact Safe.selected fun k => (safe_clkTick c k).answering _
  | clkReady inst => exact Safe.selected fun k => (safe_clkReady c k).answering _
  | sigSine => exact safe_cmdSignal c .sine
  | sigSquare => exact safe_cmdSignal c .square
  | sigSaw => exact safe_cmdSignal c .saw
  | opNew inst =>
    refine Safe.selected fun j => Safe.reading fun s => ?_
    cases waveOf s.argWave with
    | none => exact Safe.raise _
    | some w => exact (safe_opNew c j _ w _).answering _
  | opRandom inst => exact Safe.selected fun j => Safe.reading fun _ => (safe_opRandom c _ j _).answering _
  | opSetf inst => exact Safe.selected fun j => Safe.reading fun _ => (safe_opSetf c _ j _).answering _
  | opNext inst => exact Safe.selected fun j => (safe_opNext c _ j).answering _
  | adsrNew => exact (safe_adsrNew c _).answering _
  | adsrStart => exact Safe.reading fun _ => (safe_adsrStart c _ _).answering _
  | adsrNext => exact (safe_adsrNext c _).answering _
  | fltNew => exact Safe.reading fun _ => (safe_fltNew c _ _).answering _
  | fltGen => exact Safe.reading fun _ => (safe_fltGen c _ _).answering _
  | noteNew inst => exact Safe.selected fun k => (safe_noteNew c _ k).answering _
  | noteDefault inst => exact Safe.selected fun k => (safe_noteDefault c k).answering _
  | seqNew => exact Safe.reading fun _ => (safe_seqNew c _ _).answering _
  | seqNext => exact (safe_seqNext c _).answering _
  | seqMutate => exact (safe_seqMutate c _).answering _
  | synNew => exact Safe.reading fun _ => (safe_synNew c _ _).answering _
  | synPlay => exact Safe.reading fun _ => (safe_synPlay c _ _ _).answering _
  | synNext => exact (safe_synNext c _).answering _
  | synMutate => exact (safe_synMutate c _).answering _
  | rngSeed => exact Safe.reading fun _ => (safe_rngSeed c _ _).answering _
  | rdreg a =>
    refine Safe.reading fun s => ?_
    cases regAt a with
    | none => exact Safe.raise _
    | some r => exact Safe.pure _
  | wrreg a =>
    refine Safe.reading fun s => ?_
    cases regAt a with
    | none => exact Safe.raise _
    | some r =>
      dsimp only
      split
      next hok =>
        obtain ⟨-, hv⟩ := hok
        exact Safe.answering
          (Safe.update fun u hl hc => ⟨hl.write hv, (frame_write r s.argLow u).cfg.trans hc⟩) fun _ => Answer.none
      next => exact Safe.raise _

/-! ### The operations -/

theorem exec_legal {i : Instr} {s t : State} (hl : Legal s) (h : exec i s = .next t) : Legal t := by
  obtain ⟨hok, hraise, -⟩ := safe_commandOf s.cfg i s hl rfl
  obtain ⟨-, -, rfl⟩ | ⟨a, u, hrun, rfl⟩ | ⟨e, u, hrun, rfl⟩ := exec_next_cases h
  · exact hl.answer _
  · exact (hok a u hrun).1.answer _
  · exact (hraise e u hrun).1.answer _

theorem respond_ne_refused (x : EStateM.Result Stop State Answer) (r : Refusal) : respond x ≠ .refused r := by
  rcases x with ⟨a, u⟩ | ⟨e, u⟩
  · exact nofun
  · cases e <;> exact nofun

theorem respond_fault_iff {x : EStateM.Result Stop State Answer} {f : Fault} :
    respond x = .fault f ↔ ∃ u, x = .error (.fault f) u := by
  rcases x with ⟨a, u⟩ | ⟨e, u⟩
  · simp
  · cases e <;> simp

theorem exec_ne_refused (i : Instr) (s : State) (r : Refusal) : exec i s ≠ .refused r := by
  obtain e | e := exec_eq_command i s <;> rw [e]
  · exact respond_ne_refused _ r
  · cases hs : s.testEn with
    | false => rw [testCommand_host hs]; exact nofun
    | true => rw [testCommand_test hs]; exact respond_ne_refused _ r

/-- A fault of an operation is one of its command. -/
theorem command_fault_of_exec {i : Instr} {s : State} {f : Fault} (h : exec i s = .fault f) :
    ∃ u, commandOf i s = .error (.fault f) u := by
  obtain e | e := exec_eq_command i s <;> rw [e] at h
  · exact respond_fault_iff.mp h
  · cases hs : s.testEn with
    | false => rw [testCommand_host hs] at h; cases h
    | true => rw [testCommand_test hs] at h; exact respond_fault_iff.mp h

/-! ### The steps -/

/-- Everything a step is: nothing, a reset, an operation, or the answer to a word that selects none. -/
theorem step_cases (s : State) :
    step s = .next s ∨ (∃ strap, step s = .next (s.hardReset strap)) ∨
    (∃ c i, step s = exec i (s.present c)) ∨ ∃ c, step s = .next ((s.present c).answer ⟨.errIllegal, false, 0⟩) := by
  unfold step
  cases s.nextEvent with
  | none => exact .inl rfl
  | some event =>
    cases event with
    | reset strap => exact .inr (.inl ⟨strap, rfl⟩)
    | command c =>
      cases hd : decode c.word with
      | ok i => exact .inr (.inr (.inl ⟨c, i, by simp only [hd]⟩))
      | error e => exact .inr (.inr (.inr ⟨c, by simp only [hd, answerError_eq]⟩))

/-- Settles O11: every command is safe, and the reset values are legal. -/
theorem stepKeepsRegistersLegal : Obligations.StepKeepsRegistersLegal := by
  intro s t hs h
  rw [registersLegal_iff] at hs ⊢
  obtain e | ⟨strap, e⟩ | ⟨c, i, e⟩ | ⟨c, e⟩ := step_cases s <;> rw [e] at h
  · cases h; exact hs
  · cases h; exact legal_hardReset s strap
  · exact exec_legal (hs.present c) h
  · cases h; exact (hs.present c).answer _

/-- Settles O10: no answer is a refusal, and every command is safe. -/
theorem onlySquareStopsOnLegalRegisters : Obligations.OnlySquareStopsOnLegalRegisters := by
  refine ⟨fun s r => ?_, fun s f hs wf h => ?_⟩
  · obtain e | ⟨strap, e⟩ | ⟨c, i, e⟩ | ⟨c, e⟩ := step_cases s <;> rw [e]
    · exact nofun
    · exact nofun
    · exact exec_ne_refused i _ r
    · exact nofun
  · rw [registersLegal_iff] at hs
    obtain e | ⟨strap, e⟩ | ⟨c, i, e⟩ | ⟨c, e⟩ := step_cases s <;> rw [e] at h
    · cases h
    · cases h
    · obtain ⟨u, hfault⟩ := command_fault_of_exec h
      obtain ⟨-, -, hsquare⟩ := safe_commandOf s.cfg i (s.present c) (hs.present c) rfl
      exact hsquare f u wf hfault
    · cases h

end Sys2Proof.Machine
end

section
/-! A Clock that is armed and ticked (spec/40_clock.md R100, R102), the Filter's operations (44_filter.md R140,
R141), and the bound of the samples (00_scope.md R13). -/

namespace Sys2Proof.Machine

-- As in Sys2Proof/Tests/Slice0.lean: a thread for each small proof takes the joined text's memory.
set_option Elab.async false

variable {α : Type}

/-! ### An armed Clock -/

section
variable {k : Fin 4} {inst : Byte} {s : State}

theorem tickFlags_succ (hk : inst.toNat = k.val) (hs : s.testEn = true) (n : Nat) :
    tickFlags inst (n + 1) s = (s.clock k).ticked.isReady ::
      tickFlags inst n ((s.setClock k (s.clock k).ticked).answer ⟨.ok, (s.clock k).ticked.isReady, 0⟩) := by
  rw [tickFlags, exec_clkTick hk hs]
  rfl

/-- A Clock that is `n + 1` ticks before its deadline, a deadline of 0 taken as 1. -/
def TicksLeft (c : Clock) (n : Nat) : Prop := c.tick.toNat + n + 1 = max c.deadline.toNat 1

theorem TicksLeft.ticked_tick {c : Clock} {n : Nat} (h : TicksLeft c n) :
    (c.tick.toNat + 1) % 2 ^ 32 = c.tick.toNat + 1 := by
  have hd := c.deadline.isLt
  rw [TicksLeft] at h
  exact Nat.mod_eq_of_lt (by omega)

theorem TicksLeft.ticked {c : Clock} {n : Nat} (h : TicksLeft c (n + 1)) : TicksLeft c.ticked n := by
  have htick := h.ticked_tick
  rw [TicksLeft] at h
  rw [ticked_eq, htick, TicksLeft, BitVec.toNat_ofNat, htick]
  dsimp only
  omega

/-- It fires on the last of them. -/
theorem TicksLeft.ready_iff {c : Clock} {n : Nat} (h : TicksLeft c n) : c.ticked.isReady = decide (n = 0) := by
  have htick := h.ticked_tick
  rw [TicksLeft] at h
  rw [ticked_isReady_eq_decide, htick]
  exact decide_eq_decide.mpr (by omega)

theorem tickFlags_of_ticksLeft (hk : inst.toNat = k.val) {n : Nat} (hs : s.testEn = true)
    (h : TicksLeft (s.clock k) n) : tickFlags inst (n + 1) s = List.replicate n false ++ [true] := by
  induction n generalizing s with
  | zero =>
    rw [tickFlags_succ hk hs, h.ready_iff]
    rfl
  | succ n ih =>
    have hnext : TicksLeft (s.setClock k (s.clock k).ticked |>.clock k) n := by
      rw [setClock_clock_self]
      exact h.ticked
    rw [tickFlags_succ hk hs, h.ready_iff, ih (s := (s.setClock k (s.clock k).ticked).answer _) hs hnext]
    rfl

end

/-- Settles O24: an armed Clock has its deadline's ticks left, one if the deadline is 0. -/
theorem armedClockFiresOnItsDthTick : Obligations.ArmedClockFiresOnItsDthTick := by
  intro k inst s t hk hs h
  rw [exec_clkDeadline hk hs] at h
  cases h
  obtain ⟨n, hn, hmax⟩ : ∃ n, s.arg1.toNat - 1 = n ∧ max s.arg1.toNat 1 = n + 1 := ⟨_, rfl, by omega⟩
  have hleft : TicksLeft ((s.setClock k ⟨0, s.arg1⟩).clock k) n := by
    rw [setClock_clock_self, TicksLeft, hmax]
    exact congrArg (· + 1) (Nat.zero_add n)
  rw [hn, hmax]
  exact tickFlags_of_ticksLeft (s := (s.setClock k ⟨0, s.arg1⟩).answer _) hk hs hleft

/-! ### The Filter's operations -/

/-- FLT.NEW after its two draws; the ranges are those of the configuration before the first. -/
theorem fltNew_run {E : Env} {sr : Word} {s u v : State} {cutoff q : F32}
    (hcutoff : rngF32 E s.cfg.cutoffLo s.cfg.cutoffHi s = .ok cutoff u)
    (hq : rngF32 E s.cfg.qLo s.cfg.qHi u = .ok q v) :
    fltNew E sr s = .ok () (v.setFlt (newFilter E.num cutoff q sr)) := by
  rw [fltNew, readState_bind, bind_ok hcutoff, bind_ok hq, updateState_run]

/-- The Filter as R140 writes it out. -/
theorem newFilter_eq (N : Numerics) (cutoff q : F32) (sr : Word) :
    let c := fdiv N (fmul N fTwo cutoff) (u2f sr)
    let p := fmul N c (fsub N 0x3FE66666 (fmul N 0x3F4CCCCD c))
    let t1 := fmul N (fsub N fOne p) 0x3FB1709B
    let t2 := fadd N fTwelve (fmul N t1 t1)
    newFilter N cutoff q sr =
      { cutoff := cutoff, q := q, p := p
        k := fsub N (fmul N fTwo (numSin N (fdiv N (fmul N c fPi) fTwo))) fOne
        res := fdiv N (fmul N q (fadd N t2 (fmul N fSix t1))) (fsub N t2 (fmul N fSix t1))
        px := 0x00000000, s := #v[0x00000000, 0x00000000, 0x00000000, 0x00000000]
        ps := #v[0x00000000, 0x00000000, 0x00000000] } :=
  rfl

/-- Settles O35: both draws succeed because their ranges are ranges. -/
theorem fltNewDerivesCoefficients : Obligations.FltNewDerivesCoefficients := by
  intro s hs hcutoff hq
  have hdraw := rngF32_run Config.env hcutoff s
  have hdraw' := rngF32_run Config.env hq (s.setRng (Config.env.rng.f32 s.rng s.cfg.cutoffLo s.cfg.cutoffHi).2)
  have hnew := exec_fltNew hs (fltNew_run hdraw hdraw')
  rw [newFilter_eq] at hnew
  exact ⟨_, _, _, _, hdraw, hdraw', hnew⟩

/-- Settles O36: the cascade reads the history before it is written. -/
theorem fltGenRunsTheCascade : Obligations.FltGenRunsTheCascade := by
  intro s hs N f x n0 n1 n2 n3
  have hstep : filterAfter N f s.argLow = { f with px := x, ps := #v[n0, n1, n2], s := #v[n0, n1, n2, n3] } := rfl
  have hsample : (filterAfter N f s.argLow).s[3] = n3 := by simp [hstep]
  rw [exec_fltGen hs, hsample, hstep]

/-! ### The samples -/

/-- A sample is the output of one step of the Filter. -/
def YieldsFilterStep (N : Numerics) (m : M F32) : Prop :=
  ∀ s y u, m s = .ok y u → ∃ input, u.syn.flt = filterAfter N s.syn.flt input ∧ y = u.syn.flt.s[3]

theorem yieldsFilterStep_fltGen (E : Env) (x : F32) : YieldsFilterStep E.num (fltGen E x) := by
  intro s y u h
  obtain ⟨hy, hu⟩ := EStateM.Result.ok.inj ((fltGen_run E x s).symm.trans h)
  rw [← hu, ← hy, setFlt_syn_flt]
  exact ⟨x, rfl, rfl⟩

/-- No register of `V` is in `W`. -/
def Apart (V W : Reg → Bool) : Prop := ∀ r, V r = true → W r = false

theorem apart_of_allRegs {V W : Reg → Bool} (h : ∀ r ∈ allRegs, V r = true → W r = false) : Apart V W :=
  fun r => h r (mem_allRegs r)

/-- A frame leaves what its set of registers is apart from. -/
theorem Frame.reads_eq {V W : Reg → Bool} {d : Bool} {s t : State} (h : Frame W d s t) (hW : Apart V W) :
    ∀ r, V r = true → r.read t = r.read s :=
  fun r hr => h.regs r (hW r hr)

/-- The Filter is what its registers read. -/
theorem flt_eq_of_reads {s t : State} (same : ∀ r, writesFilter r = true → r.read t = r.read s) :
    t.syn.flt = s.syn.flt := by
  have hstages : t.syn.flt.s = s.syn.flt.s := Vector.ext fun m hm => same (.fltS ⟨m, hm⟩) rfl
  have hinputs : t.syn.flt.ps = s.syn.flt.ps := Vector.ext fun m hm => same (.fltPs ⟨m, hm⟩) rfl
  have hcutoff : t.syn.flt.cutoff = s.syn.flt.cutoff := same .fltCutoff rfl
  have hq : t.syn.flt.q = s.syn.flt.q := same .fltQ rfl
  have hres : t.syn.flt.res = s.syn.flt.res := same .fltRes rfl
  have hp : t.syn.flt.p = s.syn.flt.p := same .fltP rfl
  have hk : t.syn.flt.k = s.syn.flt.k := same .fltK rfl
  have hpx : t.syn.flt.px = s.syn.flt.px := same .fltPx rfl
  calc t.syn.flt = ⟨t.syn.flt.cutoff, t.syn.flt.q, t.syn.flt.res, t.syn.flt.p, t.syn.flt.k, t.syn.flt.px,
        t.syn.flt.s, t.syn.flt.ps⟩ := rfl
    _ = s.syn.flt := by rw [hcutoff, hq, hres, hp, hk, hpx, hstages, hinputs]

/-- What runs before the Filter's step leaves the Filter. -/
theorem YieldsFilterStep.after {N : Numerics} {W : Reg → Bool} {d : Bool} {x : M α} {f : α → M F32}
    (hx : Writes W d x) (hW : Apart writesFilter W) (hf : ∀ a, YieldsFilterStep N (f a)) :
    YieldsFilterStep N (x >>= f) := by
  intro s y v h
  obtain ⟨a, u, hfirst, hrest⟩ := bind_ok_iff.mp h
  have hflt : u.syn.flt = s.syn.flt := flt_eq_of_reads (((hx s).1 a u hfirst).reads_eq hW)
  rw [← hflt]
  exact hf a u y v hrest

theorem yieldsFilterStep_synNext (E : Env) : YieldsFilterStep E.num (synNext E) :=
  YieldsFilterStep.after (writes_clkTick 3) (apart_of_allRegs (by decide)) fun _ =>
    YieldsFilterStep.after (writes_opNext E 0) (apart_of_allRegs (by decide)) fun _ =>
    YieldsFilterStep.after (writes_opNext E 1) (apart_of_allRegs (by decide)) fun _ =>
    YieldsFilterStep.after (writes_opNext E 2) (apart_of_allRegs (by decide)) fun _ =>
    YieldsFilterStep.after (writes_adsrNext E) (apart_of_allRegs (by decide)) fun _ => yieldsFilterStep_fltGen E _

theorem writes_playEvent (E : Env) (ev : Option (Word × F32)) : Writes writesPlay true (playEvent E ev) := by
  cases ev with
  | none => exact Writes.pure _ _ _
  | some ev => exact writes_synPlay E ev.2 ev.1

theorem yieldsFilterStep_engNext (E : Env) : YieldsFilterStep E.num (engNext E) := by
  intro s y u h
  cases hready : s.ready with
  | false => rw [engNext_run_not_ready E hready] at h; cases h
  | true =>
    rw [engNext_run E hready] at h
    exact YieldsFilterStep.after (writes_seqNext E) (apart_of_allRegs (by decide)) (fun ev =>
      YieldsFilterStep.after (writes_playEvent E ev) (apart_of_allRegs (by decide)) fun _ =>
        yieldsFilterStep_synNext E) s y u h

/-- The Filter's step is bounded by the hyperbolic tangent of its last stage. -/
theorem magBits_filterAfter_le_one {N : Numerics} {f : Filter} {x : F32}
    (h : isNaN (filterStage N f (filterAfter N f x).s[2] f.ps[2] f.s[3]) = false) :
    magBits (filterAfter N f x).s[3] ≤ 0x3F800000 := by
  rw [filterAfter_sample]
  exact magBits_numTanh_le_one N h

/-- A command that yields a sample answers OK with the Filter's output. -/
theorem sample_of_exec {i : Instr} {m : State → M F32} {s t : State}
    (hi : commandOf i = readState >>= fun s => m s >>= fun y => pure (Answer.ofWord y))
    (hm : ∀ s, YieldsFilterStep Config.env.num (m s)) (h : exec i s = .next t) (hok : AnsweredOk t) :
    ∃ input, t.syn.flt = filterAfter Config.env.num s.syn.flt input ∧
      t.resp = some ⟨.ok, false, t.syn.flt.s[3].setWidth 64⟩ := by
  obtain ⟨_, _, hresp⟩ := hok
  obtain ⟨-, -, rfl⟩ | ⟨a, u, hrun, rfl⟩ | ⟨e, u, hrun, rfl⟩ := exec_next_cases h
  · cases hresp
  · rw [hi, readState_bind] at hrun
    obtain ⟨y, v, hy, hpure⟩ := bind_ok_iff.mp hrun
    cases hpure
    obtain ⟨input, hflt, rfl⟩ := hm s s y u hy
    exact ⟨input, hflt, rfl⟩
  · obtain ⟨hcheck, -⟩ | ⟨rfl, -⟩ := errorSource_of_command hrun <;> cases hresp
    exact hcheck.elim

/-- Settles O37: the three commands end with the Filter's step, and what runs before it leaves the Filter. -/
theorem samplesAreBounded : Obligations.SamplesAreBounded := by
  intro i s t hi h hok
  have hsample : ∃ input, t.syn.flt = filterAfter Config.env.num s.syn.flt input ∧
      t.resp = some ⟨.ok, false, t.syn.flt.s[3].setWidth 64⟩ := by
    obtain rfl | rfl | rfl := hi
    · exact sample_of_exec rfl (fun s => yieldsFilterStep_fltGen Config.env s.argLow) h hok
    · exact sample_of_exec (m := fun _ => synNext Config.env) rfl (fun _ => yieldsFilterStep_synNext _) h hok
    · exact sample_of_exec (m := fun _ => engNext Config.env) rfl (fun _ => yieldsFilterStep_engNext _) h hok
  obtain ⟨input, hflt, hresp⟩ := hsample
  refine ⟨input, hflt, hresp, fun hnan => ?_⟩
  rw [hflt] at hnan ⊢
  exact magBits_filterAfter_le_one hnan

end Sys2Proof.Machine
end

section
/-! The engine's invariant (spec/60_exceptions.md R206; 47_engine.md R175 to R177): ENG.NEW establishes it, ENG.NEXT
answers OK from it and keeps it, and the first sample starts the first Note. -/

namespace Sys2Proof.Machine

-- As in Sys2Proof/Tests/Slice0.lean: a thread for each small proof takes the joined text's memory.
set_option Elab.async false

/-! ### The elements behind the registers -/

theorem clock_eq_of_reads {s t : State} {k : Fin 4} (htick : Reg.read (.clkTick k) t = Reg.read (.clkTick k) s)
    (hdeadline : Reg.read (.clkDeadline k) t = Reg.read (.clkDeadline k) s) : t.clock k = s.clock k := by
  have h1 : (t.clock k).tick = (s.clock k).tick := htick
  have h2 : (t.clock k).deadline = (s.clock k).deadline := hdeadline
  calc t.clock k = ⟨(t.clock k).tick, (t.clock k).deadline⟩ := rfl
    _ = s.clock k := by rw [h1, h2]

/-- The Sequence is what its registers read. -/
theorem seq_eq_of_reads {s t : State} (same : ∀ r, writesSequence r = true → r.read t = r.read s) :
    t.seq = s.seq := by
  have note (i : Fin 8) : t.note i = s.note i := by
    have hdur : (t.note i).dur = (s.note i).dur := eq_of_setWidth_eq (by decide) (same (.noteDur i) rfl)
    have hfreq : (t.note i).freq = (s.note i).freq := same (.noteFreq i) rfl
    calc t.note i = ⟨(t.note i).dur, (t.note i).freq⟩ := rfl
      _ = s.note i := by rw [hdur, hfreq]
  have hnote : t.seq.note = s.seq.note := Vector.ext fun i hi => note ⟨i, hi⟩
  have htempo : t.seq.tempo = s.seq.tempo := same .seqTempo rfl
  have hscale : t.seq.scale = s.seq.scale := eq_of_setWidth_eq (by decide) (same .seqScale rfl)
  have hlength : t.seq.length = s.seq.length := eq_of_setWidth_eq (by decide) (same .seqLength rfl)
  have hcursor : t.seq.cursor = s.seq.cursor := eq_of_setWidth_eq (by decide) (same .seqCursor rfl)
  calc t.seq = ⟨t.seq.tempo, t.seq.scale, t.seq.length, t.seq.cursor, t.seq.note⟩ := rfl
    _ = s.seq := by rw [htempo, hscale, hlength, hcursor, hnote]

/-- An Operator is what its registers read. -/
theorem oper_eq_of_reads {s t : State} {j : Fin 3} (same : ∀ r, ofOperator j r = true → r.read t = r.read s) :
    t.oper j = s.oper j := by
  have self : decide (j = j) = true := decide_eq_true rfl
  have hsr : (t.oper j).sr = (s.oper j).sr := same (.opSr j) self
  have hfreq : (t.oper j).freq = (s.oper j).freq := same (.opFreq j) self
  have hratio : (t.oper j).ratio = (s.oper j).ratio := same (.opRatio j) self
  have hwave : (t.oper j).wave = (s.oper j).wave := eq_of_setWidth_eq (by decide) (same (.opWave j) self)
  have hphase : (t.oper j).phase = (s.oper j).phase := same (.opPhase j) self
  calc t.oper j = ⟨(t.oper j).sr, (t.oper j).freq, (t.oper j).ratio, (t.oper j).wave, (t.oper j).phase⟩ := rfl
    _ = s.oper j := by rw [hsr, hfreq, hratio, hwave, hphase]

/-- The ADSR is what its registers read. -/
theorem adsr_eq_of_reads {s t : State} (same : ∀ r, writesAdsr r = true → r.read t = r.read s) :
    t.syn.adsr = s.syn.adsr := by
  have hattack : t.syn.adsr.attack = s.syn.adsr.attack := same .adsrAttack rfl
  have hdecay : t.syn.adsr.decay = s.syn.adsr.decay := same .adsrDecay rfl
  have hsustain : t.syn.adsr.sustain = s.syn.adsr.sustain := same .adsrSustain rfl
  have hrelease : t.syn.adsr.release = s.syn.adsr.release := same .adsrRelease rfl
  have hvalue : t.syn.adsr.value = s.syn.adsr.value := same .adsrValue rfl
  have hlength : t.syn.adsr.length = s.syn.adsr.length := same .adsrLength rfl
  have hdelta : t.syn.adsr.delta = s.syn.adsr.delta := same .adsrDelta rfl
  have hstate : t.syn.adsr.state = s.syn.adsr.state := eq_of_setWidth_eq (by decide) (same .adsrState rfl)
  calc t.syn.adsr = ⟨t.syn.adsr.attack, t.syn.adsr.decay, t.syn.adsr.sustain, t.syn.adsr.release, t.syn.adsr.value,
        t.syn.adsr.length, t.syn.adsr.delta, t.syn.adsr.state⟩ := rfl
    _ = s.syn.adsr := by rw [hattack, hdecay, hsustain, hrelease, hvalue, hlength, hdelta, hstate]

/-- The Synth is what its registers read. -/
theorem syn_eq_of_reads {s t : State} (same : ∀ r, writesVoice r = true → r.read t = r.read s) : t.syn = s.syn := by
  have hop : t.syn.op = s.syn.op :=
    Vector.ext fun j hj => oper_eq_of_reads (j := ⟨j, hj⟩) fun r hr => same r (ofOperator_le _ r hr)
  have hadsr := adsr_eq_of_reads fun r hr => same r (writesAdsr_le r hr)
  have hflt := flt_eq_of_reads fun r hr => same r (writesFilter_le r hr)
  have hsr : t.syn.sr = s.syn.sr := same .synSr rfl
  calc t.syn = ⟨t.syn.sr, t.syn.op, t.syn.adsr, t.syn.flt⟩ := rfl
    _ = s.syn := by rw [hsr, hop, hadsr, hflt]

/-! ### The parts of the invariant -/

/-- What the invariant says of the Sequence. -/
structure SequenceReady (s : State) : Prop where
  inv : SequenceInv s
  scale : s.seq.scale.toNat ≤ 20
  notes : NotesInScale s

/-- What the invariant says of an Operator, under the configuration `c`. -/
structure OperReady (c : Cfg) (o : Oper) : Prop where
  wave : o.wave ≠ 3
  sr : o.sr ≠ 0
  square : o.wave = 1 → squareSafe c o.ratio

/-- What the invariant says of the Synth. -/
structure VoiceReady (s : State) : Prop where
  sr : s.syn.sr ≠ 0
  adsr : s.syn.adsr.state.toNat ≤ 4
  oper : ∀ j, OperReady s.cfg (s.oper j)

theorem engineInv_iff {s : State} : EngineInv s ↔ s.ready = true ∧ CfgWellFormed s.cfg ∧ SequenceReady s ∧
    VoiceReady s ∧ ((s.clock 1).fires = true ∨ ∀ j, OperatorRuns s j) := by
  constructor
  · rintro ⟨hready, hcfg, hseq, hscale, hnotes, hsr, hadsr, hoper, hrun⟩
    exact ⟨hready, hcfg, ⟨hseq, hscale, hnotes⟩,
      ⟨hsr, hadsr, fun j => have ⟨hwave, hrate, hsquare⟩ := hoper j; ⟨hwave, hrate, hsquare⟩⟩, hrun⟩
  · rintro ⟨hready, hcfg, ⟨hseq, hscale, hnotes⟩, ⟨hsr, hadsr, hoper⟩, hrun⟩
    exact ⟨hready, hcfg, hseq, hscale, hnotes, hsr, hadsr,
      fun j => have ⟨hwave, hrate, hsquare⟩ := hoper j; ⟨hwave, hrate, hsquare⟩, hrun⟩

/-- The Sequence's part reads the Sequence and the configuration alone. -/
theorem SequenceReady.congr {s t : State} (h : SequenceReady s) (hseq : t.seq = s.seq) (hcfg : t.cfg = s.cfg) :
    SequenceReady t := by
  obtain ⟨hinv, hscale, hnotes⟩ := h
  simp only [SequenceInv, NotesInScale, State.note] at hinv hnotes
  refine ⟨?_, hseq ▸ hscale, ?_⟩
  · simp only [SequenceInv, State.note, hseq]
    exact hinv
  · simp only [NotesInScale, State.note, hseq, hcfg]
    exact hnotes

/-- The Synth's part reads the Synth and the configuration alone. -/
theorem VoiceReady.congr {s t : State} (h : VoiceReady s) (hsyn : t.syn = s.syn) (hcfg : t.cfg = s.cfg) :
    VoiceReady t := by
  obtain ⟨hsr, hadsr, hoper⟩ := h
  refine ⟨hsyn ▸ hsr, hsyn ▸ hadsr, fun j => ?_⟩
  have hj : t.oper j = s.oper j := by rw [State.oper, State.oper, hsyn]
  rw [hj, hcfg]
  exact hoper j

/-! ### The voice -/

section
variable {s : State}

theorem waveCode_eq_one {w : WaveKind} (h : waveCode w = 1) : w = .square := by
  cases w with
  | square => rfl
  | sine | saw => exact absurd h (by decide)

theorem waveCode_ne_three (w : WaveKind) : waveCode w ≠ 3 := by
  cases w <;> decide

/-- OP.RANDOM ends normally with an Operator that is ready. -/
theorem opRandom_ready (wf : CfgWellFormed s.cfg) {sr : Word} (hsr : sr ≠ 0) (E : Env) (j : Fin 3) :
    ∃ st o, OperReady s.cfg o ∧ opRandom E j sr s = .ok () ((s.setRng st).setOper j o) := by
  obtain ⟨k, ratio, st, -, hlo, hhi, hrun⟩ | ⟨hempty, -⟩ | ⟨k, _, hrange, -⟩ := opRandom_cases E j sr s
  · have hcount := wf.counts.2.2
    have hsquare (hw : waveCode (poolEntry s.cfg k).wave = 1) : squareSafe s.cfg ratio :=
      wf.square ⟨k.val, hcount ▸ k.isLt⟩ (waveCode_eq_one hw) ratio ⟨hlo, hhi⟩
    exact ⟨st, _, ⟨waveCode_ne_three _, hsr, hsquare⟩, hrun⟩
  · obtain ⟨k, hk⟩ := wf.exists_weight
    exact absurd (hempty k) hk
  · exact absurd (wf.ratioRange k) (by simp [hrange])

/-- ADSR.NEW ends normally with the envelope Off. -/
theorem adsrNew_off (wf : CfgWellFormed s.cfg) (E : Env) : ∃ st a, a.state = 0 ∧
    adsrNew E s = .ok () (((s.setRng st).setAdsr a).setClock 2 ⟨0, 0⟩) :=
  ⟨_, _, rfl, adsrNew_run (rngF32_run E wf.att _) (rngF32_run E wf.dec _) (rngF32_run E wf.sus _)
    (rngF32_run E wf.rel _)⟩

/-- SYN.NEW ends normally with a voice that is ready. -/
theorem synNew_ready (wf : CfgWellFormed s.cfg) {sr : Word} (hsr : sr ≠ 0) (E : Env) :
    ∃ t, synNew E sr s = .ok () t ∧ VoiceReady t := by
  let s0 := (s.setSynSr sr).setOper 0 (newOper sr fOne .sine)
  obtain ⟨r1, o1, ho1, hfirst⟩ := opRandom_ready (s := s0) wf hsr E 1
  let s1 := (s0.setRng r1).setOper 1 o1
  obtain ⟨r2, o2, ho2, hsecond⟩ := opRandom_ready (s := s1) wf hsr E 2
  let s2 := (s1.setRng r2).setOper 2 o2
  obtain ⟨r3, a, ha, hadsr⟩ := adsrNew_off (s := s2) wf E
  let s3 := ((s2.setRng r3).setAdsr a).setClock 2 ⟨0, 0⟩
  obtain ⟨r4, f, hflt⟩ := fltNew_ok s3 wf E sr
  have hcarrier : OperReady s.cfg (newOper sr fOne .sine) :=
    ⟨waveCode_ne_three .sine, hsr, fun h => absurd (waveCode_eq_one (w := .sine) h) nofun⟩
  have hoper (j : Fin 3) : OperReady s.cfg (s2.oper j) := by
    rw [setOper_oper, setRng_oper, setOper_oper, setRng_oper, setOper_oper]
    fin_cases j
    · exact hcarrier
    · exact ho1
    · exact ho2
  have hready : VoiceReady ((s3.setRng r4).setFlt f) := ⟨hsr, ha ▸ Nat.zero_le 4, hoper⟩
  have hd := rngU32_run E wf.synMut ((s3.setRng r4).setFlt f)
  exact ⟨_, synNew_run hfirst hsecond hadsr hflt hd, hready.congr rfl rfl⟩

/-- A mutation that may be due ends normally with a voice that is ready. -/
theorem synMutate_ready (wf : CfgWellFormed s.cfg) (h : VoiceReady s) (E : Env) (due : Bool) :
    ∃ t, doWhen due (synMutate E) s = .ok () t ∧ VoiceReady t ∧ t.cfg = s.cfg := by
  cases due with
  | false => exact ⟨s, rfl, h, rfl⟩
  | true =>
    have hk := rngIndex_run E (by decide : 0 < 2) s
    generalize indexAnswer E.rng s.rng 2 _ = k, (E.rng.index s.rng 2).2 = st at hk
    obtain ⟨r, o, ho, hop⟩ := opRandom_ready (s := s.setRng st) wf h.sr E (modulator k)
    refine ⟨_, synMutate_run hk hop (rngU32_run E wf.synMut _), ⟨h.sr, h.adsr, fun j => ?_⟩, rfl⟩
    show OperReady s.cfg (State.oper (((s.setRng st).setRng r).setOper (modulator k) o) j)
    rw [setOper_oper]
    split
    · exact ho
    · exact h.oper j

/-! ### A note -/

/-- What is at least 1 truncates to at least 1. -/
theorem f2u_ne_zero {x : F32} (h : atLeastOne x) : f2u x ≠ 0 := by
  obtain rfl | h := h
  · decide
  · simp only [fle, Bool.and_eq_true, decide_eq_true_eq] at h
    obtain ⟨⟨-, hfinite⟩, hle⟩ := h
    have hone : signedUnits fOne = 2 ^ 149 := by decide
    rw [hone] at hle
    have hfin : magBits x < 0x7F800000 := by simpa [isFinite] using hfinite
    have hnan : isNaN x = false := decide_eq_false (by omega)
    have hinf : isInf x = false := beq_eq_false_iff_ne.mpr (by omega)
    cases hsign : signBit x with
    | true =>
      rw [signedUnits, hsign, if_pos rfl] at hle
      omega
    | false =>
      have hunits : 2 ^ 149 ≤ units x := by
        rw [signedUnits, hsign, if_neg (by decide)] at hle
        exact_mod_cast hle
      have hquotient : 1 ≤ units x / 2 ^ 149 := (Nat.le_div_iff_mul_le (by decide)).mpr (by rwa [Nat.one_mul])
      intro hzero
      rw [f2u, hnan, hsign, hinf] at hzero
      have hnat := congrArg BitVec.toNat hzero
      simp only [Bool.or_self, Bool.false_eq_true, if_false, BitVec.toNat_ofNat] at hnat
      rw [Nat.mod_eq_of_lt (by omega), show (0 : Word).toNat = 0 from rfl] at hnat
      omega

/-- The Operator's frequency is the base times its ratio. -/
def Tuned (N : Numerics) (base : F32) (o : Oper) : Prop := o.freq = fmul N base o.ratio

/-- An Operator that is ready runs on a tone of a scale. -/
theorem OperReady.runs {s : State} {j : Fin 3} (h : OperReady s.cfg (s.oper j)) {N : Numerics} {f : F32}
    {scale : BitVec 5} {tone : Fin 8} (htone : scaleTone s.cfg scale tone = some f) (hf : Tuned N f (s.oper j)) :
    OperatorRuns s j := by
  refine ⟨h.wave, fun hw => ⟨h.sr, ?_⟩⟩
  have hscale : scale.toNat < 21 := by
    by_contra hno
    rw [scaleTone_none hno] at htone
    cases htone
  rw [scaleTone_some hscale] at htone
  cases htone
  rw [hf]
  exact f2u_ne_zero (h.square hw N ⟨scale.toNat, hscale⟩ tone)

/-- What the start of a note leaves: the envelope in Attack over the note's length, every Operator at its ratio. -/
structure NoteStarted (N : Numerics) (ds : Word) (f : F32) (t : State) : Prop where
  length : t.syn.adsr.length = ds
  tuned : ∀ j, Tuned N f (t.oper j)

/-- SYN.PLAY ends normally with a voice that is ready and its note started. -/
theorem synPlay_ready (wf : CfgWellFormed s.cfg) (h : VoiceReady s) (E : Env) (f : F32) (ds : Word) :
    ∃ t, synPlay E f ds s = .ok () t ∧ VoiceReady t ∧ NoteStarted E.num ds f t := by
  obtain ⟨u, hmutate, hu, -⟩ := synMutate_ready wf h E (s.clock 3).isReady
  have hrun := (synPlay_run E f ds s).trans ((bind_ok hmutate).trans (startNote_run E f ds u))
  have hoper (j : Fin 3) : (notePlayed E.num f ds u).oper j =
      { u.oper j with freq := fmul E.num f (u.oper j).ratio } := by
    fin_cases j <;> simp [notePlayed]
  refine ⟨_, hrun, ⟨hu.sr, Nat.le_of_ble_eq_true rfl, fun j => ?_⟩, rfl, fun j => ?_⟩
  · rw [hoper]
    obtain ⟨hwave, hsr, hsquare⟩ := hu.oper j
    exact ⟨hwave, hsr, hsquare⟩
  · rw [hoper]
    rfl

/-! ### A sample -/

theorem EnvelopeAdvances.legal {s t : State} (h : EnvelopeAdvances s t) (hs : s.syn.adsr.state.toNat ≤ 4) :
    t.syn.adsr.state.toNat ≤ 4 := by
  obtain h | ⟨-, h⟩ | ⟨-, h⟩ | ⟨-, h⟩ | ⟨-, h⟩ := h
  · exact h ▸ hs
  all_goals rw [h]; decide

/-- The parts of an Operator that a sample leaves. -/
theorem Frame.oper_of_voiceStep {d : Bool} {s t : State} (h : Frame writesVoiceStep d s t) (j : Fin 3) :
    t.oper j = { s.oper j with phase := (t.oper j).phase } := by
  have apart : ∀ j : Fin 3, writesVoiceStep (.opSr j) = false ∧ writesVoiceStep (.opFreq j) = false ∧
      writesVoiceStep (.opRatio j) = false ∧ writesVoiceStep (.opWave j) = false := by decide
  obtain ⟨hsr, hfreq, hratio, hwave⟩ := apart j
  have hsr : (t.oper j).sr = (s.oper j).sr := h.regs _ hsr
  have hfreq : (t.oper j).freq = (s.oper j).freq := h.regs _ hfreq
  have hratio : (t.oper j).ratio = (s.oper j).ratio := h.regs _ hratio
  have hwave : (t.oper j).wave = (s.oper j).wave := eq_of_setWidth_eq (by decide) (h.regs _ hwave)
  dsimp only
  rw [← hsr, ← hfreq, ← hratio, ← hwave]

/-- SYN.NEXT ends normally, if the Operators run, with a voice that is ready and Operators that run. -/
theorem synNext_ready (h : VoiceReady s) (hruns : ∀ j, OperatorRuns s j) (E : Env) :
    ∃ y t, synNext E s = .ok y t ∧ VoiceReady t ∧ ∀ j, OperatorRuns t j := by
  choose o ho using fun j => opNext_ok E (hruns j)
  obtain ⟨b, d, hbd⟩ := adsrAfter_ok (N := E.num) h.adsr (s.clock 2)
  have hrun := (synNext_run ho hbd).trans (fltGen_run E _ _)
  have hframe := (writes_synNext E s).1 _ _ hrun
  have hadsr := (synNext_advances E s).1 _ _ hrun
  refine ⟨_, _, hrun, ⟨h.sr, hadsr.legal h.adsr, fun j => ?_⟩, fun j => ?_⟩
  · obtain ⟨hwave, hsr, hsquare⟩ := h.oper j
    rw [hframe.oper_of_voiceStep j]
    exact ⟨hwave, hsr, hsquare⟩
  · rw [OperatorRuns, hframe.oper_of_voiceStep j]
    exact hruns j

end

end Sys2Proof.Machine
end

section
/-! The engine's invariant, from its parts: the Sequence between two samples, and ENG.NEW and ENG.NEXT as a whole
(spec/60_exceptions.md R206; 47_engine.md R175 to R177). -/

namespace Sys2Proof.Machine

-- As in Sys2Proof/Tests/Slice0.lean: a thread for each small proof takes the joined text's memory.
set_option Elab.async false

/-! ### The Sequence -/

section
variable {s : State}

theorem lastSlot_succ {length : BitVec 4} (h : length.toNat ∈ [3, 4, 5, 7, 8]) :
    ((length - 1).setWidth 3).toNat + 1 = length.toNat := by
  have all : ∀ l : BitVec 4, l.toNat ∈ [3, 4, 5, 7, 8] → ((l - 1).setWidth 3).toNat + 1 = l.toNat := by decide
  exact all length h

/-- SEQ.NEW ends normally with the Sequence ready, the cursor on the last slot and the step Clock about to fire. -/
theorem seqNew_ready (wf : CfgWellFormed s.cfg) (E : Env) (sr : Word) : ∃ t, seqNew E sr s = .ok () t ∧
    SequenceReady t ∧ t.clock 1 = ⟨0, 0⟩ ∧ t.seq.cursor.toNat + 1 = t.seq.length.toNat := by
  obtain ⟨hscales, hmetres, -⟩ := wf.counts
  have hbpm := rngF32_run E wf.tempo s
  generalize f32Answer E.rng s.rng _ _ = bpm, (E.rng.f32 s.rng _ _).2 = r1 at hbpm
  have hk := rngIndex_run E (n := s.cfg.nScales.val) (hscales ▸ by decide) (s.setRng r1)
  generalize indexAnswer E.rng _ _ _ = k, (E.rng.index _ s.cfg.nScales.val).2 = r2 at hk
  have hm := rngIndex_run E (n := s.cfg.nMetres.val) (hmetres ▸ by decide) ((s.setRng r1).setRng r2)
  generalize indexAnswer E.rng _ _ _ = m, (E.rng.index _ s.cfg.nMetres.val).2 = r3 at hm
  obtain ⟨w, hw, hfill, hpath⟩ := fillNotes_path E (List.finRange 8) (s := (s.setRng r3).setSeq { s.seq with
    tempo := tempoSamples E.num bpm sr, scale := BitVec.ofNat 5 k.val, length := metreAt s.cfg m })
    (drawnScale_lt k) (metreAt_range s.cfg m).1
  have hpath (i : Fin 8) : FillsSlot E i (w i.val) (w (i.val + 1)) := by
    simpa using hpath i.val (by simp)
  obtain ⟨⟨r4, notes, hu⟩, hslots⟩ := slotsFilled_of_path hpath 8 le_rfl
  have hscale : (w 8).seq.scale = BitVec.ofNat 5 k.val := by rw [hu, hw]; rfl
  have hlength : (w 8).seq.length = metreAt s.cfg m := by rw [hu, hw]; rfl
  have hrun := seqNew_run hbpm hk hm hfill (rngU32_run E wf.seqMut _)
  refine ⟨_, hrun, ⟨seqNew_establishes hrun, ?_, fun i hi => ?_⟩, setClock_clock_self _ _ _, ?_⟩
  · show (w 8).seq.scale.toNat ≤ 20
    rw [hscale]
    exact Nat.le_of_lt_succ (drawnScale_lt k)
  · obtain ⟨-, -, htone⟩ := (hslots i i.isLt).active hi
    exact htone
  · show (((w 8).seq.length - 1).setWidth 3).toNat + 1 = (w 8).seq.length.toNat
    rw [hlength]
    exact lastSlot_succ (metreAt_mem s.cfg m)

/-- SEQ.MUTATE, if it is due, ends normally with the Sequence ready; it leaves the cursor, the length and the step
Clock. -/
theorem seqMutate_ready (wf : CfgWellFormed s.cfg) (h : SequenceReady s) (E : Env) (due : Bool) :
    ∃ t, doWhen due (seqMutate E) s = .ok () t ∧ SequenceReady t ∧ t.clock 1 = s.clock 1 ∧
      t.seq.cursor = s.seq.cursor ∧ t.seq.length = s.seq.length := by
  cases due with
  | false => exact ⟨s, rfl, h, rfl, rfl, rfl⟩
  | true =>
    obtain ⟨h1, h8⟩ := h.inv.length_range
    obtain ⟨i, n, st, d, tone, -, -, -, -, htone, hrun⟩ | ⟨hone, -⟩ | ⟨hrange, -⟩ | ⟨hscale, -⟩ :=
      seqMutate_cases E s h1 h8
    · have hinv := (seqMutate_keepsInv E s).1 _ _ hrun h.inv
      refine ⟨_, hrun, ⟨hinv, h.scale, fun j hj => ?_⟩, setClock_clock_ne _ 0 _ 1 (by decide), rfl, rfl⟩
      by_cases hij : i = j
      · subst hij
        exact ⟨tone, by simpa using htone⟩
      · simpa [hij] using h.notes j hj
    · obtain ⟨-, hmetre, -⟩ := h.inv
      rw [hone] at hmetre
      exact absurd hmetre (by decide)
    · exact absurd wf.seqMut hrange
    · exact absurd h.scale (Nat.not_le.mpr hscale)

theorem seqStepHalf_quiet (h : (s.clock 1).fires = false) :
    seqStepHalf s = .ok none (s.setClock 1 (s.clock 1).ticked) := by
  refine (bind_ok (clkTick_run 1 s)).trans ?_
  rw [show (s.clock 1).ticked.isReady = false from h]
  rfl

theorem seqStepHalf_fires (h : (s.clock 1).fires = true) (h1 : 1 ≤ s.seq.length.toNat) (h8 : s.seq.length.toNat ≤ 8) :
    ∃ i : Fin 8, i.val = (s.seq.cursor.toNat + 1) % s.seq.length.toNat ∧
      seqStepHalf s = .ok (some ((s.note i).dur.setWidth 32 * s.seq.tempo, (s.note i).freq))
        ((s.setSeq { s.seq with cursor := BitVec.ofNat 3 i.val }).setClock 1
          ⟨0, (s.note i).dur.setWidth 32 * s.seq.tempo⟩) := by
  obtain ⟨i, hi, hstep⟩ := seqStep_run (s.setClock 1 (s.clock 1).ticked) h1 h8
  refine ⟨i, hi, (bind_ok (clkTick_run 1 s)).trans ?_⟩
  rw [show (s.clock 1).ticked.isReady = true from h]
  refine (bind_ok hstep).trans ?_
  exact congrArg _ (setClock_setClock (s.setSeq { s.seq with cursor := BitVec.ofNat 3 i.val }) 1 _ _)

/-- The event of SEQ.NEXT from `s` to `t`: none before the step Clock fires, then the Note of the next slot, with the
step Clock rearmed by its samples. -/
def SequenceEvent (s t : State) : Option (Word × F32) → Prop
  | none => (s.clock 1).fires = false
  | some (ds, f) => ∃ i : Fin 8, i.val = (s.seq.cursor.toNat + 1) % s.seq.length.toNat ∧ t.seq.cursor.toNat = i.val ∧
      t.clock 1 = ⟨0, ds⟩ ∧ ds = (t.note i).dur.setWidth 32 * t.seq.tempo ∧ f = (t.note i).freq

/-- SEQ.NEXT ends normally with the Sequence ready and the event it is due. -/
theorem seqNext_ready (wf : CfgWellFormed s.cfg) (h : SequenceReady s) (E : Env) :
    ∃ ev t, seqNext E s = .ok ev t ∧ SequenceReady t ∧ SequenceEvent s t ev := by
  have h0 : SequenceReady (s.setClock 0 (s.clock 0).ticked) := h.congr rfl rfl
  obtain ⟨u, hmutate, hu, hclock, hcursor, hlength⟩ :=
    seqMutate_ready (s := s.setClock 0 (s.clock 0).ticked) wf h0 E (s.clock 0).ticked.isReady
  have hclock : u.clock 1 = s.clock 1 := hclock.trans (setClock_clock_ne s 0 _ 1 (by decide))
  have hcursor : u.seq.cursor = s.seq.cursor := hcursor
  have hlength : u.seq.length = s.seq.length := hlength
  have hnext := (seqNext_run E s).trans (bind_ok hmutate)
  cases hfires : (s.clock 1).fires with
  | false =>
    have hquiet := hnext.trans (seqStepHalf_quiet (hclock ▸ hfires))
    exact ⟨none, _, hquiet, hu.congr rfl rfl, hfires⟩
  | true =>
    obtain ⟨h1, h8⟩ := hu.inv.length_range
    obtain ⟨i, hi, hstep⟩ := seqStepHalf_fires (hclock ▸ hfires) h1 h8
    have hrun := hnext.trans hstep
    have hinv := (seqNext_keepsInv E s).1 _ _ hrun h.inv
    refine ⟨_, _, hrun, ⟨hinv, hu.scale, hu.notes⟩, i, ?_, ?_, setClock_clock_self _ _ _, rfl, rfl⟩
    · rw [hi, hcursor, hlength]
    · exact Nat.mod_eq_of_lt i.isLt

end

/-! ### ENG.NEW -/

theorem Frame.seq_eq {W : Reg → Bool} {d : Bool} {s t : State} (h : Frame W d s t) (hW : Apart writesSequence W) :
    t.seq = s.seq :=
  seq_eq_of_reads (h.reads_eq hW)

theorem Frame.syn_eq {W : Reg → Bool} {d : Bool} {s t : State} (h : Frame W d s t) (hW : Apart writesVoice W) :
    t.syn = s.syn :=
  syn_eq_of_reads (h.reads_eq hW)

section
variable {s u : State}

/-- The invariant does not read the response. -/
theorem EngineInv.answer {t : State} (h : EngineInv t) (r : Response) : EngineInv (t.answer r) := by
  obtain ⟨hready, hcfg, hseq, hvoice, hruns⟩ := engineInv_iff.mp h
  exact engineInv_iff.mpr ⟨hready, hcfg, hseq.congr rfl rfl, hvoice.congr rfl rfl, hruns⟩

/-- ENG.NEW ends normally with the invariant, the cursor on the last slot and the step Clock about to fire. -/
theorem engNew_ready (wf : CfgWellFormed s.cfg) (E : Env) (seed : DWord) {sr : Word} (hsr : sr ≠ 0) :
    ∃ t, engNew E seed sr s = .ok () t ∧ EngineInv t ∧ t.clock 1 = ⟨0, 0⟩ ∧
      t.seq.cursor.toNat + 1 = t.seq.length.toNat := by
  obtain ⟨u, hseq, hu, hclock, hcursor⟩ :=
    seqNew_ready (s := (s.setReady false).setRng (E.rng.seed seed)) wf E sr
  have hcfg : u.cfg = s.cfg := ((writes_seqNew E sr _).1 _ u hseq).cfg
  have wfu : CfgWellFormed u.cfg := hcfg ▸ wf
  obtain ⟨v, hsyn, hv⟩ := synNew_ready wfu hsr E
  have hframe := (writes_synNew E sr u).1 _ v hsyn
  have hseqv : v.seq = u.seq := hframe.seq_eq (apart_of_allRegs (by decide))
  have hclockv : v.clock 1 = ⟨0, 0⟩ := (hframe.clock_eq rfl rfl).trans hclock
  have wfv : CfgWellFormed v.cfg := hframe.cfg ▸ wfu
  have hfires : ((v.setReady true).clock 1).fires = true := by
    rw [setReady_clock, hclockv]
    decide
  refine ⟨_, engNew_run hseq hsyn, engineInv_iff.mpr ⟨rfl, wfv, ?_, hv.congr rfl rfl, .inl hfires⟩, hclockv, ?_⟩
  · exact hu.congr hseqv hframe.cfg
  · rw [setReady_seq, hseqv]
    exact hcursor

/-- Settles O50: both constructions establish their part, and a Clock armed with 0 is about to fire. -/
theorem engNewEstablishesTheInvariant : Obligations.EngNewEstablishesTheInvariant := by
  intro s wf hsr
  obtain ⟨t, hrun, hinv, -⟩ := engNew_ready wf Config.env s.arg0 hsr
  exact ⟨_, exec_engNew hrun, ⟨_, _, rfl⟩, hinv.answer _⟩

/-! ### ENG.NEXT -/

theorem operatorRuns_congr {j : Fin 3} (h : OperatorRuns s j) (hsyn : u.syn = s.syn) : OperatorRuns u j := by
  have hj : u.oper j = s.oper j := by rw [State.oper, State.oper, hsyn]
  rwa [OperatorRuns, hj]

/-- The note of an event, if there is one, starts; else the Operators ran already. -/
theorem playEvent_ready {ev : Option (Word × F32)} (wf : CfgWellFormed u.cfg) (hseq : SequenceReady u)
    (hvoice : VoiceReady u) (hev : SequenceEvent s u ev)
    (hruns : (s.clock 1).fires = false → ∀ j, OperatorRuns u j) (E : Env) :
    ∃ v, playEvent E ev u = .ok () v ∧ VoiceReady v ∧ (∀ j, OperatorRuns v j) ∧
      ∀ ds f, ev = some (ds, f) → NoteStarted E.num ds f v := by
  cases ev with
  | none => exact ⟨u, rfl, hvoice, hruns hev, nofun⟩
  | some ev =>
    obtain ⟨ds, f⟩ := ev
    obtain ⟨i, -, hcursor, -, -, rfl⟩ := hev
    have hactive : i.val < u.seq.length.toNat := hcursor ▸ hseq.inv.1
    obtain ⟨tone, htone⟩ := hseq.notes i hactive
    obtain ⟨v, hplay, hv, hstarted⟩ := synPlay_ready wf hvoice E (u.note i).freq ds
    have hcfg : v.cfg = u.cfg := ((writes_synPlay E _ ds u).1 _ v hplay).cfg
    refine ⟨v, hplay, hv, fun j => (hv.oper j).runs (hcfg ▸ htone) (hstarted.tuned j), fun ds' f' h => ?_⟩
    cases h
    exact hstarted

/-- A run of ENG.NEXT from `s`: the Sequence's event leads to `u`, its note to `v`, the sample to `t`. -/
structure EngineSample (E : Env) (s u v t : State) (ev : Option (Word × F32)) (y : F32) : Prop where
  next : seqNext E s = .ok ev u
  event : SequenceEvent s u ev
  play : playEvent E ev u = .ok () v
  started : ∀ ds f, ev = some (ds, f) → NoteStarted E.num ds f v
  sample : synNext E v = .ok y t

theorem EngineSample.run {E : Env} {s u v t : State} {ev : Option (Word × F32)} {y : F32}
    (h : EngineSample E s u v t ev y) (hready : s.ready = true) : engNext E s = .ok y t := by
  rw [engNext_run E hready, bind_ok h.next, bind_ok h.play, h.sample]

/-- The note and the sample leave the Sequence and the step Clock. -/
theorem EngineSample.sequence_eq {E : Env} {s u v t : State} {ev : Option (Word × F32)} {y : F32}
    (h : EngineSample E s u v t ev y) : t.seq = u.seq ∧ t.clock 1 = u.clock 1 := by
  have hplay := (writes_playEvent E ev u).1 _ v h.play
  have hsample := (writes_synNext E v).1 _ t h.sample
  exact ⟨(hsample.seq_eq (apart_of_allRegs (by decide))).trans (hplay.seq_eq (apart_of_allRegs (by decide))),
    (hsample.clock_eq rfl rfl).trans (hplay.clock_eq rfl rfl)⟩

/-- From the invariant ENG.NEXT runs to its end and keeps it. -/
theorem engNext_ready (h : EngineInv s) (E : Env) : ∃ u v t ev y, EngineSample E s u v t ev y ∧ EngineInv t := by
  obtain ⟨hready, wf, hseq, hvoice, hruns⟩ := engineInv_iff.mp h
  obtain ⟨ev, u, hnext, hu, hev⟩ := seqNext_ready wf hseq E
  have hframe := (writes_seqNext E s).1 _ u hnext
  have hsyn : u.syn = s.syn := hframe.syn_eq (apart_of_allRegs (by decide))
  have wfu : CfgWellFormed u.cfg := hframe.cfg ▸ wf
  have hrunsu (hquiet : (s.clock 1).fires = false) (j : Fin 3) : OperatorRuns u j := by
    obtain hfires | hall := hruns
    · exact absurd (hfires.symm.trans hquiet) nofun
    · exact operatorRuns_congr (hall j) hsyn
  obtain ⟨v, hplay, hv, hrunsv, hstarted⟩ :=
    playEvent_ready wfu hu (hvoice.congr hsyn hframe.cfg) hev hrunsu E
  obtain ⟨y, t, hsample, ht, hrunst⟩ := synNext_ready hv hrunsv E
  have hframev := (writes_playEvent E ev u).1 _ v hplay
  have hframet := (writes_synNext E v).1 _ t hsample
  have hrun : EngineSample E s u v t ev y := ⟨hnext, hev, hplay, hstarted, hsample⟩
  obtain ⟨hseqt, -⟩ := hrun.sequence_eq
  have hcfg : t.cfg = u.cfg := hframet.cfg.trans hframev.cfg
  have hreadyt : t.ready = true :=
    (hframet.ready_eq rfl).trans ((hframev.ready_eq rfl).trans ((hframe.ready_eq rfl).trans hready))
  exact ⟨u, v, t, ev, y, hrun, engineInv_iff.mpr ⟨hreadyt, hcfg ▸ wfu, hu.congr hseqt hcfg, ht, .inr hrunst⟩⟩

theorem exec_engNext {t : State} {y : F32} (h : engNext Config.env s = .ok y t) :
    exec .engNext s = .next (t.answer ⟨.ok, false, y.setWidth 64⟩) := by
  rw [exec_engNext_eq, bind_ok h]
  rfl

/-- Settles O51: each part of ENG.NEXT ends normally from the invariant and keeps its part of it. -/
theorem engNextIsInfallible : Obligations.EngNextIsInfallible := by
  intro s h
  obtain ⟨u, v, t, ev, y, hrun, hinv⟩ := engNext_ready h Config.env
  exact ⟨_, exec_engNext (hrun.run h.ready), ⟨_, _, rfl⟩, hinv.answer _⟩

/-! ### The first sample -/

/-- Settles O52: the step Clock fires, the cursor goes round to slot 0, and the sample leaves what the note set. -/
theorem firstSampleStartsTheFirstNote : Obligations.FirstSampleStartsTheFirstNote := by
  intro s wf hsr
  obtain ⟨t, hnew, hinv, hclock, hcursor⟩ := engNew_ready wf Config.env s.arg0 hsr
  have hinvt := hinv.answer ⟨.ok, false, 0⟩
  obtain ⟨u, v, w, ev, y, hrun, -⟩ := engNext_ready hinvt Config.env
  refine ⟨_, _, exec_engNew hnew, ⟨_, _, rfl⟩, exec_engNext (hrun.run hinvt.ready), ⟨_, _, rfl⟩, ?_⟩
  obtain ⟨hseqw, hclockw⟩ := hrun.sequence_eq
  have hevent := hrun.event
  cases ev with
  | none =>
    rw [SequenceEvent, answer_clock, hclock] at hevent
    exact absurd hevent (by decide)
  | some ev =>
    obtain ⟨ds, f⟩ := ev
    obtain ⟨i, hi, hcursoru, hclocku, rfl, rfl⟩ := hevent
    rw [answer_seq, hcursor, Nat.mod_self] at hi
    obtain rfl : i = 0 := Fin.ext hi
    obtain ⟨hlength, htuned⟩ := hrun.started _ _ rfl
    have hframe := (writes_synNext Config.env v).1 _ w hrun.sample
    have hlengthw : w.syn.adsr.length = v.syn.adsr.length := hframe.regs .adsrLength rfl
    have hnote : w.note 0 = u.note 0 := by rw [State.note, State.note, hseqw]
    simp only [answer_seq, answer_syn, answer_note, answer_clock, answer_oper]
    rw [hnote, hlengthw, hclockw, hseqw]
    refine ⟨BitVec.eq_of_toNat_eq hcursoru, hlength, hclocku, fun j => ?_⟩
    rw [hframe.oper_of_voiceStep j]
    exact htuned j

end

end Sys2Proof.Machine
end

section
/-! ENG.NEW depends on no earlier state (spec/47_engine.md R175, R179): two runs from states of equal configuration
and generator go alike, and each statement adds what it writes to the registers on which the two states agree. -/

namespace Sys2Proof.Machine

-- As in Sys2Proof/Tests/Slice0.lean: a thread for each small proof takes the joined text's memory.
set_option Elab.async false

variable {α β : Type}

/-! ### States that agree -/

/-- The two states agree on the configuration, the generator and the registers of `V`. -/
structure Agree (V : Reg → Bool) (s s' : State) : Prop where
  cfg : s'.cfg = s.cfg
  rng : s'.rng = s.rng
  regs : ∀ r, V r = true → r.read s' = r.read s

/-- The registers of `V` and those of `W`. -/
def either (V W : Reg → Bool) (r : Reg) : Bool := V r || W r

theorem either_left {V W : Reg → Bool} {r : Reg} (h : V r = true) : either V W r = true := by
  simp [either, h]

theorem either_right {V W : Reg → Bool} {r : Reg} (h : W r = true) : either V W r = true := by
  simp [either, h]

theorem frame_setScale (s : State) (v : BitVec 5) :
    Frame (fun r => r = .seqScale) false s (s.setSeq { s.seq with scale := v }) := by
  refine ⟨fun r hr => ?_, fun _ => rfl, rfl, rfl, rfl, rfl, rfl, rfl⟩
  cases r with
  | seqScale => exact absurd rfl (of_decide_eq_false hr)
  | _ => rfl

theorem frame_setLength (s : State) (v : BitVec 4) :
    Frame (fun r => r = .seqLength) false s (s.setSeq { s.seq with length := v }) := by
  refine ⟨fun r hr => ?_, fun _ => rfl, rfl, rfl, rfl, rfl, rfl, rfl⟩
  cases r with
  | seqLength => exact absurd rfl (of_decide_eq_false hr)
  | _ => rfl

section
variable {V W U : Reg → Bool} {s s' t t' : State}

theorem Agree.mono (h : Agree V s s') (hU : ∀ r, U r = true → V r = true) : Agree U s s' :=
  ⟨h.cfg, h.rng, fun r hr => h.regs r (hU r hr)⟩

theorem Agree.setRng (h : Agree V s s') (st : RngState) : Agree V (s.setRng st) (s'.setRng st) where
  cfg := h.cfg
  rng := rfl
  regs r hr :=
    calc r.read (s'.setRng st) = r.read s' := (frame_setRng (fun _ => false) s' st).regs r rfl
      _ = r.read s := h.regs r hr
      _ = r.read (s.setRng st) := ((frame_setRng (fun _ => false) s st).regs r rfl).symm

/-- Two updates of the registers of `W` that leave the same in them. -/
theorem Agree.update (h : Agree V s s') (hs : Frame W false s t) (hs' : Frame W false s' t')
    (same : ∀ r, W r = true → r.read t' = r.read t) : Agree (either V W) t t' where
  cfg := hs'.cfg.trans (h.cfg.trans hs.cfg.symm)
  rng := (hs'.rng rfl).trans (h.rng.trans (hs.rng rfl).symm)
  regs r hr := by
    cases hW : W r with
    | true => exact same r hW
    | false =>
      have hV : V r = true := by simpa [either, hW] using hr
      exact (hs'.regs r hW).trans ((h.regs r hV).trans (hs.regs r hW).symm)

/-- An update of one register. -/
theorem Agree.updateReg {r : Reg} (h : Agree V s s') (hs : Frame (fun x => x = r) false s t)
    (hs' : Frame (fun x => x = r) false s' t') (same : r.read t' = r.read t) :
    Agree (either V fun x => x = r) t t' :=
  h.update hs hs' fun x hx => by
    obtain rfl : x = r := of_decide_eq_true hx
    exact same

theorem Agree.setTempo (h : Agree V s s') (v : Word) : Agree (either V fun r => r = .seqTempo)
    (s.setSeq { s.seq with tempo := v }) (s'.setSeq { s'.seq with tempo := v }) :=
  h.updateReg (frame_write .seqTempo v s) (frame_write .seqTempo v s') rfl

theorem Agree.setScale (h : Agree V s s') (v : BitVec 5) : Agree (either V fun r => r = .seqScale)
    (s.setSeq { s.seq with scale := v }) (s'.setSeq { s'.seq with scale := v }) :=
  h.updateReg (frame_setScale s v) (frame_setScale s' v) rfl

theorem Agree.setLength (h : Agree V s s') (v : BitVec 4) : Agree (either V fun r => r = .seqLength)
    (s.setSeq { s.seq with length := v }) (s'.setSeq { s'.seq with length := v }) :=
  h.updateReg (frame_setLength s v) (frame_setLength s' v) rfl

theorem Agree.setCursor (h : Agree V s s') {v v' : BitVec 3} (hv : v' = v) : Agree (either V fun r => r = .seqCursor)
    (s.setSeq { s.seq with cursor := v }) (s'.setSeq { s'.seq with cursor := v' }) :=
  h.updateReg (frame_setCursor s v) (frame_setCursor s' v') (by rw [hv]; rfl)

theorem Agree.setSynSr (h : Agree V s s') (v : Word) :
    Agree (either V fun r => r = .synSr) (s.setSynSr v) (s'.setSynSr v) :=
  h.updateReg (frame_setSynSr s v) (frame_setSynSr s' v) rfl

theorem Agree.setClock (h : Agree V s s') (k : Fin 4) (c : Clock) :
    Agree (either V (ofClock k)) (s.setClock k c) (s'.setClock k c) :=
  h.update (frame_setClock s k c) (frame_setClock s' k c) fun r hr => by
    cases r with
    | clkTick j | clkDeadline j =>
      obtain rfl : j = k := of_decide_eq_true hr
      simp [Reg.read]
    | _ => exact absurd hr nofun

theorem Agree.setNote (h : Agree V s s') (i : Fin 8) (n : Note) :
    Agree (either V (ofNote i)) (s.setNote i n) (s'.setNote i n) :=
  h.update (frame_setNote s i n) (frame_setNote s' i n) fun r hr => by
    cases r with
    | noteDur j | noteFreq j =>
      obtain rfl : j = i := of_decide_eq_true hr
      simp [Reg.read]
    | _ => exact absurd hr nofun

theorem Agree.setOper (h : Agree V s s') (j : Fin 3) (o : Oper) :
    Agree (either V (ofOperator j)) (s.setOper j o) (s'.setOper j o) :=
  h.update (frame_setOper s j o) (frame_setOper s' j o) fun r hr => by
    cases r with
    | opSr k | opFreq k | opRatio k | opWave k | opPhase k =>
      obtain rfl : k = j := of_decide_eq_true hr
      simp [Reg.read]
    | _ => exact absurd hr nofun

/-- The ADSR and its Clock. -/
theorem Agree.setEnvelope (h : Agree V s s') (a : Adsr) (c : Clock) :
    Agree (either V writesAdsr) ((s.setAdsr a).setClock 2 c) ((s'.setAdsr a).setClock 2 c) := by
  have hclock (r : Reg) : ofClock 2 r = true → writesAdsr r = true := by
    cases r with
    | clkTick | clkDeadline => exact id
    | _ => exact nofun
  have hframe (u : State) : Frame writesAdsr false u ((u.setAdsr a).setClock 2 c) :=
    (frame_setAdsr u a).trans ((frame_setClock _ 2 c).mono hclock id)
  refine h.update (hframe s) (hframe s') fun r hr => ?_
  cases r with
  | clkTick j | clkDeadline j =>
    obtain rfl : j = 2 := of_decide_eq_true hr
    simp [Reg.read]
  | adsrAttack | adsrDecay | adsrSustain | adsrRelease | adsrValue | adsrLength | adsrDelta | adsrState => rfl
  | _ => exact absurd hr nofun

theorem Agree.setFlt (h : Agree V s s') (f : Filter) :
    Agree (either V writesFilter) (s.setFlt f) (s'.setFlt f) :=
  h.update (frame_setFlt s f) (frame_setFlt s' f) fun r hr => by
    cases r with
    | fltCutoff | fltQ | fltRes | fltP | fltK | fltPx | fltS | fltPs => rfl
    | _ => exact absurd hr nofun

end

/-! ### Runs that go alike -/

/-- Two results of one kind, equal but for their states, which agree on `V` after a normal end. -/
inductive Alike (V : Reg → Bool) : EStateM.Result Stop State α → EStateM.Result Stop State α → Prop
  | ok (a : α) {t t' : State} (h : Agree V t t') : Alike V (.ok a t) (.ok a t')
  | error (e : Stop) (t t' : State) : Alike V (.error e t) (.error e t')

/-- From states that agree on `V` the action runs alike to states that agree on `U`. -/
def Syncs (V U : Reg → Bool) (m : M α) : Prop := ∀ s s', Agree V s s' → Alike U (m s) (m s')

section
variable {V W U : Reg → Bool}

theorem Syncs.bind {x : M α} {f : α → M β} (hx : Syncs V W x) (hf : ∀ a, Syncs W U (f a)) : Syncs V U (x >>= f) := by
  intro s s' h
  rw [bind_run, bind_run]
  have hfirst := hx s s' h
  generalize x s = first, x s' = first' at hfirst
  cases hfirst with
  | ok a ht => exact hf a _ _ ht
  | error e t t' => exact .error e t t'

theorem Syncs.mono {m : M α} (h : Syncs V W m) (hU : ∀ r, U r = true → W r = true) : Syncs V U m := by
  intro s s' hs
  have hrun := h s s' hs
  generalize m s = run, m s' = run' at hrun
  cases hrun with
  | ok a ht => exact .ok a (ht.mono hU)
  | error e t t' => exact .error e t t'

theorem Syncs.pure (a : α) : Syncs V V (Pure.pure a : M α) := fun _ _ h => .ok a h

theorem Syncs.stopWith (f : Fault) : Syncs V U (Machine.stopWith f : M α) := fun s s' _ => .error (.fault f) s s'

theorem Syncs.update {f : State → State} (h : ∀ s s', Agree V s s' → Agree U (f s) (f s')) :
    Syncs V U (updateState f) :=
  fun s s' hs => .ok () (h s s' hs)

/-- A statement that reads the state and goes on from what the states agree on. -/
theorem Syncs.read {f : State → M β} (same : ∀ s s', Agree V s s' → f s' = f s) (hf : ∀ s, Syncs V U (f s)) :
    Syncs V U (readState >>= f) := by
  intro s s' h
  rw [readState_bind, readState_bind, same s s' h]
  exact hf s s s' h

theorem syncs_rngIndex (E : Env) (n : Nat) : Syncs V V (rngIndex E n) := by
  intro s s' h
  rw [rngIndex, rngIndex, h.rng]
  split
  · exact .ok _ (h.setRng _)
  · exact .error _ s s'

theorem syncs_rngWeighted (E : Env) {n : Nat} (w : Fin n → Word) : Syncs V V (rngWeighted E w) := by
  intro s s' h
  rw [rngWeighted, rngWeighted, h.rng]
  split
  · exact .ok _ (h.setRng _)
  · exact .error _ s s'

theorem syncs_rngU32 (E : Env) (lo hi : Word) : Syncs V V (rngU32 E lo hi) := by
  intro s s' h
  rw [rngU32, rngU32, h.rng]
  split
  · exact .ok _ (h.setRng _)
  · exact .error _ s s'

theorem syncs_rngF32 (E : Env) (lo hi : F32) : Syncs V V (rngF32 E lo hi) := by
  intro s s' h
  rw [rngF32, rngF32, h.rng]
  split
  · exact .ok _ (h.setRng _)
  · exact .error _ s s'

/-! ### The constructions -/

theorem syncs_clkDeadline (k : Fin 4) (d : Word) : Syncs V (either V (ofClock k)) (clkDeadline k d) :=
  Syncs.update fun _ _ h => h.setClock k _

theorem syncs_opNew (j : Fin 3) (ratio : F32) (w : WaveKind) (sr : Word) :
    Syncs V (either V (ofOperator j)) (opNew j ratio w sr) :=
  Syncs.update fun _ _ h => h.setOper j _

theorem syncs_opRandom (E : Env) (j : Fin 3) (sr : Word) : Syncs V (either V (ofOperator j)) (opRandom E j sr) :=
  Syncs.read (fun _ _ h => by rw [h.cfg]) fun _ =>
    Syncs.bind (syncs_rngWeighted E _) fun _ => Syncs.bind (syncs_rngF32 E _ _) fun _ => syncs_opNew j _ _ sr

theorem syncs_adsrNew (E : Env) : Syncs V (either V writesAdsr) (adsrNew E) :=
  Syncs.read (fun _ _ h => by rw [h.cfg]) fun _ =>
    Syncs.bind (syncs_rngF32 E _ _) fun _ => Syncs.bind (syncs_rngF32 E _ _) fun _ =>
      Syncs.bind (syncs_rngF32 E _ _) fun _ => Syncs.bind (syncs_rngF32 E _ _) fun _ =>
        Syncs.update (f := fun s => (s.setAdsr _).setClock 2 _) fun _ _ h => h.setEnvelope _ _

theorem syncs_fltNew (E : Env) (sr : Word) : Syncs V (either V writesFilter) (fltNew E sr) :=
  Syncs.read (fun _ _ h => by rw [h.cfg]) fun _ =>
    Syncs.bind (syncs_rngF32 E _ _) fun _ => Syncs.bind (syncs_rngF32 E _ _) fun _ =>
      Syncs.update fun _ _ h => h.setFlt _

theorem Agree.seqLength {s s' : State} (h : Agree V s s') (hV : V .seqLength = true) :
    s'.seq.length = s.seq.length :=
  eq_of_setWidth_eq (by decide) (h.regs .seqLength hV)

theorem Agree.seqScale {s s' : State} (h : Agree V s s') (hV : V .seqScale = true) : s'.seq.scale = s.seq.scale :=
  eq_of_setWidth_eq (by decide) (h.regs .seqScale hV)

theorem syncs_noteNew (hlength : V .seqLength = true) (hscale : V .seqScale = true) (E : Env) (i : Fin 8) :
    Syncs V (either V (ofNote i)) (noteNew E i) :=
  Syncs.read (fun _ _ h => by simp only [h.cfg, h.seqLength hlength, h.seqScale hscale]) fun _ =>
    Syncs.bind (syncs_rngU32 E _ _) fun _ => Syncs.bind (syncs_rngIndex E _) fun _ => by
      split
      · exact Syncs.update fun _ _ h => h.setNote i _
      · exact Syncs.stopWith _

/-- The registers of the Notes of a list of slots. -/
def ofSlots (l : List (Fin 8)) (r : Reg) : Bool := l.any fun i => ofNote i r

theorem ofSlots_cons_le (i : Fin 8) (l : List (Fin 8)) (r : Reg) (h : either V (ofSlots (i :: l)) r = true) :
    either (either V (ofNote i)) (ofSlots l) r = true := by
  rw [either, ofSlots, List.any_cons, ← Bool.or_assoc] at h
  exact h

theorem syncs_fillNotes (E : Env) (l : List (Fin 8)) : ∀ {V : Reg → Bool}, V .seqLength = true → V .seqScale = true →
    Syncs V (either V (ofSlots l)) (fillNotes E l) := by
  induction l with
  | nil =>
    intro V _ _
    refine (Syncs.pure ()).mono fun r h => ?_
    simpa [either, ofSlots] using h
  | cons i rest ih =>
    intro V hlength hscale
    have hrest : Syncs (either V (ofNote i)) (either V (ofSlots (i :: rest))) (fillNotes E rest) :=
      (ih (either_left hlength) (either_left hscale)).mono (ofSlots_cons_le i rest)
    refine Syncs.read (fun s s' h => by simp only [h.seqLength hlength]) fun s => ?_
    dsimp only
    split
    · exact Syncs.bind (syncs_noteNew hlength hscale E i) fun _ => hrest
    · exact Syncs.bind (Syncs.update fun _ _ h => h.setNote i _) fun _ => hrest

end

theorem le_of_allRegs {V W : Reg → Bool} (h : ∀ r ∈ allRegs, V r = true → W r = true) :
    ∀ r, V r = true → W r = true :=
  fun r => h r (mem_allRegs r)

/-- The registers of no element. -/
def noRegs (_ : Reg) : Bool := false

/-- The registers on which two runs of SEQ.NEW agree after each write of a part of the Sequence. -/
def sequenceHead : Reg → Bool :=
  either (either (either noRegs fun r => r = .seqTempo) fun r => r = .seqScale) fun r => r = .seqLength

theorem syncs_seqNew (E : Env) (sr : Word) : Syncs noRegs writesSequence (seqNew E sr) :=
  have hall : ∀ r, writesSequence r = true → either (either (either (either sequenceHead (ofSlots (List.finRange 8)))
      (ofClock 0)) (ofClock 1)) (fun r => r = .seqCursor) r = true := le_of_allRegs (by decide)
  Syncs.read (fun _ _ h => by rw [h.cfg]) fun _ =>
    Syncs.bind (syncs_rngF32 E _ _) fun _ => Syncs.bind (Syncs.update fun _ _ h => h.setTempo _) fun _ =>
      Syncs.bind (syncs_rngIndex E _) fun _ => Syncs.bind (Syncs.update fun _ _ h => h.setScale _) fun _ =>
        Syncs.bind (syncs_rngIndex E _) fun _ => Syncs.bind (Syncs.update fun _ _ h => h.setLength _) fun _ =>
          Syncs.bind (syncs_fillNotes E _ rfl rfl) fun _ => Syncs.bind (syncs_rngU32 E _ _) fun _ =>
            Syncs.bind (syncs_clkDeadline 0 _) fun _ => Syncs.bind (syncs_clkDeadline 1 _) fun _ =>
              Syncs.mono (Syncs.update fun _ _ h => h.setCursor (by rw [h.seqLength rfl])) hall

theorem syncs_synNew (E : Env) (sr : Word) :
    Syncs writesSequence (either writesSequence writesVoice) (synNew E sr) :=
  have hall : ∀ r, either writesSequence writesVoice r = true → either (either (either (either (either (either
      (either writesSequence fun r => r = .synSr) (ofOperator 0)) (ofOperator 1)) (ofOperator 2)) writesAdsr)
      writesFilter) (ofClock 3) r = true := le_of_allRegs (by decide)
  Syncs.read (fun _ _ h => by rw [h.cfg]) fun _ =>
    Syncs.bind (Syncs.update fun _ _ h => h.setSynSr sr) fun _ => Syncs.bind (syncs_opNew 0 _ _ sr) fun _ =>
      Syncs.bind (syncs_opRandom E 1 sr) fun _ => Syncs.bind (syncs_opRandom E 2 sr) fun _ =>
        Syncs.bind (syncs_adsrNew E) fun _ => Syncs.bind (syncs_fltNew E sr) fun _ =>
          Syncs.bind (syncs_rngU32 E _ _) fun _ => Syncs.mono (syncs_clkDeadline 3 _) hall

/-! ### ENG.NEW from two states -/

section
variable {s s' t t' : State}

theorem clk_eq_of_reads (same : ∀ k, Reg.read (.clkTick k) t = Reg.read (.clkTick k) s ∧
    Reg.read (.clkDeadline k) t = Reg.read (.clkDeadline k) s) : t.clk = s.clk :=
  Vector.ext fun k hk => clock_eq_of_reads (k := ⟨k, hk⟩) (same _).1 (same _).2

/-- Two states that agree on every register ENG.NEW writes differ, once ready, at the port only. -/
theorem Agree.bare_setReady (h : Agree (either writesSequence writesVoice) s s') (b : Bool) :
    (s'.setReady b).bare = (s.setReady b).bare := by
  have hseq : s'.seq = s.seq := seq_eq_of_reads fun r hr => h.regs r (either_left hr)
  have hsyn : s'.syn = s.syn := syn_eq_of_reads fun r hr => h.regs r (either_right hr)
  have hclk : s'.clk = s.clk :=
    clk_eq_of_reads fun k => ⟨h.regs _ (by revert k; decide), h.regs _ (by revert k; decide)⟩
  rw [State.bare, State.bare, State.setReady, State.setReady, h.rng, hseq, hclk, hsyn, h.cfg]

/-- ENG.NEW between its two writes of `eng.ready`, the generator seeded. -/
def construct (E : Env) (sr : Word) : M Unit := seqNew E sr >>= fun _ => synNew E sr

theorem syncs_construct (E : Env) (sr : Word) : Syncs noRegs (either writesSequence writesVoice) (construct E sr) :=
  Syncs.bind (syncs_seqNew E sr) fun _ => syncs_synNew E sr

theorem engNew_eq_construct (E : Env) (seed : DWord) (sr : Word) (s : State) : engNew E seed sr s =
    (construct E sr >>= fun _ => updateState (·.setReady true)) ((s.setReady false).setRng (E.rng.seed seed)) := by
  rw [engNew, updateState_bind, rngSeed, updateState_bind, construct, bind_assoc]

/-- Two runs of ENG.NEW end alike, and normally in states that differ at the port only. -/
theorem engNew_alike (E : Env) (seed : DWord) (sr : Word) (hcfg : s'.cfg = s.cfg) :
    (∃ t t', engNew E seed sr s = .ok () t ∧ engNew E seed sr s' = .ok () t' ∧ t'.bare = t.bare) ∨
    ∃ e t t', engNew E seed sr s = .error e t ∧ engNew E seed sr s' = .error e t' := by
  have hagree : Agree noRegs ((s.setReady false).setRng (E.rng.seed seed))
      ((s'.setReady false).setRng (E.rng.seed seed)) := ⟨hcfg, rfl, nofun⟩
  have hrun := syncs_construct E sr _ _ hagree
  rw [engNew_eq_construct, engNew_eq_construct, bind_run, bind_run]
  generalize construct E sr ((s.setReady false).setRng _) = run,
    construct E sr ((s'.setReady false).setRng _) = run' at hrun
  cases hrun with
  | ok a h => exact .inl ⟨_, _, rfl, rfl, h.bare_setReady true⟩
  | error e t t' => exact .inr ⟨e, t, t', rfl, rfl⟩

/-- Settles O53: an ENG.NEW that answers OK ended normally, and what it leaves beside the port is the same. -/
theorem engNewForgetsEarlierState : Obligations.EngNewForgetsEarlierState := by
  intro s s' t hcfg harg0 harg1 h hok
  obtain ⟨u, u', hrun, hrun', hbare⟩ | ⟨e, u, u', hrun, -⟩ :=
    engNew_alike Config.env s.arg0 s.arg1 hcfg.symm
  · obtain rfl : u.answer ⟨.ok, false, 0⟩ = t := Host.Outcome.next.inj ((exec_engNew hrun).symm.trans h)
    rw [harg0, harg1] at hrun'
    exact ⟨_, exec_engNew hrun', (congrArg State.ready hbare :), (congrArg State.rng hbare :),
      (congrArg State.seq hbare :), (congrArg State.clk hbare :), (congrArg State.syn hbare :), rfl⟩
  · rw [exec_engNew_eq] at h
    obtain ⟨_, v, hv, -⟩ | ⟨v, -, rfl⟩ := respond_next_of_raisesSelect (raises_engNew _ _ _) h
    · rw [hrun] at hv
      cases hv
    · obtain ⟨_, _, hresp⟩ := hok
      cases hresp

end

/-! ### Runs of the engine -/

/-- Two states with one engine between them, or with none. -/
def SameEngine (s s' : State) : Prop := s'.bare = s.bare ∨ s.ready = false ∧ s'.ready = false

/-- Two outcomes of one kind with the same response and the same engine, or none. -/
inductive SameOutcome : Host.Outcome State Fault Refusal → Host.Outcome State Fault Refusal → Prop
  | next (t t' : State) (hresp : t'.resp = t.resp) (h : SameEngine t t') : SameOutcome (.next t) (.next t')
  | fault (f : Fault) : SameOutcome (.fault f) (.fault f)

section
variable {s s' : State}

theorem sameOutcome_engNew (hcfg : s'.cfg = s.cfg) (harg0 : s'.arg0 = s.arg0) (harg1 : s'.arg1 = s.arg1) :
    SameOutcome (exec .engNew s) (exec .engNew s') := by
  rw [exec_engNew_eq, exec_engNew_eq, harg0, harg1]
  obtain ⟨t, t', hrun, hrun', hbare⟩ | ⟨e, t, t', hrun, hrun'⟩ := engNew_alike Config.env s.arg0 s.arg1 hcfg
  · rw [bind_ok hrun, bind_ok hrun']
    exact .next _ _ rfl (.inl hbare)
  · rw [bind_error hrun, bind_error hrun']
    cases e with
    | raise e => exact .next _ _ rfl (.inr ⟨engNew_raise_ready (t := t) hrun, engNew_raise_ready (t := t') hrun'⟩)
    | fault f => exact .fault f

/-- A command that does not look at the port, from two states that differ there only. -/
theorem sameOutcome_of_bare {m : M Answer} (hm : PortFree m) (h : s'.bare = s.bare) :
    SameOutcome (respond (m s)) (respond (m s')) := by
  have hrun := hm.congr h
  generalize m s = run, m s' = run' at hrun
  cases run with
  | ok a t =>
    cases run' with
    | ok a' t' =>
      obtain ⟨rfl, hbare⟩ := EStateM.Result.ok.inj hrun
      exact .next _ _ rfl (.inl hbare)
    | error => cases hrun
  | error e t =>
    cases run' with
    | ok => cases hrun
    | error e' t' =>
      obtain ⟨rfl, hbare⟩ := EStateM.Result.error.inj hrun
      cases e' with
      | raise e => exact .next _ _ rfl (.inl hbare)
      | fault f => exact .fault f

theorem sameOutcome_engNext (h : SameEngine s s') : SameOutcome (exec .engNext s) (exec .engNext s') := by
  obtain hbare | ⟨hs, hs'⟩ := h
  · rw [exec_engNext_eq, exec_engNext_eq]
    exact sameOutcome_of_bare (PortFree.bind (portFree_engNext _) fun _ => PortFree.pure _) hbare
  · rw [exec_engNext_raise (engNext_run_not_ready _ hs), exec_engNext_raise (engNext_run_not_ready _ hs')]
    exact .next _ _ rfl (.inr ⟨hs, hs'⟩)

/-- Two runs respond alike if their first steps do and what is left to do does from wherever they lead. -/
theorem responses_eq_of_sameOutcome {n : Nat} (h : SameOutcome (step s) (step s'))
    (hrest : ∀ t t', step s = .next t → step s' = .next t' → SameEngine t t' → responses n t = responses n t') :
    responses (n + 1) s = responses (n + 1) s' := by
  rw [responses, responses]
  generalize step s = o, step s' = o' at h hrest
  cases h with
  | next t t' hresp h => exact congrArg₂ _ hresp.symm (hrest t t' rfl rfl h)
  | fault f => rfl

/-- The host calls ENG.NEXT `n` times. -/
def engNextCalls (n : Nat) : List HostEvent := List.replicate n (.command ⟨0x02000000, 0, 0⟩)

theorem step_engNew {seed : DWord} {sr : Word} {n : Nat} (h : s.pending = engineLife seed sr n) :
    step s = exec .engNew { s with pending := engNextCalls n, arg0 := seed, arg1 := sr } :=
  step_of_decode_ok h (decode_plainWord (op := 0x01) (by simp [opcodeTable]))

theorem step_engNext {n : Nat} (h : s.pending = engNextCalls (n + 1)) :
    step s = exec .engNext { s with pending := engNextCalls n, arg0 := 0, arg1 := 0 } :=
  step_of_decode_ok h (decode_plainWord (op := 0x02) (by simp [opcodeTable]))

end

theorem responses_engNext (n : Nat) : ∀ {s s' : State}, SameEngine s s' →
    s.pending = engNextCalls n →
    s'.pending = engNextCalls n → responses n s = responses n s' := by
  induction n with
  | zero => intro _ _ _ _ _; rfl
  | succ n ih =>
    intro s s' h hs hs'
    have hstep := step_engNext hs
    have hstep' := step_engNext hs'
    refine responses_eq_of_sameOutcome ?_ fun t t' ht ht' hsame => ?_
    · rw [hstep, hstep']
      exact sameOutcome_engNext h
    · exact ih hsame (unchanged_of_exec (hstep ▸ ht)).pending (unchanged_of_exec (hstep' ▸ ht')).pending

/-- Settles O54: ENG.NEW leaves one engine in both states, or none, and so does every ENG.NEXT. -/
theorem engineRunsAreDeterministic : Obligations.EngineRunsAreDeterministic := by
  intro seed sr n s s' hcfg hs hs'
  have hstep := step_engNew hs
  have hstep' := step_engNew hs'
  refine responses_eq_of_sameOutcome ?_ fun t t' ht ht' hsame => ?_
  · rw [hstep, hstep']
    exact sameOutcome_engNew hcfg.symm rfl rfl
  · exact responses_engNext n hsame (unchanged_of_exec (hstep ▸ ht)).pending
      (unchanged_of_exec (hstep' ▸ ht')).pending

end Sys2Proof.Machine
end

section
/-! Binary32 (spec/00_scope.md R10, R17): the units of a magnitude pattern grow with the pattern, and the rounding
function picks the nearest. -/

namespace Sys2Proof.Machine

-- As in Sys2Proof/Tests/Slice0.lean: a thread for each small proof takes the joined text's memory.
set_option Elab.async false

/-! ### The units of a pattern -/

/-- The units of a magnitude pattern, that of infinity and those of NaNs read as if the range went on. -/
def unitsOf (m : Nat) : Nat :=
  if m / 2 ^ 23 = 0 then m else (2 ^ 23 + m % 2 ^ 23) * 2 ^ (m / 2 ^ 23 - 1)

theorem units_eq (x : F32) : units x = unitsOf (magBits x) := rfl

theorem units_ofNat {m : Nat} (h : m < 2 ^ 31) : units (BitVec.ofNat 32 m) = unitsOf m := by
  have hmag : magBits (BitVec.ofNat 32 m) = m := magBits_withSign (neg := false) h
  rw [units_eq, hmag]

/-- The multiple `q` of `2^e` units has the pattern `e * 2^23 + q`, the carry at `q = 2^24` included. -/
theorem unitsOf_add {e q : Nat} (hlow : e = 0 ∨ 2 ^ 23 ≤ q) (hhigh : q ≤ 2 ^ 24) :
    unitsOf (e * 2 ^ 23 + q) = q * 2 ^ e := by
  unfold unitsOf
  obtain hsub | hnormal | rfl : q < 2 ^ 23 ∨ (2 ^ 23 ≤ q ∧ q < 2 ^ 24) ∨ q = 2 ^ 24 := by omega
  · obtain rfl : e = 0 := by omega
    rw [if_pos (by omega)]
    omega
  · have hfield : (e * 2 ^ 23 + q) / 2 ^ 23 = e + 1 := by omega
    have hfraction : 2 ^ 23 + (e * 2 ^ 23 + q) % 2 ^ 23 = q := by omega
    rw [hfield, if_neg (Nat.succ_ne_zero e), hfraction, Nat.add_sub_cancel]
  · have hfield : (e * 2 ^ 23 + 2 ^ 24) / 2 ^ 23 = e + 2 := by omega
    have hfraction : (e * 2 ^ 23 + 2 ^ 24) % 2 ^ 23 = 0 := by omega
    rw [hfield, if_neg (by omega), hfraction, show e + 2 - 1 = e + 1 from rfl, pow_succ 2 e]
    ring

/-- Every pattern is that of a multiple below `2^24` of a power of two. -/
theorem exists_eq_add (m : Nat) : ∃ e q, m = e * 2 ^ 23 + q ∧ (e = 0 ∨ 2 ^ 23 ≤ q) ∧ q < 2 ^ 24 :=
  ⟨m / 2 ^ 23 - 1, m - (m / 2 ^ 23 - 1) * 2 ^ 23, by omega, by omega, by omega⟩

theorem unitsOf_strictMono : StrictMono unitsOf := by
  refine strictMono_nat_of_lt_succ fun m => ?_
  obtain ⟨e, q, rfl, hlow, hhigh⟩ := exists_eq_add m
  rw [Nat.add_assoc, unitsOf_add hlow hhigh.le, unitsOf_add (hlow.imp_right Nat.le_succ_of_le) hhigh]
  exact Nat.mul_lt_mul_of_pos_right (Nat.lt_succ_self q) (Nat.two_pow_pos e)

/-! ### The rounding function -/

/-- The exponent of the unit in the last place of the quotient `n / d`. -/
def ulpExponent (n d : Nat) : Nat := Nat.log2 (n / d) - 23

/-- The pattern `roundUnits` answers where it is below that of infinity. -/
def roundPattern (n d : Nat) : Nat := ulpExponent n d * 2 ^ 23 + roundDiv n (d * 2 ^ ulpExponent n d)

theorem roundUnits_eq (n d : Nat) : roundUnits n d = min (roundPattern n d) 0x7F800000 := rfl

section
variable {n d : Nat}

/-- The quotient in units of its last place has 24 bits, and the top one is set unless that place is the least. -/
theorem quotient_range (n d : Nat) : n / (d * 2 ^ ulpExponent n d) < 2 ^ 24 ∧
    (ulpExponent n d = 0 ∨ 2 ^ 23 ≤ n / (d * 2 ^ ulpExponent n d)) := by
  have hlog : n / d < 2 ^ (Nat.log2 (n / d) + 1) := Nat.lt_log2_self
  rw [← Nat.div_div_eq_div_mul]
  constructor
  · rw [Nat.div_lt_iff_lt_mul (Nat.two_pow_pos _), ← pow_add]
    exact hlog.trans_le (Nat.pow_le_pow_right (by decide) (by unfold ulpExponent; omega))
  · by_cases hlow : Nat.log2 (n / d) ≤ 23
    · exact .inl (Nat.sub_eq_zero_of_le hlow)
    · right
      have hne : n / d ≠ 0 := fun h => hlow (by rw [h]; decide)
      rw [Nat.le_div_iff_mul_le (Nat.two_pow_pos _), ← pow_add,
        show 23 + ulpExponent n d = Nat.log2 (n / d) by unfold ulpExponent; omega]
      exact Nat.log2_self_le hne

theorem roundDiv_le (n d : Nat) : roundDiv n d ≤ n / d + 1 := by
  unfold roundDiv
  split
  · exact Nat.le_succ _
  · split
    · exact Nat.le_refl _
    · split
      · exact Nat.le_succ _
      · exact Nat.le_refl _

/-- The pattern stands for the rounded multiple. -/
theorem unitsOf_roundPattern (n d : Nat) :
    unitsOf (roundPattern n d) = roundDiv n (d * 2 ^ ulpExponent n d) * 2 ^ ulpExponent n d := by
  obtain ⟨hhigh, hlow⟩ := quotient_range n d
  have hle := roundDiv_le n (d * 2 ^ ulpExponent n d)
  exact unitsOf_add (hlow.imp_right fun h => h.trans (le_roundDiv n _)) (by omega)

/-- A pattern above that of the multiple `q` of `2^e` units is a whole step above it. -/
theorem succ_mul_le_unitsOf {e q m : Nat} (hlow : e = 0 ∨ 2 ^ 23 ≤ q) (hhigh : q ≤ 2 ^ 24) (hm : e * 2 ^ 23 + q < m) :
    (q + 1) * 2 ^ e ≤ unitsOf m := by
  refine le_trans ?_ (unitsOf_strictMono.monotone hm)
  obtain hlt | rfl := hhigh.lt_or_eq
  · exact (unitsOf_add (q := q + 1) (hlow.imp_right Nat.le_succ_of_le) hlt).ge
  · have hcarry : (e * 2 ^ 23 + 2 ^ 24).succ = (e + 1) * 2 ^ 23 + (2 ^ 23 + 1) := by omega
    rw [hcarry, unitsOf_add (.inr (by decide)) (by decide), pow_succ' 2 e, ← Nat.mul_assoc]
    exact Nat.mul_le_mul_right _ (by decide)

/-- How far the pattern `m` is from the quotient, in units times `d`. -/
def distance (n d m : Nat) : Nat := (((unitsOf m * d : Nat) : Int) - n).natAbs

theorem unitsOf_roundPattern_mul (n d : Nat) : unitsOf (roundPattern n d) * d =
    roundDiv n (d * 2 ^ ulpExponent n d) * (d * 2 ^ ulpExponent n d) := by
  rw [unitsOf_roundPattern, Nat.mul_assoc, Nat.mul_comm d]

/-- A greater pattern is a whole step above. -/
theorem step_above_roundPattern {m : Nat} (hm : roundPattern n d < m) :
    unitsOf (roundPattern n d) * d + d * 2 ^ ulpExponent n d ≤ unitsOf m * d := by
  obtain ⟨hhigh, hlow⟩ := quotient_range n d
  have hle := roundDiv_le n (d * 2 ^ ulpExponent n d)
  have hstep := succ_mul_le_unitsOf (hlow.imp_right fun h => h.trans (le_roundDiv n _)) (by omega) hm
  calc unitsOf (roundPattern n d) * d + d * 2 ^ ulpExponent n d
      = (roundDiv n (d * 2 ^ ulpExponent n d) + 1) * 2 ^ ulpExponent n d * d := by
        rw [unitsOf_roundPattern]; ring
    _ ≤ unitsOf m * d := Nat.mul_le_mul_right d hstep

/-- A smaller pattern is a whole step below, unless the quotient was rounded down. -/
theorem step_below_roundPattern (hd : 0 < d) {m : Nat} (hm : m < roundPattern n d)
    (hup : n < unitsOf (roundPattern n d) * d) :
    unitsOf m * d + d * 2 ^ ulpExponent n d ≤ unitsOf (roundPattern n d) * d := by
  obtain ⟨hhigh, hlow⟩ := quotient_range n d
  have hle := roundDiv_le n (d * 2 ^ ulpExponent n d)
  rw [unitsOf_roundPattern_mul] at hup ⊢
  have hlt : n / (d * 2 ^ ulpExponent n d) < roundDiv n (d * 2 ^ ulpExponent n d) :=
    (Nat.div_lt_iff_lt_mul (Nat.mul_pos hd (Nat.two_pow_pos _))).mpr hup
  have hsucc : roundDiv n (d * 2 ^ ulpExponent n d) = n / (d * 2 ^ ulpExponent n d) + 1 := by omega
  have hpattern : m ≤ ulpExponent n d * 2 ^ 23 + n / (d * 2 ^ ulpExponent n d) := by
    rw [roundPattern, hsucc] at hm
    omega
  have hunits := (unitsOf_strictMono.monotone hpattern).trans_eq (unitsOf_add hlow hhigh.le)
  calc unitsOf m * d + d * 2 ^ ulpExponent n d
      ≤ n / (d * 2 ^ ulpExponent n d) * 2 ^ ulpExponent n d * d + d * 2 ^ ulpExponent n d :=
        Nat.add_le_add_right (Nat.mul_le_mul_right d hunits) _
    _ = roundDiv n (d * 2 ^ ulpExponent n d) * (d * 2 ^ ulpExponent n d) := by rw [hsucc]; ring

/-- Of the patterns, that of infinity and those above it read as if the range went on, `roundPattern` is nearest. -/
theorem roundPattern_nearest (hd : 0 < d) {m : Nat} (hm : m ≠ roundPattern n d) :
    distance n d (roundPattern n d) < distance n d m ∨
      distance n d (roundPattern n d) = distance n d m ∧ roundPattern n d % 2 = 0 := by
  have hspec := roundDiv_spec n (d * 2 ^ ulpExponent n d) (Nat.mul_pos hd (Nat.two_pow_pos _))
  have hparity : roundPattern n d % 2 = roundDiv n (d * 2 ^ ulpExponent n d) % 2 := by
    unfold roundPattern
    omega
  rw [← hparity, ← unitsOf_roundPattern_mul] at hspec
  have hstep : 0 < d * 2 ^ ulpExponent n d := Nat.mul_pos hd (Nat.two_pow_pos _)
  unfold distance
  obtain hbelow | habove := Nat.lt_or_gt_of_ne hm
  · have hunits := Nat.mul_lt_mul_of_pos_right (unitsOf_strictMono hbelow) hd
    have hwhole := step_below_roundPattern hd hbelow
    omega
  · have hwhole := step_above_roundPattern habove
    omega

/-- Rounding leaves what a pattern stands for. -/
theorem roundUnits_unitsOf {m : Nat} (hm : m < 0x7F800000) : roundUnits (unitsOf m) 1 = m := by
  have hexact : distance (unitsOf m) 1 m = 0 := by simp [distance]
  have hpattern : roundPattern (unitsOf m) 1 = m := by
    by_contra hne
    obtain hlt | ⟨heq, -⟩ := roundPattern_nearest (n := unitsOf m) (d := 1) (by decide) (Ne.symm hne)
    · exact absurd (hexact ▸ hlt) (Nat.not_lt_zero _)
    · rw [hexact, distance, Nat.mul_one, Int.natAbs_eq_zero, Int.sub_eq_zero, Nat.cast_inj] at heq
      exact hne (unitsOf_strictMono.injective heq)
  rw [roundUnits_eq, hpattern]
  exact Nat.min_eq_left hm.le

/-- The patterns of infinity and of the greatest finite value, and the quotient half-way between them. -/
theorem infinity_le_roundPattern_iff (hd : 0 < d) :
    0x7F800000 ≤ roundPattern n d ↔ (2 ^ 25 - 1) * 2 ^ 252 * d ≤ n := by
  have hinf : unitsOf 0x7F800000 = 2 ^ 24 * 2 ^ 253 :=
    unitsOf_add (e := 253) (q := 2 ^ 24) (.inr (by decide)) le_rfl
  have hmax : unitsOf 0x7F7FFFFF = (2 ^ 24 - 1) * 2 ^ 253 :=
    unitsOf_add (e := 253) (q := 2 ^ 24 - 1) (.inr (by decide)) (by decide)
  constructor
  · intro hle
    have hnearest := roundPattern_nearest (n := n) hd (m := 0x7F7FFFFF) (by omega)
    have hunits := Nat.mul_le_mul_right d (unitsOf_strictMono.monotone hle)
    unfold distance at hnearest
    rw [hmax] at hnearest
    rw [hinf] at hunits
    omega
  · intro hle
    by_contra hlt
    have hnearest := roundPattern_nearest (n := n) hd (m := 0x7F800000) (by omega)
    unfold distance at hnearest
    rw [hinf] at hnearest
    obtain hbelow | hgreatest : roundPattern n d < 0x7F7FFFFF ∨ roundPattern n d = 0x7F7FFFFF := by omega
    · have hunits := Nat.mul_lt_mul_of_pos_right (unitsOf_strictMono hbelow) hd
      rw [hmax] at hunits
      omega
    · rw [hgreatest, hmax] at hnearest
      omega

/-- Settles O59: below infinity the answer is the pattern rounded to, and that is the nearest. -/
theorem roundingIsToNearestEven : Obligations.RoundingIsToNearestEven := by
  intro n d hd
  refine ⟨roundUnits_le n d, ?_, fun m hround hm hne => ?_⟩
  · rw [roundUnits_eq, ← infinity_le_roundPattern_iff hd]
    omega
  · have heq : roundUnits n d = roundPattern n d := by
      rw [roundUnits_eq] at hround ⊢
      omega
    have hnearest := roundPattern_nearest (n := n) hd (heq ▸ hne)
    rw [heq] at hround ⊢
    simp only [distance, Nat.cast_mul] at hnearest
    dsimp only
    rw [units_ofNat (by omega), units_ofNat (by omega)]
    exact hnearest

end

end Sys2Proof.Machine
end

section
/-! Binary32 (spec/00_scope.md R10, R17): what a pattern stands for, and each operation as the exact result rounded
once. -/

namespace Sys2Proof.Machine

-- As in Sys2Proof/Tests/Slice0.lean: a thread for each small proof takes the joined text's memory.
set_option Elab.async false

/-! ### The classes of patterns -/

section
variable {x : F32}

theorem not_isNaN_of_isFinite (h : isFinite x = true) : isNaN x = false := by
  simp only [isFinite, isNaN, decide_eq_true_eq, decide_eq_false_iff_not] at h ⊢
  omega

theorem not_isInf_of_isFinite (h : isFinite x = true) : isInf x = false := by
  simp only [isFinite, isInf, decide_eq_true_eq, beq_eq_false_iff_ne] at h ⊢
  omega

theorem not_isNaN_of_isInf (h : isInf x = true) : isNaN x = false := by
  simp only [isInf, isNaN, beq_iff_eq, decide_eq_false_iff_not] at h ⊢
  omega

theorem not_isZero_of_isInf (h : isInf x = true) : isZero x = false := by
  simp only [isInf, isZero, beq_iff_eq, beq_eq_false_iff_ne] at h ⊢
  omega

theorem magBits_of_isInf (h : isInf x = true) : magBits x = 0x7F800000 := beq_iff_eq.mp h

@[simp] theorem isInf_fneg (x : F32) : isInf (fneg x) = isInf x := by
  rw [isInf, magBits_fneg, isInf]

theorem isNaN_withSign {neg : Bool} {m : Nat} (h : m ≤ 0x7F800000) : isNaN (withSign neg m) = false := by
  rw [isNaN, magBits_withSign (by omega)]
  exact decide_eq_false (by omega)

/-- A pattern is its sign and its magnitude. -/
theorem eq_withSign (x : F32) : x = withSign (signBit x) (magBits x) := by
  apply BitVec.eq_of_toNat_eq
  simp only [withSign, signBit, magBits, BitVec.msb_eq_decide, BitVec.toNat_ofNat, decide_eq_true_eq]
  split <;> omega

theorem fneg_eq_withSign (h : isInf x = true) : fneg x = withSign (!signBit x) 0x7F800000 := by
  calc fneg x = withSign (signBit (fneg x)) (magBits (fneg x)) := eq_withSign _
    _ = withSign (!signBit x) 0x7F800000 := by rw [signBit_fneg, magBits_fneg, magBits_of_isInf h]

end

/-- The sign, the exponent field and the fraction of a pattern say its class and its value. -/
theorem fields_of_withSign (neg : Bool) {e f : Nat} (he : e < 2 ^ 8) (hf : f < 2 ^ 23) :
    let x := withSign neg (e * 2 ^ 23 + f)
    signBit x = neg ∧ (isNaN x = true ↔ e = 255 ∧ f ≠ 0) ∧ (isInf x = true ↔ e = 255 ∧ f = 0) ∧
    (isFinite x = true ↔ e < 255) ∧ (isZero x = true ↔ e = 0 ∧ f = 0) ∧
    (e < 255 → signedUnits x =
      (if neg then -1 else 1) * if e = 0 then (f : Int) else (2 ^ 23 + f) * 2 ^ (e - 1)) := by
  have hrange : e * 2 ^ 23 + f < 2 ^ 31 := by omega
  have hsign := signBit_withSign (neg := neg) hrange
  have hmag := magBits_withSign (neg := neg) hrange
  have hunits : (unitsOf (e * 2 ^ 23 + f) : Int) = if e = 0 then (f : Int) else (2 ^ 23 + f) * 2 ^ (e - 1) := by
    have hfield : (e * 2 ^ 23 + f) / 2 ^ 23 = e := by omega
    have hfraction : (e * 2 ^ 23 + f) % 2 ^ 23 = f := by omega
    rw [unitsOf, hfield, hfraction]
    split
    · next hzero => rw [hzero, Nat.zero_mul, Nat.zero_add]
    · push_cast
      rfl
  dsimp only
  refine ⟨hsign, ?_, ?_, ?_, ?_, fun _ => ?_⟩
  · rw [isNaN, hmag, decide_eq_true_eq]
    omega
  · rw [isInf, hmag, beq_iff_eq]
    omega
  · rw [isFinite, hmag, decide_eq_true_eq]
    omega
  · rw [isZero, hmag, beq_iff_eq]
    omega
  · rw [signedUnits, hsign, units_eq, hmag, hunits]
    cases neg with
    | false => exact (one_mul _).symm
    | true => exact (neg_one_mul _).symm

/-! ### Finite operands -/

section
variable {N : Numerics} {a b : F32}

theorem roundSum_of_ne {both : Bool} {sum : Int} (h : sum ≠ 0) :
    roundSum both sum = withSign (decide (sum < 0)) (roundUnits sum.natAbs 1) := if_neg h

theorem roundSum_of_eq {both : Bool} {sum : Int} (h : sum = 0) :
    roundSum both sum = if both then 0x80000000 else 0x00000000 := if_pos h

theorem fadd_of_isFinite (ha : isFinite a = true) (hb : isFinite b = true) :
    fadd N a b = roundSum (signBit a && signBit b) (signedUnits a + signedUnits b) := by
  simp [fadd, addNumbers, not_isNaN_of_isFinite, not_isInf_of_isFinite, ha, hb]

theorem fsub_of_isFinite (ha : isFinite a = true) (hb : isFinite b = true) :
    fsub N a b = roundSum (signBit a && !signBit b) (signedUnits a - signedUnits b) := by
  simp [fsub, addNumbers, not_isNaN_of_isFinite, not_isInf_of_isFinite, ha, hb, Int.sub_eq_add_neg]

theorem fmul_of_isFinite (ha : isFinite a = true) (hb : isFinite b = true) :
    fmul N a b = withSign (signBit a != signBit b) (roundUnits (units a * units b) (2 ^ 149)) := by
  simp [fmul, not_isNaN_of_isFinite, not_isInf_of_isFinite, ha, hb]

theorem fdiv_of_isFinite (ha : isFinite a = true) (hb : isFinite b = true) (hzero : isZero b = false) :
    fdiv N a b = withSign (signBit a != signBit b) (roundUnits (units a * 2 ^ 149) (units b)) := by
  simp [fdiv, not_isNaN_of_isFinite, not_isInf_of_isFinite, ha, hb, hzero]

theorem fdiv_of_isZero (ha : isFinite a = true) (hb : isFinite b = true) (hne : isZero a = false)
    (hzero : isZero b = true) : fdiv N a b = withSign (signBit a != signBit b) 0x7F800000 := by
  simp [fdiv, not_isNaN_of_isFinite, not_isInf_of_isFinite, ha, hb, hne, hzero]

/-! ### NaNs -/

theorem isNaN_roundSum (both : Bool) (sum : Int) : isNaN (roundSum both sum) = false := by
  by_cases h : sum = 0
  · rw [roundSum_of_eq h]
    cases both <;> decide
  · rw [roundSum_of_ne h]
    exact isNaN_withSign (roundUnits_le _ _)

theorem isNaN_addNumbers (a b : F32) : isNaN (addNumbers a b) = false := by
  unfold addNumbers
  split
  · next ha => exact not_isNaN_of_isInf ha
  · split
    · next hb => exact not_isNaN_of_isInf hb
    · exact isNaN_roundSum _ _

/-- An operation that answers a NaN on one ground only. -/
theorem isNaN_ite_nanOf {c : Bool} {op : FloatOp} {y : F32} (hy : isNaN y = false) :
    isNaN (if c then nanOf N op a b else y) = c := by
  cases c with
  | true => exact isNaN_nanOf N op a b
  | false => exact hy

theorem isNaN_fadd (N : Numerics) (a b : F32) : isNaN (fadd N a b) = true ↔
    (isNaN a = true ∨ isNaN b = true) ∨ (isInf a = true ∧ isInf b = true ∧ signBit a ≠ signBit b) := by
  rw [fadd, isNaN_ite_nanOf (isNaN_addNumbers a b)]
  simp [and_assoc]

theorem isNaN_fsub (N : Numerics) (a b : F32) : isNaN (fsub N a b) = true ↔
    (isNaN a = true ∨ isNaN b = true) ∨ (isInf a = true ∧ isInf b = true ∧ signBit a = signBit b) := by
  rw [fsub, isNaN_ite_nanOf (isNaN_addNumbers a (fneg b))]
  simp [and_assoc]

theorem isNaN_fmul (N : Numerics) (a b : F32) : isNaN (fmul N a b) = true ↔
    (isNaN a = true ∨ isNaN b = true) ∨ (isInf a = true ∧ isZero b = true) ∨ (isZero a = true ∧ isInf b = true) := by
  rw [fmul, isNaN_ite_nanOf]
  · simp [or_assoc]
  · split
    · exact isNaN_withSign le_rfl
    · exact isNaN_withSign (roundUnits_le _ _)

theorem isNaN_fdiv (N : Numerics) (a b : F32) : isNaN (fdiv N a b) = true ↔
    (isNaN a = true ∨ isNaN b = true) ∨ (isInf a = true ∧ isInf b = true) ∨ (isZero a = true ∧ isZero b = true) := by
  rw [fdiv, isNaN_ite_nanOf]
  · simp [or_assoc]
  · split
    · exact isNaN_withSign le_rfl
    · split
      · exact isNaN_withSign (by decide)
      · exact isNaN_withSign (roundUnits_le _ _)

/-! ### Infinite operands -/

theorem isInf_isFinite_results (N : Numerics) (ha : isInf a = true) (hb : isFinite b = true) :
    fadd N a b = a ∧ fsub N a b = a ∧ fadd N b a = a ∧ fsub N b a = withSign (!signBit a) 0x7F800000 ∧
    fdiv N a b = withSign (signBit a != signBit b) 0x7F800000 ∧ fdiv N b a = withSign (signBit a != signBit b) 0 := by
  have haNaN := not_isNaN_of_isInf ha
  have haZero := not_isZero_of_isInf ha
  have hbNaN := not_isNaN_of_isFinite hb
  have hbInf := not_isInf_of_isFinite hb
  refine ⟨?_, ?_, ?_, ?_, ?_, ?_⟩
  · simp [fadd, addNumbers, ha, haNaN, hbNaN, hbInf]
  · simp [fsub, addNumbers, ha, haNaN, hbNaN, hbInf]
  · simp [fadd, addNumbers, ha, haNaN, hbNaN, hbInf]
  · rw [← fneg_eq_withSign ha]
    simp [fsub, addNumbers, ha, haNaN, hbNaN, hbInf]
  · simp [fdiv, ha, haNaN, haZero, hbNaN, hbInf]
  · simp [fdiv, ha, haNaN, haZero, hbNaN, hbInf, bne_comm]

theorem isInf_isInf_results (N : Numerics) (ha : isInf a = true) (hb : isInf b = true) :
    (signBit a = signBit b → fadd N a b = a) ∧ (signBit a ≠ signBit b → fsub N a b = a) := by
  have haNaN := not_isNaN_of_isInf ha
  have hbNaN := not_isNaN_of_isInf hb
  refine ⟨fun hsign => ?_, fun hsign => ?_⟩
  · simp [fadd, addNumbers, ha, haNaN, hbNaN, hsign]
  · simp [fsub, addNumbers, ha, haNaN, hbNaN, hsign]

theorem fmul_of_isInf (N : Numerics) (ha : isInf a = true) (hb : isNaN b = false) (hzero : isZero b = false) :
    fmul N a b = withSign (signBit a != signBit b) 0x7F800000 ∧
    fmul N b a = withSign (signBit a != signBit b) 0x7F800000 := by
  have haNaN := not_isNaN_of_isInf ha
  have haZero := not_isZero_of_isInf ha
  constructor
  · simp [fmul, ha, haNaN, haZero, hb, hzero]
  · simp [fmul, ha, haNaN, haZero, hb, hzero, bne_comm]

end

/-! ### Whole numbers -/

/-- A whole number of at most 24 bits is a pattern's value. -/
theorem exists_unitsOf_eq {n : Nat} (h : n < 2 ^ 24) : ∃ m < 0x7F800000, unitsOf m = n * 2 ^ 149 := by
  by_cases hzero : n = 0
  · exact ⟨0, by decide, by rw [hzero, Nat.zero_mul]; rfl⟩
  · have hlog : Nat.log2 n ≤ 23 := Nat.lt_succ_iff.mp ((Nat.log2_lt hzero).mpr h)
    have hlow : 2 ^ 23 ≤ n * 2 ^ (23 - Nat.log2 n) :=
      calc 2 ^ 23 = 2 ^ Nat.log2 n * 2 ^ (23 - Nat.log2 n) := by rw [← pow_add, Nat.add_sub_cancel' hlog]
        _ ≤ n * 2 ^ (23 - Nat.log2 n) := Nat.mul_le_mul_right _ (Nat.log2_self_le hzero)
    have hhigh : n * 2 ^ (23 - Nat.log2 n) ≤ 2 ^ 24 :=
      calc n * 2 ^ (23 - Nat.log2 n) ≤ 2 ^ (Nat.log2 n + 1) * 2 ^ (23 - Nat.log2 n) :=
            Nat.mul_le_mul_right _ Nat.lt_log2_self.le
        _ = 2 ^ 24 := by rw [← pow_add]; congr 1; omega
    refine ⟨(126 + Nat.log2 n) * 2 ^ 23 + n * 2 ^ (23 - Nat.log2 n), by omega, ?_⟩
    rw [unitsOf_add (.inr hlow) hhigh, Nat.mul_assoc, ← pow_add]
    congr 2
    omega

theorem signedUnits_u2f {n : Word} (h : n.toNat < 2 ^ 24) : signedUnits (u2f n) = n.toNat * 2 ^ 149 := by
  obtain ⟨m, hm, hvalue⟩ := exists_unitsOf_eq h
  rw [u2f, ← hvalue, roundUnits_unitsOf hm, signedUnits, signBit_withSign (by omega), units_eq,
    magBits_withSign (by omega), hvalue]
  exact Nat.cast_mul _ _

theorem f2u_of_isFinite {x : F32} (h : isFinite x = true) (hsign : signBit x = false) :
    f2u x = BitVec.ofNat 32 (min (units x / 2 ^ 149) 0xFFFFFFFF) := by
  simp [f2u, not_isNaN_of_isFinite h, not_isInf_of_isFinite h, hsign]

theorem f2u_saturates {x : F32} (h : isFinite x = true) (hsign : signBit x = false)
    (hlarge : 2 ^ 32 * 2 ^ 149 ≤ units x) : f2u x = 0xFFFFFFFF := by
  have hquotient : 2 ^ 32 ≤ units x / 2 ^ 149 := (Nat.le_div_iff_mul_le (by decide)).mpr hlarge
  rw [f2u_of_isFinite h hsign, Nat.min_eq_right (by omega)]
  rfl

theorem f2u_truncates {x : F32} (h : isFinite x = true) (hsign : signBit x = false)
    (hsmall : units x < 2 ^ 32 * 2 ^ 149) :
    (f2u x).toNat * 2 ^ 149 ≤ units x ∧ units x < ((f2u x).toNat + 1) * 2 ^ 149 := by
  have hquotient : units x / 2 ^ 149 < 2 ^ 32 := (Nat.div_lt_iff_lt_mul (by decide)).mpr hsmall
  have hvalue : (f2u x).toNat = units x / 2 ^ 149 := by
    rw [f2u_of_isFinite h hsign, Nat.min_eq_left (by omega), BitVec.toNat_ofNat, Nat.mod_eq_of_lt hquotient]
  rw [hvalue]
  exact ⟨Nat.div_mul_le_self _ _, Nat.lt_mul_of_div_lt (Nat.lt_succ_self _) (by decide)⟩

theorem f2u_special (x : F32) : (isNaN x = true → f2u x = 0) ∧ (isNaN x = false → signBit x = true → f2u x = 0) ∧
    (isInf x = true → signBit x = false → f2u x = 0xFFFFFFFF) := by
  refine ⟨fun h => ?_, fun h hsign => ?_, fun h hsign => ?_⟩
  · simp [f2u, h]
  · simp [f2u, hsign]
  · simp [f2u, not_isNaN_of_isInf h, h, hsign]

/-- Settles O60, from the cases of each operation. -/
theorem arithmeticRoundsTheExactResult : Obligations.ArithmeticRoundsTheExactResult := by
  refine ⟨fun neg e f he hf => fields_of_withSign neg he hf, fun N a b ha hb => ?_,
    fun N a b => ⟨isNaN_fadd N a b, isNaN_fsub N a b, isNaN_fmul N a b, isNaN_fdiv N a b⟩,
    fun N a b => ⟨isInf_isFinite_results N, isInf_isInf_results N, fmul_of_isInf N⟩,
    fun n => ⟨rfl, signedUnits_u2f⟩, fun x => ?_⟩
  · dsimp only
    rw [fadd_of_isFinite ha hb, fsub_of_isFinite ha hb]
    exact ⟨roundSum_of_ne, roundSum_of_eq, roundSum_of_ne, roundSum_of_eq, fmul_of_isFinite ha hb,
      fdiv_of_isFinite ha hb, fdiv_of_isZero ha hb⟩
  · obtain ⟨hNaN, hnegative, hInf⟩ := f2u_special x
    exact ⟨hNaN, hnegative, hInf, fun h hsign => ⟨f2u_saturates h hsign, f2u_truncates h hsign⟩⟩

end Sys2Proof.Machine
end
